-- ==== Sys2Proof/Word.lean ====
section
/-!
DEFINITION. The word types of the block: every port word, register word and memory word is 32 bits (00_scope.md R11, R12).
-/

namespace Sys2Proof

/-- A 32-bit word of a port, a memory or an operand (00_scope.md R12). -/
abbrev Word := BitVec 32

/-- A byte of a byte-wide transport (20_memory.md R57). -/
abbrev Byte := BitVec 8

/-- The 32-bit pattern of a binary32 value: sign [31], exponent [30:23], fraction [22:0] (00_scope.md R11). -/
abbrev F32 := BitVec 32

end Sys2Proof
end

