-- ==== Sys2Proof/Config.lean ====
section
/-!
DEFINITION. What the spec fixes once for the block (00_scope.md R5 to R10) and the free values
it leaves open. A free value is an opaque constant with no body: nothing in Lean can prove what it is.
-/

namespace Sys2Proof.Config

/-- `MAX_DELAY_SAMPLES` (00_scope.md R5). -/
@[simp] abbrev maxDelaySamples : Nat := 192000

/-- `MAX_VOICES` (00_scope.md R6). -/
@[simp] abbrev maxVoices : Nat := 16

/-- `BASE_DELAY_MAX` (00_scope.md R8). -/
@[simp] abbrev baseDelayMax : Nat := 11999

/-- 300.0f, the delay time CREATE sets (00_scope.md R10, 44_lifecycle_and_host.md R200). -/
def defaultDelayTime : F32 := 0x43960000

/-- 0.3f, the feedback CREATE sets (00_scope.md R10, 44_lifecycle_and_host.md R200). -/
def defaultFeedback : F32 := 0x3E99999A

/-- 0.5f, the mix CREATE sets (00_scope.md R10, 44_lifecycle_and_host.md R200). -/
def defaultMix : F32 := 0x3F000000

/-- 2000.0f, the upper bound of `DT` (41_engine_control.md R121). -/
def delayTimeMax : F32 := 0x44FA0000

/-- 1.0f (41_engine_control.md R122, 42_process_block.md R158). -/
def one : F32 := 0x3F800000

/-- 0.5f (42_process_block.md R153). -/
def half : F32 := 0x3F000000

/-- 1000.0f (40_tap_geometry.md R103). -/
def thousand : F32 := 0x447A0000

/-- The test configuration `W = 8` (00_scope.md R9), used for `State.reset` only.
DESIGN CHOICE (log entry 1), unsafe for a claim that rests on it: `W` is an open parameter. -/
def testRingLen : Nat := 8

/-- The name of the code of FAULT_NO_INSTANCE (60_exceptions.md R224). -/
def faultNoInstance : Nat := 1

/-- The code that means no fault (60_exceptions.md R224). -/
def faultNone : Nat := 0

/-! ## Free values -/

/-- The binary32 operation a NaN result comes from (00_scope.md R16). -/
inductive FloatOp where
  | add | sub | mul | div
  deriving DecidableEq, Repr

/-- The registers DESTROY leaves unspecified (44_lifecycle_and_host.md R201). -/
inductive FreeReg where
  | sr | dt | fb | mx | vc | bd | wc | wi
  deriving DecidableEq, Repr

/-- The memories DESTROY leaves unspecified (44_lifecycle_and_host.md R201). -/
inductive FreeMem where
  | dm | wm
  deriving DecidableEq, Repr

/-- FREE VALUE: the bits of a NaN result (00_scope.md R16 "A NaN result has an unspecified NaN bit pattern"), for the
operation, the draw counter and the two operands. `Machine.nanResult` keeps the one limit the rule sets, that it is a
NaN. DESIGN CHOICE (log entry 5), safe. -/
opaque freeNaN : FloatOp → Nat → F32 → F32 → F32

/-- FREE VALUE: what DESTROY leaves in a register (44_lifecycle_and_host.md R201), as a number, for the register
and the draw counter. DESIGN CHOICE (log entry 6), safe. -/
opaque freeReg : FreeReg → Nat → Nat

/-- FREE VALUE: what DESTROY leaves in a memory (44_lifecycle_and_host.md R201), as index and word pairs, for the memory
and the draw counter. DESIGN CHOICE (log entry 6), safe. -/
opaque freeCells : FreeMem → Nat → List (Nat × Word)

end Sys2Proof.Config
end

