-- ==== Sys2Proof/Syntax.lean ====
section
/-!
DEFINITION. The commands of the block (30_encoding.md R73), one constructor per row of the opcode table, with their
operands in the kinds of R72: an `F32` operand is its 32-bit pattern, a `U32` operand a natural number, an `I32` operand
an integer. Then the lines of the spec's assembler (R81, R82).
-/

namespace Sys2Proof

/-- A command with its operand words read (30_encoding.md R73, R83). The input frames of PROCESS_BLOCK are not part of it:
they are taken from the command port while the command runs (42_process_block.md R150, R160). -/
inductive Instr where
  | create (sr : F32)
  | destroy
  | reset
  | setSampleRate (hz : F32)
  | setDelayTime (ms : F32)
  | setFeedback (v : F32)
  | setMix (v : F32)
  | setVoiceCount (n : Int)
  | getSampleRate
  | getDelayTime
  | getFeedback
  | getMix
  | getVoiceCount
  | getWriteCursor
  | processBlock (nli nri nlo nro : Nat)
  | getWaveformSize
  | getWaveformIndex
  | getVoiceWaveform (k : Nat)
  | readVoiceRing (k : Nat)
  deriving DecidableEq, Repr

/-- The 19 operations an opcode names (30_encoding.md R73). -/
inductive Opcode where
  | create | destroy | reset
  | setSampleRate | setDelayTime | setFeedback | setMix | setVoiceCount
  | getSampleRate | getDelayTime | getFeedback | getMix | getVoiceCount | getWriteCursor
  | processBlock
  | getWaveformSize | getWaveformIndex | getVoiceWaveform | readVoiceRing
  deriving DecidableEq, Repr

/-- An `F32` operand as the assembler writes it (30_encoding.md R81): the decimal `± digits / 10 ^ places`, or a bit
pattern `#0x…`. -/
inductive F32Literal where
  | decimal (negative : Bool) (digits places : Nat)
  | bits (w : F32)
  deriving DecidableEq, Repr

/-- A line of assembly: a command, an input frame, a pseudo-command or a raw word (30_encoding.md R81, R82). -/
inductive Line where
  | command (i : Instr)
  | frame (l r : F32Literal)
  | process (n : Nat)
  | silence (n : Nat)
  | impulse (n : Nat)
  | rawWord (w : Word)
  deriving DecidableEq, Repr

end Sys2Proof
end

