-- ==== Sys2Proof/Machine/State.lean ====
section
/-!
DEFINITION. The state of the block (10_state.md), why a step can stop, and the state right after power-on.
-/

namespace Sys2Proof.Machine

/-- A word memory as index and word pairs in canonical form: indices strictly rising, and no entry equal to
`unlistedWord`. The block's memories hold whole words and have no byte lanes (20_memory.md R57, R59; log entry 12). -/
abbrev Mem := List (Nat × Word)

/-- What an index with no entry reads as: `0x00000000`, what RESET and CREATE leave everywhere (20_memory.md R53, R55).
DESIGN CHOICE for power-on, where the spec says "unspecified" (log entry 3), unsafe for a claim about power-on. -/
def unlistedWord : Word := 0

/-- What is recorded of a fault (10_state.md R32, 60_exceptions.md R221): its code and the `cp` of the faulting command
word. Code 0 means no fault (60_exceptions.md R224). -/
structure FaultInfo where
  code : Nat
  position : Nat
  deriving DecidableEq, Repr

/-- What the block does once the response words that wait have all gone out (log entry 10). -/
inductive After where
  /-- The command ends and `cp` advances by its `length` in words (30_encoding.md R78). -/
  | command (length : Nat)
  /-- The sample step ends with its pointer advance (42_process_block.md R159), and `left` sample steps of a block of
  `total` frames are still to do. -/
  | sampleStep (total left : Nat)
  deriving DecidableEq, Repr

/-- A command that waits before it is done: the two waits of 60_exceptions.md R224 inside a command. -/
inductive Busy where
  /-- Input starvation (42_process_block.md R160): a PROCESS_BLOCK of `total` frames waits for a frame, and `left` sample
  steps are still to do (log entry 9). -/
  | input (total left : Nat)
  /-- Response back-pressure (44_lifecycle_and_host.md R209 (c)): `words` are emitted as the host takes words, and the
  command then goes on as `after` says (log entry 10). -/
  | output (words : List Word) (after : After)
  deriving DecidableEq, Repr

/-- The state of the block. Each field names its rule in 10_state.md unless another file is named. -/
structure State where
  /-- `SR`, sample rate (R22). -/
  sr : F32
  /-- `DT`, delay time in milliseconds (R23). -/
  dt : F32
  /-- `FB`, feedback gain (R24). -/
  fb : F32
  /-- `MX`, wet/dry mix (R25). -/
  mx : F32
  /-- `VC`, voice count (R26). -/
  vc : BitVec 5
  /-- `BD`, block base delay (R27). -/
  bd : BitVec 14
  /-- `WC`, write cursor (R28). -/
  wc : BitVec 18
  /-- `WI`, waveform write index (R29); its width depends on `W`, so it is a number (log entry 13). -/
  wi : Nat
  /-- `ALIVE` (R30). -/
  alive : Bool
  /-- `cp`, command pointer (R31). -/
  cp : Nat
  /-- `FAULTED` (R32). -/
  faulted : Bool
  /-- `FAULT_INFO` (R32). -/
  faultInfo : FaultInfo
  /-- `DM`, delay memory (R33, 20_memory.md R50): index `a` is `DM[a]`. -/
  dm : Mem
  /-- `WM`, capture memory (R34, 20_memory.md R54): index `16 * j + k` is `WM[k][j]` (log entry 12). -/
  wm : Mem
  /-- The command port: words sent and not yet taken, oldest first (30_encoding.md R70). -/
  port : List Word
  /-- The response port: words emitted and not yet taken by the host, oldest first (30_encoding.md R70). -/
  resp : List Word
  /-- How many words the response port holds before an `emit` waits (44_lifecycle_and_host.md R209 (c)); the spec gives no
  number. `none`: the host takes every word as it comes, so no `emit` waits. No command writes it (log entry 10). -/
  respCap : Option Nat
  /-- The command that waits for input words or for room on the response port, if one does (60_exceptions.md R224). -/
  busy : Option Busy
  /-- `W`, WAVEFORM_BUFFER_SIZE (00_scope.md R9): an open parameter no command writes (log entry 1). -/
  ringLen : Nat
  /-- The model's own counter for free values (log entry 15). -/
  draw : Nat
  deriving DecidableEq, Repr

/-- Why the machine stops. -/
inductive Fault where
  /-- Raised by every step and every command once `FAULTED = 1`: "After `FAULTED = 1` the block's behaviour is not
  defined by this spec: a model gives no command a step" (60_exceptions.md R221; log entry 11). Safe. -/
  | stuckAfterFault
  deriving DecidableEq, Repr

/-- Why an instruction has no meaning. -/
inductive Refusal where
  /-- Raised by an arm of `exec` for an instruction the model has not reached; no arm does. Safe. -/
  | notModelled (mnemonic : String)
  deriving DecidableEq, Repr

/-- Power-on (70_reset_and_hazards.md R240, 10_state.md R38): `ALIVE = 0`, `FAULTED = 0`, `cp = 0`, idle. Every other
value is "unspecified" in the spec: DESIGN CHOICE, log entries 1, 2, 3, 4, 10 and 15, unsafe for a claim that rests on it. -/
def State.reset : State where
  sr := 0
  dt := 0
  fb := 0
  mx := 0
  vc := 1
  bd := 1
  wc := 0
  wi := 0
  alive := false
  cp := 0
  faulted := false
  faultInfo := ⟨Config.faultNone, 0⟩
  dm := []
  wm := []
  port := []
  resp := []
  respCap := none
  busy := none
  ringLen := Config.testRingLen
  draw := 0

end Sys2Proof.Machine
end

