-- ==== Sys2Proof/Machine/Ops.lean ====
section
/-!
DEFINITION. The operations the commands share: the two word memories (20_memory.md R51, R53, R55), the ports
(00_scope.md R15), raising the fault (60_exceptions.md R221), and the checks made before a command runs.
-/

namespace Sys2Proof.Machine

/-- What a command answers. -/
abbrev Result := Host.Outcome State Fault Refusal

/-! ## Word memories -/

/-- The word at index `a`. -/
def memRead : Mem → Nat → Word
  | [], _ => unlistedWord
  | (b, v) :: m, a => if a = b then v else memRead m a

/-- Stores `v` at index `a` and keeps the canonical form. -/
def memWrite : Mem → Nat → Word → Mem
  | [], a, v => if v = unlistedWord then [] else [(a, v)]
  | (b, u) :: m, a, v =>
      if a < b then (if v = unlistedWord then (b, u) :: m else (a, v) :: (b, u) :: m)
      else if a = b then (if v = unlistedWord then m else (a, v) :: m)
      else (b, u) :: memWrite m a v

/-- Every entry has an index of at least `lo` and below `hi`, indices strictly rise, and no entry holds
`unlistedWord`. -/
def memSorted (hi : Nat) : Nat → Mem → Bool
  | _, [] => true
  | lo, (a, v) :: m => decide (lo ≤ a) && decide (a < hi) && decide (v ≠ unlistedWord) && memSorted hi (a + 1) m

/-- The canonical form of a memory with `size` words. -/
def Memory.wf (size : Nat) (m : Mem) : Bool := memSorted size 0 m

/-- The memory that index and word pairs describe, those outside its `size` words dropped and a later pair winning. -/
def memOfCells (size : Nat) (cells : List (Nat × Word)) : Mem :=
  cells.foldl (fun m c => if c.1 < size then memWrite m c.1 c.2 else m) []

/-- `DMemRead(a)`, index modulo capacity (00_scope.md R13, 20_memory.md R51). -/
def dmRead (s : State) (a : Nat) : Word := memRead s.dm (a % Config.maxDelaySamples)

/-- `DMemWrite(a, v)`, index modulo capacity (00_scope.md R13, 20_memory.md R51). -/
def dmWrite (m : Mem) (a : Nat) (v : Word) : Mem := memWrite m (a % Config.maxDelaySamples) v

/-- `DMemFill0()`: every word `+0.0` (20_memory.md R53). -/
def dmFill0 : Mem := []

/-- Where slot `j` of ring `k` stands in the capture memory (log entry 12). -/
def ringIndex (k j : Nat) : Nat := Config.maxVoices * j + k

/-- `WMemRead(k, j)` (00_scope.md R14). -/
def wmRead (s : State) (k j : Nat) : Word := memRead s.wm (ringIndex k j)

/-- `WMemWrite(k, j, v)` (00_scope.md R14). -/
def wmWrite (m : Mem) (k j : Nat) (v : Word) : Mem := memWrite m (ringIndex k j) v

/-- `WMemFill0()`: every slot of every ring `+0.0` (20_memory.md R55). -/
def wmFill0 : Mem := []

/-! ## Ports -/

/-- `emit` for a list of words, in order (00_scope.md R15, 30_encoding.md R77). -/
def emitAll (ws : List Word) (s : State) : State := { s with resp := s.resp ++ ws }

/-- How many of `k` words the response port still holds before an `emit` waits (log entry 10). -/
def respRoom (s : State) (k : Nat) : Nat :=
  match s.respCap with
  | none => k
  | some c => min k (c - s.resp.length)

/-- `emit` for a list of words, and what follows them: the words that have room go out in order. When all have, the
command goes on with `next`; otherwise it waits at the first one that has none, "stuck until they are taken"
(44_lifecycle_and_host.md R209 (c); 60_exceptions.md R224; I13 of 93_implementation_defined.md; log entry 10). -/
def emitThen (ws : List Word) (after : After) (next : State → State) (s : State) : State :=
  let k := respRoom s ws.length
  let t := emitAll (ws.take k) s
  if k < ws.length then { t with busy := some (.output (ws.drop k) after) } else next t

/-- The words of a completed command are taken and `cp <- cp + k` (00_scope.md R15, 30_encoding.md R78). -/
def complete (k : Nat) (s : State) : State := { s with port := s.port.drop k, cp := s.cp + k }

/-- A command of `k` words that answers `ws`: its words are taken, the answer is emitted, and then `cp <- cp + k`
(00_scope.md R15, 30_encoding.md R77, R78). -/
def respond (k : Nat) (ws : List Word) (s : State) : State :=
  emitThen ws (.command k) (fun t => { t with cp := t.cp + k }) { s with port := s.port.drop k }

/-- An illegal word is taken and ignored: `cp` advances by 1 and nothing else changes (30_encoding.md R75). -/
def skipIllegal (s : State) : State := complete 1 s

/-- The host sends words on the command port (30_encoding.md R70). -/
def State.send (s : State) (ws : List Word) : State := { s with port := s.port ++ ws }

/-- The host takes the `k` oldest words of the response port (30_encoding.md R70, 44_lifecycle_and_host.md R209 (c)). -/
def State.drain (s : State) (k : Nat) : State := { s with resp := s.resp.drop k }

/-! ## The fault, and the checks before a command -/

/-- `raise Fault(code)` (60_exceptions.md R221): the mark and the record are set with the `cp` of the command word, that
word alone is taken (30_encoding.md R78), and nothing else is written. -/
def raiseFault (code : Nat) (s : State) : State :=
  complete 1 { s with faulted := true, faultInfo := ⟨code, s.cp⟩ }

/-- A command that needs no instance (CREATE, GET_WAVEFORM_SIZE) and leaves `t`: it runs unless the block is stuck
(60_exceptions.md R221, R222). -/
def runAlways (s t : State) : Result :=
  if s.faulted then .fault .stuckAfterFault else .next t

/-- A command that needs an instance and leaves `t`: it raises FAULT_NO_INSTANCE when `ALIVE = 0`
(60_exceptions.md R221, R222). -/
def runAlive (s t : State) : Result :=
  if s.faulted then .fault .stuckAfterFault
  else if s.alive then .next t
  else .next (raiseFault Config.faultNoInstance s)

end Sys2Proof.Machine
end

