-- ==== Sys2Proof/Machine/Capture.lean ====
section
/-!
DEFINITION. The waveform capture commands (43_waveform_capture.md).
-/

namespace Sys2Proof.Machine

/-- Ring `k` read at the slots `slot 0, ..., slot (W - 1)`; a voice index `k >= VC` reads no ring and gives `W` words
`+0.0` (43_waveform_capture.md R184). -/
def ringView (s : State) (k : Nat) (slot : Nat → Nat) : List Word :=
  (List.range s.ringLen).map fun i => if s.vc.toNat ≤ k then 0 else wmRead s k (slot i)

/-- GET_WAVEFORM_SIZE (43_waveform_capture.md R180): legal whatever `ALIVE` is. For `W >= 2 ^ 32` the word holds the low
32 bits (log entry 19). -/
def execGetWaveformSize (s : State) : Result :=
  runAlways s (respond 1 [BitVec.ofNat 32 s.ringLen] s)

/-- GET_WAVEFORM_INDEX (43_waveform_capture.md R181). -/
def execGetWaveformIndex (s : State) : Result :=
  runAlive s (respond 1 [BitVec.ofNat 32 s.wi] s)

/-- GET_VOICE_WAVEFORM `k`: the ring rotated so that the oldest slot comes first (43_waveform_capture.md R182). -/
def execGetVoiceWaveform (k : Nat) (s : State) : Result :=
  runAlive s (respond 2 (ringView s k fun i => (s.wi + i) % s.ringLen) s)

/-- READ_VOICE_RING `k`: the ring in slot order (43_waveform_capture.md R183). -/
def execReadVoiceRing (k : Nat) (s : State) : Result :=
  runAlive s (respond 2 (ringView s k fun j => j) s)

end Sys2Proof.Machine
end

