-- ==== Sys2Proof/Machine/Float.lean ====
section
/-!
DEFINITION. Binary32 arithmetic (00_scope.md R11, R16, R17). Every finite binary32 value is a whole number of units of
`2 ^ -149`, the smallest subnormal; an operation is computed exactly in these units and rounded once, to nearest, ties to
even. A NaN result is a free value (log entry 5). The rules for signed zeros and infinities are those of IEEE 754, which
R16 names (log entry 20).
-/

namespace Sys2Proof.Machine

open Sys2Proof.Config (FloatOp)

/-! ## The parts of a pattern (00_scope.md R11) -/

/-- The sign bit, bit 31. -/
def f32Neg (x : F32) : Bool := x.msb

/-- Bits 30 to 0, exponent and fraction together: they order the magnitudes of all non-NaN values. -/
def f32Mag (x : F32) : Nat := x.toNat % 2 ^ 31

/-- The magnitude bits of an infinity: exponent all ones, fraction zero. -/
abbrev infMag : Nat := 0x7F800000

/-- Exponent all ones and fraction nonzero. -/
def isNaN (x : F32) : Bool := decide (infMag < f32Mag x)

/-- An infinity of either sign. -/
def isInf (x : F32) : Bool := decide (f32Mag x = infMag)

/-- Neither a NaN nor an infinity. -/
def isFinite (x : F32) : Bool := decide (f32Mag x < infMag)

/-- A zero of either sign. -/
def isZero (x : F32) : Bool := decide (f32Mag x = 0)

/-- The magnitude a pattern denotes, in units of `2 ^ -149`. Below `2 ^ 24` (exponent fields 0 and 1) the unit is the
spacing of the values and the pattern is the count; above, the 24-bit significand is shifted by the exponent field less
one. An infinity comes out above every finite value. -/
def magUnits (p : Nat) : Nat :=
  if p < 2 ^ 24 then p else (p % 2 ^ 23 + 2 ^ 23) * 2 ^ (p / 2 ^ 23 - 1)

/-- `real(x)` of 00_scope.md R16, in units of `2 ^ -149`; `+inf` is above and `-inf` below every finite value. -/
def units (x : F32) : Int :=
  if f32Neg x then -(magUnits (f32Mag x) : Int) else (magUnits (f32Mag x) : Int)

/-- The pattern with the given sign and magnitude bits. -/
def pack (neg : Bool) (mag : Nat) : F32 := BitVec.ofNat 32 (if neg then 2 ^ 31 + mag else mag)

/-! ## Rounding -/

/-- `num / den` rounded to the nearest whole number, ties to even. -/
def roundEven (num den : Nat) : Nat :=
  let q := num / den
  let r := num % den
  if 2 * r < den then q else if den < 2 * r then q + 1 else q + q % 2

/-- The magnitude bits of the binary32 value nearest to `num / den` units, ties to even; the infinity when that value
rounds above the largest finite one. The shift `e` makes the significand 24 bits wide; a significand that rounds up to
`2 ^ 24` carries into the exponent field. -/
def roundMag (num den : Nat) : Nat :=
  let e := Nat.log2 (num / den) - 23
  min (e * 2 ^ 23 + roundEven num (den * 2 ^ e)) infMag

/-- `round_half_away` of `n / d` for `d > 0` (00_scope.md R17). -/
def roundHalfAway (n : Int) (d : Nat) : Int :=
  let m : Nat := (2 * n.natAbs + d) / (2 * d)
  if n < 0 then -(m : Int) else (m : Int)

/-! ## NaN results -/

/-- A NaN result: any NaN pattern at all, chosen by the free value (00_scope.md R16; log entry 5). Every NaN pattern is
its own image, so nothing but being a NaN is fixed. -/
def nanResult (op : FloatOp) (draw : Nat) (a b : F32) : F32 :=
  let x := Config.freeNaN op draw a b
  if isNaN x then x else 0x7FC00000

/-! ## The operations (00_scope.md R16)

`draw` is the state's counter for free values; it matters only when the result is a NaN. -/

/-- The sum of two values neither of which is a NaN and which are not infinities of opposite signs. An exact zero sum is
`-0.0` only when both operands are negative zeros. -/
def addOrdered (a b : F32) : F32 :=
  if isInf a then a
  else if isInf b then b
  else
    let k := units a + units b
    if k = 0 then pack (f32Neg a && f32Neg b) 0
    else pack (decide (k < 0)) (roundMag k.natAbs 1)

/-- `f32_add(a, b)`. -/
def f32Add (draw : Nat) (a b : F32) : F32 :=
  if isNaN a || isNaN b || (isInf a && isInf b && (f32Neg a != f32Neg b)) then nanResult .add draw a b
  else addOrdered a b

/-- The pattern with the sign bit inverted. -/
def f32Negate (x : F32) : F32 := x ^^^ 0x80000000

/-- `f32_sub(a, b)`. -/
def f32Sub (draw : Nat) (a b : F32) : F32 :=
  if isNaN a || isNaN b || (isInf a && isInf b && (f32Neg a == f32Neg b)) then nanResult .sub draw a b
  else addOrdered a (f32Negate b)

/-- `f32_mul(a, b)`: the product of two counts of `2 ^ -149` is a count of `2 ^ -298`. -/
def f32Mul (draw : Nat) (a b : F32) : F32 :=
  if isNaN a || isNaN b || (isInf a && isZero b) || (isZero a && isInf b) then nanResult .mul draw a b
  else if isInf a || isInf b then pack (f32Neg a != f32Neg b) infMag
  else pack (f32Neg a != f32Neg b) (roundMag (magUnits (f32Mag a) * magUnits (f32Mag b)) (2 ^ 149))

/-- `f32_div(a, b)`. -/
def f32Div (draw : Nat) (a b : F32) : F32 :=
  if isNaN a || isNaN b || (isInf a && isInf b) || (isZero a && isZero b) then nanResult .div draw a b
  else if isInf a || isZero b then pack (f32Neg a != f32Neg b) infMag
  else if isInf b then pack (f32Neg a != f32Neg b) 0
  else pack (f32Neg a != f32Neg b) (roundMag (magUnits (f32Mag a) * 2 ^ 149) (magUnits (f32Mag b)))

/-- The binary32 value nearest to `± digits / 10 ^ places`, ties to even (30_encoding.md R81). -/
def f32OfDecimal (negative : Bool) (digits places : Nat) : F32 :=
  pack negative (roundMag (digits * 2 ^ 149) (10 ^ places))

end Sys2Proof.Machine
end

