-- ==== Sys2Proof/Machine/Operands.lean ====
section
/-!
DEFINITION. How the setters read their operands (00_scope.md R18, 30_encoding.md R72, 41_engine_control.md R121 to
R124), and the same ranges for the free values DESTROY leaves (10_state.md R39; log entry 6).
-/

namespace Sys2Proof.Machine

/-- A binary32 value in the real interval from 0 to `hi`; `-0.0` counts as 0 (10_state.md R23, R24). -/
def inRange (hi x : F32) : Bool := !isNaN x && decide (0 ≤ units x) && decide (units x ≤ units hi)

/-- What a float setter writes (41_engine_control.md R121 to R123): a NaN keeps the old value, a value below 0 gives
`+0.0`, one above `hi` gives `hi`, and any other is stored verbatim. -/
def clampFloat (hi old v : F32) : F32 :=
  if isNaN v then old
  else if units v < 0 then 0
  else if units hi < units v then hi
  else v

/-- `clamp(n, 1, 16)` (41_engine_control.md R124). -/
def clampVoices (n : Int) : Nat := (max 1 (min n Config.maxVoices)).toNat

/-- A free binary32 value in the interval from 0 to `hi`: each value of the interval is its own image. -/
def freeInRange (hi : F32) (n : Nat) : F32 :=
  let x := BitVec.ofNat 32 n
  if inRange hi x then x else 0

end Sys2Proof.Machine
end

