-- ==== Sys2Proof/Machine/Control.lean ====
section
/-!
DEFINITION. Engine control (41_engine_control.md): the setters, the getters and RESET.
-/

namespace Sys2Proof.Machine

/-- A getter: its one response word, and one command word taken (41_engine_control.md, section 2). -/
def getter (w : Word) (s : State) : Result := runAlive s (respond 1 [w] s)

/-- SET_SAMPLE_RATE `hz`: stored verbatim (41_engine_control.md R120). -/
def execSetSampleRate (hz : F32) (s : State) : Result :=
  runAlive s (complete 2 { s with sr := hz })

/-- SET_DELAY_TIME `ms`: clamped to [0, 2000] (41_engine_control.md R121). -/
def execSetDelayTime (ms : F32) (s : State) : Result :=
  runAlive s (complete 2 { s with dt := clampFloat Config.delayTimeMax s.dt ms })

/-- SET_FEEDBACK `v`: clamped to [0, 1] (41_engine_control.md R122). -/
def execSetFeedback (v : F32) (s : State) : Result :=
  runAlive s (complete 2 { s with fb := clampFloat Config.one s.fb v })

/-- SET_MIX `v`: clamped to [0, 1] (41_engine_control.md R123). -/
def execSetMix (v : F32) (s : State) : Result :=
  runAlive s (complete 2 { s with mx := clampFloat Config.one s.mx v })

/-- SET_VOICE_COUNT `n`: the signed operand clamped to [1, 16] (41_engine_control.md R124). -/
def execSetVoiceCount (n : Int) (s : State) : Result :=
  runAlive s (complete 2 { s with vc := BitVec.ofNat 5 (clampVoices n) })

/-- GET_SAMPLE_RATE (41_engine_control.md R125). -/
def execGetSampleRate (s : State) : Result := getter s.sr s

/-- GET_DELAY_TIME (41_engine_control.md R126). -/
def execGetDelayTime (s : State) : Result := getter s.dt s

/-- GET_FEEDBACK (41_engine_control.md R127). -/
def execGetFeedback (s : State) : Result := getter s.fb s

/-- GET_MIX (41_engine_control.md R128). -/
def execGetMix (s : State) : Result := getter s.mx s

/-- GET_VOICE_COUNT (41_engine_control.md R129). -/
def execGetVoiceCount (s : State) : Result := getter (s.vc.setWidth 32) s

/-- GET_WRITE_CURSOR (41_engine_control.md R133). -/
def execGetWriteCursor (s : State) : Result := getter (s.wc.setWidth 32) s

/-- RESET (41_engine_control.md R130): clears `DM`, all 16 rings, `WC` and `WI`, and keeps the parameters. `BD` is not
written (10_state.md R27; log entry 7). -/
def execReset (s : State) : Result :=
  runAlive s (complete 1 { s with dm := dmFill0, wm := wmFill0, wc := 0, wi := 0 })

end Sys2Proof.Machine
end

