-- ==== Sys2Proof/Machine/Lifecycle.lean ====
section
/-!
DEFINITION. The lifecycle commands (44_lifecycle_and_host.md R200, R201).
-/

namespace Sys2Proof.Machine

/-- The state of a new instance at sample rate `rate`: defaults, both memories cleared, both cursors 0. `BD` is not
written (10_state.md R27; log entry 7). -/
def freshInstance (rate : F32) (s : State) : State :=
  { s with
    sr := rate
    dt := Config.defaultDelayTime
    fb := Config.defaultFeedback
    mx := Config.defaultMix
    vc := 1
    dm := dmFill0
    wm := wmFill0
    wc := 0
    wi := 0
    alive := true }

/-- CREATE `sr` (44_lifecycle_and_host.md R200): legal whatever `ALIVE` is. -/
def execCreate (sr : F32) (s : State) : Result :=
  runAlways s (complete 2 (freshInstance sr s))

/-- The state DESTROY leaves: `ALIVE = 0`, and every register and memory unspecified (44_lifecycle_and_host.md R201), a
free value inside the range 10_state.md R39 keeps for it (log entry 6). -/
def releasedInstance (s : State) : State :=
  { s with
    alive := false
    sr := BitVec.ofNat 32 (Config.freeReg .sr s.draw)
    dt := freeInRange Config.delayTimeMax (Config.freeReg .dt s.draw)
    fb := freeInRange Config.one (Config.freeReg .fb s.draw)
    mx := freeInRange Config.one (Config.freeReg .mx s.draw)
    vc := BitVec.ofNat 5 (Config.freeReg .vc s.draw % Config.maxVoices + 1)
    bd := BitVec.ofNat 14 (Config.freeReg .bd s.draw % Config.baseDelayMax + 1)
    wc := BitVec.ofNat 18 (Config.freeReg .wc s.draw % Config.maxDelaySamples)
    wi := Config.freeReg .wi s.draw % s.ringLen
    dm := memOfCells Config.maxDelaySamples (Config.freeCells .dm s.draw)
    wm := memOfCells (Config.maxVoices * s.ringLen) (Config.freeCells .wm s.draw)
    draw := s.draw + 1 }

/-- DESTROY (44_lifecycle_and_host.md R201). -/
def execDestroy (s : State) : Result :=
  runAlive s (complete 1 (releasedInstance s))

end Sys2Proof.Machine
end

