-- ==== Sys2Proof/Machine/GainRom.lean ====
section
/-!
DEFINITION. The read-only gain table `GAIN_ROM` of 40_tap_geometry.md R101, 136 binary32 words, row `n` holding
`TapGain(0, n)` to `TapGain(n - 1, n)` (log entry 17).
-/

namespace Sys2Proof.Machine

/-- Row `n = 1` of the table of 40_tap_geometry.md R101. -/
def gainRow1 : List F32 :=
  [0x3F800000]

/-- Row `n = 2` of the table of 40_tap_geometry.md R101. -/
def gainRow2 : List F32 :=
  [0x3F4CCCCD, 0x3F19999A]

/-- Row `n = 3` of the table of 40_tap_geometry.md R101. -/
def gainRow3 : List F32 :=
  [0x3F3AC2F3, 0x3F0C1236, 0x3ED21B52]

/-- Row `n = 4` of the table of 40_tap_geometry.md R101. -/
def gainRow4 : List F32 :=
  [0x3F327FA9, 0x3F05DFBF, 0x3EC8CF9E, 0x3E969BB6]

/-- Row `n = 5` of the table of 40_tap_geometry.md R101. -/
def gainRow5 : List F32 :=
  [0x3F2E4E9F, 0x3F02BAF8, 0x3EC41873, 0x3E931256, 0x3E5C9B82]

/-- Row `n = 6` of the table of 40_tap_geometry.md R101. -/
def gainRow6 : List F32 :=
  [0x3F2C134C, 0x3F010E79, 0x3EC195B5, 0x3E913048, 0x3E59C86C, 0x3E235651]

/-- Row `n = 7` of the table of 40_tap_geometry.md R101. -/
def gainRow7 : List F32 :=
  [0x3F2ADB6A, 0x3F002490, 0x3EC036D7, 0x3E902921, 0x3E583DB2, 0x3E222E46, 0x3DF34568]

/-- Row `n = 8` of the table of 40_tap_geometry.md R101. -/
def gainRow8 : List F32 :=
  [0x3F2A2EDE, 0x3EFF464C, 0x3EBF74B9, 0x3E8F978B, 0x3E576351, 0x3E218A7C, 0x3DF24FBB, 0x3DB5BBCC]

/-- Row `n = 9` of the table of 40_tap_geometry.md R101. -/
def gainRow9 : List F32 :=
  [0x3F29CEB3, 0x3EFEB60D, 0x3EBF088A, 0x3E8F4667, 0x3E56E99B, 0x3E212F34, 0x3DF1C6CE, 0x3DB5551B, 0x3D87FFD4]

/-- Row `n = 10` of the table of 40_tap_geometry.md R101. -/
def gainRow10 : List F32 :=
  [0x3F2998E3, 0x3EFE6554, 0x3EBECBFF, 0x3E8F18FF, 0x3E56A57F, 0x3E20FC1F, 0x3DF17A2F, 0x3DB51BA3, 0x3D87D4BA, 0x3D4BBF18]

/-- Row `n = 11` of the table of 40_tap_geometry.md R101. -/
def gainRow11 : List F32 :=
  [0x3F297AB4, 0x3EFE380E, 0x3EBEAA0B, 0x3E8EFF88, 0x3E567F4C, 0x3E20DF79, 0x3DF14F35, 0x3DB4FB68, 0x3D87BC8E, 0x3D4B9AD5, 0x3D18B420]

/-- Row `n = 12` of the table of 40_tap_geometry.md R101. -/
def gainRow12 : List F32 :=
  [0x3F2969C1, 0x3EFE1EA1, 0x3EBE96F9, 0x3E8EF13B, 0x3E5669D8, 0x3E20CF62, 0x3DF13713, 0x3DB4E94E, 0x3D87AEFB, 0x3D4B8678, 0x3D18A4DA, 0x3CE4F747]

/-- Row `n = 13` of the table of 40_tap_geometry.md R101. -/
def gainRow13 : List F32 :=
  [0x3F29603A, 0x3EFE1057, 0x3EBE8C42, 0x3E8EE931, 0x3E565DCA, 0x3E20C657, 0x3DF12983, 0x3DB4DF22, 0x3D87A75A, 0x3D4B7B07, 0x3D189C45, 0x3CE4EA67, 0x3CABAFCD]

/-- Row `n = 14` of the table of 40_tap_geometry.md R101. -/
def gainRow14 : List F32 :=
  [0x3F295ADF, 0x3EFE084F, 0x3EBE863B, 0x3E8EE4AC, 0x3E565703, 0x3E20C142, 0x3DF121E3, 0x3DB4D96A, 0x3D87A310, 0x3D4B7497, 0x3D189772, 0x3CE4E32A, 0x3CABAA60, 0x3C80BFC8]

/-- Row `n = 15` of the table of 40_tap_geometry.md R101. -/
def gainRow15 : List F32 :=
  [0x3F2957DC, 0x3EFE03CA, 0x3EBE82D8, 0x3E8EE222, 0x3E565333, 0x3E20BE66, 0x3DF11D99, 0x3DB4D633, 0x3D87A0A6, 0x3D4B70F9, 0x3D1894BB, 0x3CE4DF18, 0x3CABA752, 0x3C80BD7E, 0x3C411C3D]

/-- Row `n = 16` of the table of 40_tap_geometry.md R101. -/
def gainRow16 : List F32 :=
  [0x3F29562B, 0x3EFE0140, 0x3EBE80F0, 0x3E8EE0B4, 0x3E56510E, 0x3E20BCCB, 0x3DF11B30, 0x3DB4D464, 0x3D879F4B, 0x3D4B6EF0, 0x3D189334, 0x3CE4DCCE, 0x3CABA59B, 0x3C80BC34, 0x3C411A4E, 0x3C10D3BB]

/-- `GAIN_ROM`: entry `n - 1` is row `n` (40_tap_geometry.md R101). -/
def gainRom : List (List F32) :=
  [gainRow1, gainRow2, gainRow3, gainRow4] ++ [gainRow5, gainRow6, gainRow7, gainRow8] ++
  [gainRow9, gainRow10, gainRow11, gainRow12] ++ [gainRow13, gainRow14, gainRow15, gainRow16]

end Sys2Proof.Machine
end

