-- ==== Sys2Proof/Machine/Geometry.lean ====
section
/-!
DEFINITION. Tap geometry (40_tap_geometry.md): `TapGain`, `BaseDelay` and `TapDelay`.
-/

namespace Sys2Proof.Machine

/-- `TapGain(i, n)` (40_tap_geometry.md R101), defined for `1 <= n <= 16` and `i < n`. Outside the table, which no
state in range reaches, it is `+0.0` (log entry 17). -/
def tapGain (i n : Nat) : F32 := (gainRom.getD (n - 1) []).getD i 0

/-- `BaseDelay` of the product `p` (40_tap_geometry.md R103): the clamp is on the mathematical integer. -/
def baseDelayOfProduct (p : F32) : Nat :=
  if isNaN p then 1
  else if isInf p then (if f32Neg p then 1 else Config.baseDelayMax)
  else (max 1 (min (roundHalfAway (units p) (2 ^ 149)) Config.baseDelayMax)).toNat

/-- `BaseDelay(DT, SR)` (40_tap_geometry.md R103). -/
def baseDelay (draw : Nat) (dt sr : F32) : Nat :=
  let t := f32Div draw dt Config.thousand
  baseDelayOfProduct (f32Mul draw t sr)

/-- `TapDelay(i, n, b)` (40_tap_geometry.md R104); for `n = 1` only tap 0 exists and its offset is 0 either way. -/
def tapDelay (i n b : Nat) : Nat :=
  let offset := if 1 < n then b * i / n else 0
  min (b * (i + 1) + offset) (Config.maxDelaySamples - 1)

end Sys2Proof.Machine
end

