-- ==== Sys2Proof/Machine/Process.lean ====
section
/-!
DEFINITION. PROCESS_BLOCK and the sample step (42_process_block.md).
-/

namespace Sys2Proof.Machine

/-! ## The sample step -/

/-- Input summer: `mono` (42_process_block.md R153). -/
def monoInput (draw : Nat) (l r : F32) : F32 := f32Mul draw Config.half (f32Add draw l r)

/-- The read index of a tap of delay `d`: one wrap below zero (20_memory.md R52, 42_process_block.md R154). -/
def readIndex (wc d : Nat) : Nat := if d ≤ wc then wc - d else wc + Config.maxDelaySamples - d

/-- The output `y[t]` of tap `t` (42_process_block.md R154). -/
def tapOutput (s : State) (t : Nat) : F32 :=
  dmRead s (readIndex s.wc.toNat (tapDelay t s.vc.toNat s.bd.toNat))

/-- What the tap loop carries: the wet sum so far, the last tap's output so far, and the capture memory. -/
structure TapSums where
  wet : F32
  last : F32
  wm : Mem
  deriving DecidableEq, Repr

/-- Tap `t`: its output joins the wet sum, multiplied by its gain with a rounding of its own, and is recorded, before its
gain, in ring `t` (42_process_block.md R155, R156). -/
def tapStep (s : State) (acc : TapSums) (t : Nat) : TapSums :=
  let y := tapOutput s t
  { wet := f32Add s.draw acc.wet (f32Mul s.draw y (tapGain t s.vc.toNat))
    last := y
    wm := wmWrite acc.wm t s.wi y }

/-- The taps `0, 1, ..., VC - 1` in order, the wet sum starting at `+0.0` (42_process_block.md R152, R154, R155). -/
def tapLoop (s : State) : TapSums :=
  (List.range s.vc.toNat).foldl (tapStep s) { wet := 0, last := 0, wm := s.wm }

/-- Wet/dry blender of one channel (42_process_block.md R158). -/
def blend (draw : Nat) (mx x wet : F32) : F32 :=
  f32Add draw (f32Mul draw x (f32Sub draw Config.one mx)) (f32Mul draw wet mx)

/-- Feedback mixer: the word written at the write cursor (42_process_block.md R157). -/
def delayLineWord (draw : Nat) (fb mono last : F32) : F32 := f32Add draw mono (f32Mul draw last fb)

/-- `WC` after one sample step (42_process_block.md R159). -/
def nextWriteCursor (wc : BitVec 18) : BitVec 18 := BitVec.ofNat 18 ((wc.toNat + 1) % Config.maxDelaySamples)

/-- The two outputs of a sample step on the input frame `(l, r)`, left then right (42_process_block.md R158). -/
def sampleOutputs (l r : F32) (s : State) : List Word :=
  let wet := (tapLoop s).wet
  [blend s.draw s.mx l wet, blend s.draw s.mx r wet]

/-- What a sample step writes before its outputs are emitted: the rings and the delay line (42_process_block.md R152, R156,
R157). The free-value counter advances, so that the NaN patterns of two sample steps are independent (log entry 5). -/
def sampleWrites (l r : F32) (s : State) : State :=
  let taps := tapLoop s
  { s with
    dm := dmWrite s.dm s.wc.toNat (delayLineWord s.draw s.fb (monoInput s.draw l r) taps.last)
    wm := taps.wm
    draw := s.draw + 1 }

/-- The pointer advance that ends a sample step, after its outputs (42_process_block.md R159). -/
def advanceCursors (s : State) : State := { s with wc := nextWriteCursor s.wc, wi := (s.wi + 1) % s.ringLen }

/-- One whole sample step on the input frame `(l, r)` whose outputs do not wait (42_process_block.md R152). -/
def sampleStep (l r : F32) (s : State) : State :=
  advanceCursors (emitAll (sampleOutputs l r s) (sampleWrites l r s))

/-! ## The block -/

/-- `n = min(nli, nri, nlo, nro)` (42_process_block.md R150). -/
def blockFrames (nli nri nlo nro : Nat) : Nat := min (min nli nri) (min nlo nro)

/-- The end of a block of `total` frames: `cp <- cp + 5 + 2n` (42_process_block.md R150). -/
def finishBlock (total : Nat) (s : State) : State := { s with busy := none, cp := s.cp + (5 + 2 * total) }

/-- The sample steps still to do in a block of `total` frames, one input frame each. When no whole frame has arrived the
block waits in that sample step, the earlier ones done (42_process_block.md R160; log entry 9); when the outputs of a
sample step have no room it waits before the pointer advance (60_exceptions.md R224; log entry 10). -/
def runBlock (total : Nat) : Nat → State → State
  | 0, s => finishBlock total s
  | left + 1, s =>
      match s.port with
      | l :: r :: rest =>
          let t := { s with port := rest }
          emitThen (sampleOutputs l r t) (.sampleStep total left) (fun u => runBlock total left (advanceCursors u))
            (sampleWrites l r t)
      | [_] | [] => { s with busy := some (.input total (left + 1)) }

/-- Block start: the five words are taken and `BD` is latched (42_process_block.md R151). -/
def startBlock (s : State) : State :=
  { s with port := s.port.drop 5, bd := BitVec.ofNat 14 (baseDelay s.draw s.dt s.sr) }

/-- PROCESS_BLOCK `nli, nri, nlo, nro` (42_process_block.md R150). -/
def execProcessBlock (nli nri nlo nro : Nat) (s : State) : Result :=
  let n := blockFrames nli nri nlo nro
  runAlive s (runBlock n n (startBlock s))

/-! ## A command that waits -/

/-- What follows the response words that waited. -/
def goOn : After → State → State
  | .command length, s => { s with busy := none, cp := s.cp + length }
  | .sampleStep total left, s => runBlock total left (advanceCursors s)

/-- A command that waits goes on as far as the ports let it (60_exceptions.md R224). -/
def resumeBusy : Busy → State → State
  | .input total left, s => runBlock total left s
  | .output ws after, s => emitThen ws after (goOn after) s

end Sys2Proof.Machine
end

