-- ==== Sys2Proof/Machine/Dispatch.lean ====
section
/-!
DEFINITION. The meaning of each command, one arm per constructor of `Instr` (30_encoding.md R73).
-/

namespace Sys2Proof.Machine

def exec (i : Instr) (s : State) : Host.Outcome State Fault Refusal :=
  match i with
  | .create sr => Sys2Proof.Machine.execCreate sr s
  | .destroy => Sys2Proof.Machine.execDestroy s
  | .reset => Sys2Proof.Machine.execReset s
  | .setSampleRate hz => Sys2Proof.Machine.execSetSampleRate hz s
  | .setDelayTime ms => Sys2Proof.Machine.execSetDelayTime ms s
  | .setFeedback v => Sys2Proof.Machine.execSetFeedback v s
  | .setMix v => Sys2Proof.Machine.execSetMix v s
  | .setVoiceCount n => Sys2Proof.Machine.execSetVoiceCount n s
  | .getSampleRate => Sys2Proof.Machine.execGetSampleRate s
  | .getDelayTime => Sys2Proof.Machine.execGetDelayTime s
  | .getFeedback => Sys2Proof.Machine.execGetFeedback s
  | .getMix => Sys2Proof.Machine.execGetMix s
  | .getVoiceCount => Sys2Proof.Machine.execGetVoiceCount s
  | .getWriteCursor => Sys2Proof.Machine.execGetWriteCursor s
  | .processBlock nli nri nlo nro => Sys2Proof.Machine.execProcessBlock nli nri nlo nro s
  | .getWaveformSize => Sys2Proof.Machine.execGetWaveformSize s
  | .getWaveformIndex => Sys2Proof.Machine.execGetWaveformIndex s
  | .getVoiceWaveform k => Sys2Proof.Machine.execGetVoiceWaveform k s
  | .readVoiceRing k => Sys2Proof.Machine.execReadVoiceRing k s

end Sys2Proof.Machine
end

