-- ==== Sys2Proof/WellFormed.lean ====
section
/-!
DEFINITION. Which instructions and assembly lines can be written as words: a `U32` operand is below `2 ^ 32`, an `I32`
operand is in `[-2 ^ 31, 2 ^ 31)` (30_encoding.md R72), and IMPULSE needs `n >= 1` (R82). Every `F32` operand is any
32-bit pattern, so it needs no check.
-/

namespace Sys2Proof

/-- A natural number a `U32` operand word can carry (30_encoding.md R72). -/
abbrev isU32 (n : Nat) : Prop := n < 2 ^ 32

/-- An integer an `I32` operand word can carry (30_encoding.md R72). -/
abbrev isI32 (n : Int) : Prop := -2 ^ 31 ≤ n ∧ n < 2 ^ 31

/-- The operands of the command fit their operand words (30_encoding.md R72, R83). -/
def Instr.wellFormed : Instr → Bool
  | .setVoiceCount n => decide (isI32 n)
  | .processBlock nli nri nlo nro => decide (isU32 nli ∧ isU32 nri ∧ isU32 nlo ∧ isU32 nro)
  | .getVoiceWaveform k | .readVoiceRing k => decide (isU32 k)
  | .create _ | .destroy | .reset | .setSampleRate _ | .setDelayTime _ | .setFeedback _ | .setMix _
  | .getSampleRate | .getDelayTime | .getFeedback | .getMix | .getVoiceCount | .getWriteCursor
  | .getWaveformSize | .getWaveformIndex => true

/-- The line can be assembled (30_encoding.md R81, R82). -/
def Line.wellFormed : Line → Bool
  | .command i => i.wellFormed
  | .process n | .silence n => decide (isU32 n)
  | .impulse n => decide (1 ≤ n ∧ isU32 n)
  | .frame _ _ | .rawWord _ => true

end Sys2Proof
end

