-- ==== Sys2Proof/Decode.lean ====
section
/-!
DEFINITION. The command encoding (30_encoding.md R71 to R76): the decoder, total on any words and any bytes, which
rejects by name; the encoder, written from the same table; and the byte order of a byte-wide transport
(20_memory.md R57, R58).
-/

namespace Sys2Proof

/-! ## The opcode table -/

/-- The 19 assigned operations in the order of 30_encoding.md R73. -/
def opcodeList : List Opcode :=
  [.create, .destroy, .reset, .setSampleRate, .setDelayTime, .setFeedback, .setMix, .setVoiceCount] ++
  [.getSampleRate, .getDelayTime, .getFeedback, .getMix, .getVoiceCount, .getWriteCursor, .processBlock] ++
  [.getWaveformSize, .getWaveformIndex, .getVoiceWaveform, .readVoiceRing]

/-- The field `OPC` of each operation (30_encoding.md R73). -/
def opcodeBits : Opcode → BitVec 8
  | .create => 0x01
  | .destroy => 0x02
  | .reset => 0x03
  | .setSampleRate => 0x10
  | .setDelayTime => 0x11
  | .setFeedback => 0x12
  | .setMix => 0x13
  | .setVoiceCount => 0x14
  | .getSampleRate => 0x20
  | .getDelayTime => 0x21
  | .getFeedback => 0x22
  | .getMix => 0x23
  | .getVoiceCount => 0x24
  | .getWriteCursor => 0x25
  | .processBlock => 0x30
  | .getWaveformSize => 0x40
  | .getWaveformIndex => 0x41
  | .getVoiceWaveform => 0x42
  | .readVoiceRing => 0x43

/-- How many operand words follow the command word (30_encoding.md R73, column "ops"). -/
def operandCount : Opcode → Nat
  | .create | .setSampleRate | .setDelayTime | .setFeedback | .setMix | .setVoiceCount => 1
  | .getVoiceWaveform | .readVoiceRing => 1
  | .processBlock => 4
  | .destroy | .reset | .getSampleRate | .getDelayTime | .getFeedback | .getMix | .getVoiceCount => 0
  | .getWriteCursor | .getWaveformSize | .getWaveformIndex => 0

/-- The field `OPC = w[7:0]` of a command word (30_encoding.md R71). -/
def opcField (w : Word) : BitVec 8 := w.extractLsb' 0 8

/-- The field `RSVD = w[31:8]` of a command word (30_encoding.md R71). -/
def rsvdField (w : Word) : BitVec 24 := w.extractLsb' 8 24

/-! ## Decoding -/

/-- Why no command can be read at the head of the port. -/
inductive DecodeError where
  /-- The port is empty: the block waits for a command word (60_exceptions.md R224, R234). -/
  | noCommandWord
  /-- `RSVD != 0`: an illegal word (30_encoding.md R74). -/
  | reservedBitsSet
  /-- `RSVD = 0` and `OPC` unassigned: an illegal word (30_encoding.md R74). -/
  | unassignedOpcode
  /-- The command word is legal and not all of its operand words have arrived (60_exceptions.md R224). -/
  | operandsMissing (op : Opcode)
  deriving DecidableEq, Repr

/-- Reads one word in command position (30_encoding.md R74). -/
def decodeWord (w : Word) : Except DecodeError Opcode :=
  if rsvdField w = 0 then
    match opcodeList.find? (fun op => opcodeBits op == opcField w) with
    | some op => .ok op
    | none => .error .unassignedOpcode
  else .error .reservedBitsSet

/-- Reads the operand words of an operation, each used whole (30_encoding.md R72, R83), and returns the words after
them; `none` when fewer words are there than the operation takes. -/
def decodeOperands : Opcode → List Word → Option (Instr × List Word)
  | .create, sr :: rest => some (.create sr, rest)
  | .setSampleRate, hz :: rest => some (.setSampleRate hz, rest)
  | .setDelayTime, ms :: rest => some (.setDelayTime ms, rest)
  | .setFeedback, v :: rest => some (.setFeedback v, rest)
  | .setMix, v :: rest => some (.setMix v, rest)
  | .setVoiceCount, n :: rest => some (.setVoiceCount n.toInt, rest)
  | .getVoiceWaveform, k :: rest => some (.getVoiceWaveform k.toNat, rest)
  | .readVoiceRing, k :: rest => some (.readVoiceRing k.toNat, rest)
  | .processBlock, nli :: nri :: nlo :: nro :: rest =>
      some (.processBlock nli.toNat nri.toNat nlo.toNat nro.toNat, rest)
  | .destroy, rest => some (.destroy, rest)
  | .reset, rest => some (.reset, rest)
  | .getSampleRate, rest => some (.getSampleRate, rest)
  | .getDelayTime, rest => some (.getDelayTime, rest)
  | .getFeedback, rest => some (.getFeedback, rest)
  | .getMix, rest => some (.getMix, rest)
  | .getVoiceCount, rest => some (.getVoiceCount, rest)
  | .getWriteCursor, rest => some (.getWriteCursor, rest)
  | .getWaveformSize, rest => some (.getWaveformSize, rest)
  | .getWaveformIndex, rest => some (.getWaveformIndex, rest)
  | .create, [] | .setSampleRate, [] | .setDelayTime, [] | .setFeedback, [] | .setMix, [] => none
  | .setVoiceCount, [] | .getVoiceWaveform, [] | .readVoiceRing, [] => none
  | .processBlock, [] | .processBlock, [_] | .processBlock, [_, _] | .processBlock, [_, _, _] => none

/-- Reads the command at the head of a word stream and the words after its operands. The order of the tests is that of
60_exceptions.md R225: legality first, operands last (the test of `ALIVE` between them is the machine's). -/
def decode : List Word → Except DecodeError (Instr × List Word)
  | [] => .error .noCommandWord
  | w :: rest =>
      match decodeWord w with
      | .error e => .error e
      | .ok op =>
          match decodeOperands op rest with
          | some r => .ok r
          | none => .error (.operandsMissing op)

/-! ## Encoding -/

/-- The operation of a command (30_encoding.md R73). -/
def Instr.opcode : Instr → Opcode
  | .create _ => .create
  | .destroy => .destroy
  | .reset => .reset
  | .setSampleRate _ => .setSampleRate
  | .setDelayTime _ => .setDelayTime
  | .setFeedback _ => .setFeedback
  | .setMix _ => .setMix
  | .setVoiceCount _ => .setVoiceCount
  | .getSampleRate => .getSampleRate
  | .getDelayTime => .getDelayTime
  | .getFeedback => .getFeedback
  | .getMix => .getMix
  | .getVoiceCount => .getVoiceCount
  | .getWriteCursor => .getWriteCursor
  | .processBlock _ _ _ _ => .processBlock
  | .getWaveformSize => .getWaveformSize
  | .getWaveformIndex => .getWaveformIndex
  | .getVoiceWaveform _ => .getVoiceWaveform
  | .readVoiceRing _ => .readVoiceRing

/-- The operand words of a command, in order (30_encoding.md R73, R83). -/
def Instr.operandWords : Instr → List Word
  | .create sr => [sr]
  | .setSampleRate hz => [hz]
  | .setDelayTime ms => [ms]
  | .setFeedback v | .setMix v => [v]
  | .setVoiceCount n => [BitVec.ofInt 32 n]
  | .processBlock nli nri nlo nro =>
      [BitVec.ofNat 32 nli, BitVec.ofNat 32 nri, BitVec.ofNat 32 nlo, BitVec.ofNat 32 nro]
  | .getVoiceWaveform k | .readVoiceRing k => [BitVec.ofNat 32 k]
  | .destroy | .reset | .getSampleRate | .getDelayTime | .getFeedback | .getMix | .getVoiceCount => []
  | .getWriteCursor | .getWaveformSize | .getWaveformIndex => []

/-- The command word of an operation, `zext_32(OPC)` (30_encoding.md R71, R81). -/
def commandWord (op : Opcode) : Word := (opcodeBits op).setWidth 32

/-- The words of a command without its input frames (30_encoding.md R70, R81). -/
def encode (i : Instr) : List Word := commandWord i.opcode :: i.operandWords

/-- The length in words of a command without its input frames, `1 + ops` (30_encoding.md R78). -/
def Instr.length (i : Instr) : Nat := 1 + operandCount i.opcode

/-! ## Byte transport -/

/-- The word four bytes of a byte-wide transport carry, least significant byte first (20_memory.md R57). -/
def wordOfBytes (b0 b1 b2 b3 : Byte) : Word := b3 ++ b2 ++ b1 ++ b0

/-- The bytes that carry a word, least significant byte first (20_memory.md R57). -/
def bytesOfWord (w : Word) : List Byte :=
  [w.extractLsb' 0 8, w.extractLsb' 8 8, w.extractLsb' 16 8, w.extractLsb' 24 8]

/-- The whole words a byte stream carries, and the bytes of a partial word at its end, which are no word yet
(20_memory.md R58). -/
def wordsOfBytes : List Byte → List Word × List Byte
  | b0 :: b1 :: b2 :: b3 :: rest =>
      let r := wordsOfBytes rest
      (wordOfBytes b0 b1 b2 b3 :: r.1, r.2)
  | partialWord => ([], partialWord)

/-- The bytes of a word stream (20_memory.md R57). -/
def bytesOfWords (ws : List Word) : List Byte := ws.flatMap bytesOfWord

/-- Reads the command at the head of a byte stream; total on any bytes. -/
def decodeBytes (bs : List Byte) : Except DecodeError (Instr × List Word) := decode (wordsOfBytes bs).1

/-! ## The host's words -/

/-- The first five words of an instruction whose bits are `w`, numbered as `opcode_table.json` numbers them, every bit
above `nbits` zero. Five words are the longest command without input frames (PROCESS_BLOCK, 30_encoding.md R78); with
all its operand bits zero it takes no frame. -/
def tableWords (nbits w : Nat) : List Word :=
  let bits := w % 2 ^ nbits
  [BitVec.ofNat 32 bits, BitVec.ofNat 32 (bits / 2 ^ 32), BitVec.ofNat 32 (bits / 2 ^ 64)] ++
  [BitVec.ofNat 32 (bits / 2 ^ 96), BitVec.ofNat 32 (bits / 2 ^ 128)]

/-- The instruction the decoder reads from an instruction whose bits are `w`. -/
def decodeTableWord (nbits w : Nat) : Option Instr :=
  match decode (tableWords nbits w) with
  | .ok r => some r.1
  | .error _ => none

end Sys2Proof
end

