-- ==== Sys2Proof/Machine/Flags.lean ====
section
/-!
DEFINITION. The block has no status flag, condition code or predicate (10_state.md R21). Its two marks are `ALIVE` and
`FAULTED` (R30, R32); this file says which commands the decode check of `ALIVE` applies to.
-/

namespace Sys2Proof.Machine

/-- The commands that need an instance: every one but CREATE and GET_WAVEFORM_SIZE (60_exceptions.md R222). -/
def needsInstance : Opcode → Bool
  | .create | .getWaveformSize => false
  | .destroy | .reset | .setSampleRate | .setDelayTime | .setFeedback | .setMix | .setVoiceCount => true
  | .getSampleRate | .getDelayTime | .getFeedback | .getMix | .getVoiceCount | .getWriteCursor => true
  | .processBlock | .getWaveformIndex | .getVoiceWaveform | .readVoiceRing => true

end Sys2Proof.Machine
end

