-- ==== Sys2Proof/Machine/Fetch.lean ====
section
/-!
DEFINITION. What the block does next: it resumes a command that waits, or reads the head of the command port
(30_encoding.md R70, R75; 60_exceptions.md R224, R225).
-/

namespace Sys2Proof.Machine

/-- What the block does next. -/
inductive Fetched where
  /-- `FAULTED = 1`: no command gets a step (60_exceptions.md R221). -/
  | stuck
  /-- A command waits for input words or for room on the response port, and no other command is decoded
  (42_process_block.md R160, 20_memory.md R61). -/
  | resume (b : Busy)
  /-- No command word, or not all operand words, have arrived: the block waits (60_exceptions.md R224, R234). -/
  | wait
  /-- An illegal word in command position (30_encoding.md R75). -/
  | illegal
  /-- A legal command word that needs an instance, with `ALIVE = 0` and its operand words not all there: the check is
  made before any operand is taken (60_exceptions.md R222, R225). -/
  | noInstance
  /-- A command with its operands; the command makes the check of `ALIVE` itself. -/
  | run (i : Instr)
  deriving DecidableEq, Repr

/-- What the block does next, in the order of 60_exceptions.md R225. -/
def fetch (s : State) : Fetched :=
  if s.faulted then .stuck
  else
    match s.busy with
    | some b => .resume b
    | none =>
        match decode s.port with
        | .ok r => .run r.1
        | .error .noCommandWord => .wait
        | .error .reservedBitsSet => .illegal
        | .error .unassignedOpcode => .illegal
        | .error (.operandsMissing op) => if needsInstance op && !s.alive then .noInstance else .wait

/-- The words of one instruction put where the next step fetches: the head of an empty command port, with no command
waiting. It stands for the host sending them (log entry 16). -/
def placeWords (ws : List Word) (s : State) : State := { s with port := ws, busy := none }

end Sys2Proof.Machine
end

