-- ==== Sys2Proof/Machine/Step.lean ====
section
/-!
DEFINITION. One step of the block (20_memory.md R61, 60_exceptions.md R224, R225).
-/

namespace Sys2Proof.Machine

/-- One step. A wait is a step that changes nothing: "Waiting for a command word or an input word (rule R224) keeps every
register and memory unchanged" (60_exceptions.md R234; log entry 8). -/
def step (s : State) : Host.Outcome State Fault Refusal :=
  match fetch s with
  | .stuck => .fault .stuckAfterFault
  | .resume b => .next (resumeBusy b s)
  | .wait => .next s
  | .illegal => .next (skipIllegal s)
  | .noInstance => .next (raiseFault Config.faultNoInstance s)
  | .run i => exec i s

/-- `s` with the instruction whose bits are `w` on the command port, so that the next step runs it (log entry 16). -/
def State.withFetchWord (s : State) (nbits w : Nat) : State := placeWords (tableWords nbits w) s

end Sys2Proof.Machine
end

