-- ==== Sys2Proof/Machine/Adaptor.lean ====
section
/-!
DEFINITION. The host adaptor (44_lifecycle_and_host.md R202 to R206): which command words each call of KDV section 6
sends to the block, and what it returns. The adaptor is outside the block; its rules bind the host (log entry 21). A
handle is `true` when it is not null and names this block; a buffer pointer is `true` or `some` when it is not null.
-/

namespace Sys2Proof.Machine

/-- A call of KDV section 6 (44_lifecycle_and_host.md R202). -/
inductive HostCall where
  | create (sr : F32)
  | destroy (h : Bool)
  | setSampleRate (h : Bool) (v : F32)
  | setDelayTime (h : Bool) (v : F32)
  | setFeedback (h : Bool) (v : F32)
  | setMix (h : Bool) (v : F32)
  | setVoiceCount (h : Bool) (n : Int)
  | process (h : Bool) (li ri : Option (List F32)) (lo ro : Bool) (count : Nat)
  | processSlices (h : Bool) (li ri : List F32) (loLen roLen : Nat)
  | reset (h : Bool)
  | getVoiceCount (h : Bool)
  | getWaveformSize
  | getVoiceWaveform (h : Bool) (k : Nat) (out : Bool)
  deriving DecidableEq, Repr

/-- What a call returns to its caller (44_lifecycle_and_host.md R202). -/
inductive HostReturn where
  | nothing
  | handle
  | word (w : Word)
  | outputs (lo ro : List F32)
  | samples (out : List F32)
  deriving DecidableEq, Repr

/-- A count as the `U32` operand word carries it: the low 32 bits. The spec gives the adaptor's arguments no width; that a
count of `2 ^ 32` or more is cut, for the operands and for the frames sent alike, is the model's choice (log entry 21). -/
def asU32 (n : Nat) : Nat := n % 2 ^ 32

/-- The words of the first `n` frames of two input buffers, left then right (42_process_block.md R150). -/
def framesOf (n : Nat) (li ri : List F32) : List Word := ((li.zip ri).take n).flatMap fun f => [f.1, f.2]

/-- One command, sent only when the handle is not null (44_lifecycle_and_host.md R203). -/
def sendIf (h : Bool) (i : Instr) : List Word := if h then encode i else []

/-- The words a call sends to this block, whose `ALIVE` is `alive` (44_lifecycle_and_host.md R202 to R204). CREATE goes "to a
block with `ALIVE = 0`" only: when this block has an instance, the adaptor takes another block and sends this one
nothing. A voice count or index outside its operand word is sent as its low 32 bits (log entry 21). -/
def adaptorWords (alive : Bool) : HostCall → List Word
  | .create sr => if alive then [] else encode (.create sr)
  | .destroy h => sendIf h .destroy
  | .setSampleRate h v => sendIf h (.setSampleRate v)
  | .setDelayTime h v => sendIf h (.setDelayTime v)
  | .setFeedback h v => sendIf h (.setFeedback v)
  | .setMix h v => sendIf h (.setMix v)
  | .setVoiceCount h n => sendIf h (.setVoiceCount n)
  | .process h (some li) (some ri) true true count =>
      if h then
        encode (.processBlock (asU32 count) (asU32 count) (asU32 count) (asU32 count)) ++ framesOf (asU32 count) li ri
      else []
  | .process _ _ _ _ _ _ => []
  | .processSlices h li ri loLen roLen =>
      if h then
        encode (.processBlock (asU32 li.length) (asU32 ri.length) (asU32 loLen) (asU32 roLen)) ++
          framesOf (blockFrames (asU32 li.length) (asU32 ri.length) (asU32 loLen) (asU32 roLen)) li ri
      else []
  | .reset h => sendIf h .reset
  | .getVoiceCount h => sendIf h .getVoiceCount
  | .getWaveformSize => encode .getWaveformSize
  | .getVoiceWaveform h k out => sendIf (h && out) (.getVoiceWaveform k)

/-- The left and right output buffers an interleaved response stream fills (42_process_block.md R150). -/
def deinterleave : List Word → List F32 × List F32
  | l :: r :: rest =>
      let o := deinterleave rest
      (l :: o.1, r :: o.2)
  | [_] | [] => ([], [])

/-- What a call returns, from the response words to its command (44_lifecycle_and_host.md R202, R203). Where the rules leave
the return open it is the model's choice (log entry 21): when the block answers no word, because the command faults on a
destroyed instance (R207) or the block is stuck after a fault (60_exceptions.md R221), `get_voice_count` and
`get_waveform_size` return 0, and `process` and `get_voice_waveform` return the words there are, none; a null buffer
returns nothing; and `get_voice_waveform` with a null handle, which R203 does not list, returns nothing and leaves `out`
unwritten. -/
def adaptorReturn : HostCall → List Word → HostReturn
  | .create _, _ => .handle
  | .process true (some _) (some _) true true _, resp => .outputs (deinterleave resp).1 (deinterleave resp).2
  | .process _ _ _ _ _ _, _ => .nothing
  | .processSlices true _ _ _ _, resp => .outputs (deinterleave resp).1 (deinterleave resp).2
  | .processSlices false _ _ _ _, _ => .nothing
  | .getVoiceCount true, resp => .word (resp.headD 0)
  | .getVoiceCount false, _ => .word 0
  | .getWaveformSize, resp => .word (resp.headD 0)
  | .getVoiceWaveform true _ true, resp => .samples resp
  | .getVoiceWaveform _ _ _, _ => .nothing
  | .destroy _, _ | .setSampleRate _ _, _ | .setDelayTime _ _, _ | .setFeedback _ _, _ | .setMix _ _, _ => .nothing
  | .setVoiceCount _ _, _ | .reset _, _ => .nothing

/-! ## In-place processing -/

/-- The state after a step, or the same state when the step stops. -/
def afterStep (s : State) : State :=
  match step s with
  | .next t => t
  | .fault _ => s
  | .refused _ => s

/-- The host takes the next response word, after one step of the block when none is there; `none` when there is still
none. -/
def takeWord (s : State) : Option Word × State :=
  match s.resp with
  | w :: _ => (some w, s.drain 1)
  | [] =>
      let t := afterStep s
      (t.resp.head?, t.drain 1)

/-- The host takes the next `n` response words, or as many as come. -/
def takeWords : Nat → State → List Word × State
  | 0, s => ([], s)
  | n + 1, s =>
      match takeWord s with
      | (none, t) => ([], t)
      | (some w, t) =>
          let r := takeWords n t
          (w :: r.1, r.2)

/-- In-place processing of the frames `i, ..., i + n - 1` of one buffer of stereo frames (44_lifecycle_and_host.md R206):
the adaptor sends input frame `i`, takes its two response words and writes output frame `i` over the input, and only then
goes on to frame `i + 1`. -/
def processInPlace : Nat → Nat → List (F32 × F32) → State → List (F32 × F32) × State
  | 0, _, buf, s => (buf, s)
  | n + 1, i, buf, s =>
      match buf[i]? with
      | none => (buf, s)
      | some f =>
          match takeWords 2 (s.send [f.1, f.2]) with
          | ([lout, rout], t) => processInPlace n (i + 1) (buf.set i (lout, rout)) t
          | (_, t) => (buf, t)

end Sys2Proof.Machine
end

