-- ==== Sys2Proof/Machine/Assembler.lean ====
section
/-!
DEFINITION. The spec's assembler (30_encoding.md R81, R82): what words a line stands for, and the text of a line. Text is
a list of characters.
-/

namespace Sys2Proof.Machine

/-! ## Words of a line -/

/-- The word of an `F32` operand (30_encoding.md R81). -/
def f32OfLiteral : F32Literal → F32
  | .decimal negative digits places => f32OfDecimal negative digits places
  | .bits w => w

/-- The two words of an input frame, left then right (30_encoding.md R81). -/
def frameWords (l r : F32) : List Word := [l, r]

/-- `n` zero frames. -/
def silentFrames (n : Nat) : List Word := (List.replicate n (frameWords 0 0)).flatten

/-- The words a line assembles to (30_encoding.md R81, R82). IMPULSE is `PROCESS_BLOCK n, n, n, n`, a frame of 1.0 and
`n - 1` zero frames; the ill-formed `impulse 0`, which no text reads as, has no meaning in R82, and the words this gives
for it are the model's choice (log entry 22). -/
def assembleLine : Line → List Word
  | .command i => encode i
  | .frame l r => frameWords (f32OfLiteral l) (f32OfLiteral r)
  | .process n => encode (.processBlock n n n n)
  | .silence n => encode (.processBlock n n n n) ++ silentFrames n
  | .impulse n => encode (.processBlock n n n n) ++ frameWords Config.one Config.one ++ silentFrames (n - 1)
  | .rawWord w => [w]

/-- The words of a program, line by line. -/
def assemble (lines : List Line) : List Word := lines.flatMap assembleLine

/-! ## Text of a line -/

/-- The mnemonic of each operation (30_encoding.md R73). -/
def mnemonic : Opcode → String
  | .create => "CREATE"
  | .destroy => "DESTROY"
  | .reset => "RESET"
  | .setSampleRate => "SET_SAMPLE_RATE"
  | .setDelayTime => "SET_DELAY_TIME"
  | .setFeedback => "SET_FEEDBACK"
  | .setMix => "SET_MIX"
  | .setVoiceCount => "SET_VOICE_COUNT"
  | .getSampleRate => "GET_SAMPLE_RATE"
  | .getDelayTime => "GET_DELAY_TIME"
  | .getFeedback => "GET_FEEDBACK"
  | .getMix => "GET_MIX"
  | .getVoiceCount => "GET_VOICE_COUNT"
  | .getWriteCursor => "GET_WRITE_CURSOR"
  | .processBlock => "PROCESS_BLOCK"
  | .getWaveformSize => "GET_WAVEFORM_SIZE"
  | .getWaveformIndex => "GET_WAVEFORM_INDEX"
  | .getVoiceWaveform => "GET_VOICE_WAVEFORM"
  | .readVoiceRing => "READ_VOICE_RING"

/-- A decimal digit. -/
def decDigit (c : Char) : Option Nat :=
  if '0'.toNat ≤ c.toNat ∧ c.toNat ≤ '9'.toNat then some (c.toNat - '0'.toNat) else none

/-- A hexadecimal digit of either case. -/
def hexDigit (c : Char) : Option Nat :=
  if 'A'.toNat ≤ c.toNat ∧ c.toNat ≤ 'F'.toNat then some (c.toNat - 'A'.toNat + 10)
  else if 'a'.toNat ≤ c.toNat ∧ c.toNat ≤ 'f'.toNat then some (c.toNat - 'a'.toNat + 10)
  else decDigit c

/-- The number a nonempty list of digits denotes. -/
def digitsValue (base : Nat) (digit : Char → Option Nat) (cs : List Char) : Option Nat :=
  if cs.isEmpty then none
  else cs.foldl (fun acc c => acc.bind fun n => (digit c).map fun d => base * n + d) (some 0)

/-- An unsigned number, decimal or `0x...` (30_encoding.md R81). -/
def parseNat : List Char → Option Nat
  | '0' :: 'x' :: cs => digitsValue 16 hexDigit cs
  | cs => digitsValue 10 decDigit cs

/-- A `U32` operand (30_encoding.md R81). -/
def parseU32 (cs : List Char) : Option Nat := (parseNat cs).filter fun n => decide (isU32 n)

/-- An `I32` operand: a signed decimal number, or `0x...` read as its 32-bit two's complement pattern
(30_encoding.md R72, R81). A sign before `0x...` is refused (log entry 22). -/
def parseI32 : List Char → Option Int
  | '0' :: 'x' :: cs => (parseU32 ('0' :: 'x' :: cs)).map fun n => (BitVec.ofNat 32 n).toInt
  | '-' :: cs => ((digitsValue 10 decDigit cs).map fun n => -(n : Int)).filter fun n => decide (isI32 n)
  | cs => ((digitsValue 10 decDigit cs).map fun n => (n : Int)).filter fun n => decide (isI32 n)

/-- A decimal literal without its sign: digits, or digits, a point and digits. A point without digits on both sides is
refused (log entry 22). -/
def parseDecimal (negative : Bool) (cs : List Char) : Option F32Literal :=
  let whole := cs.takeWhile (· != '.')
  match cs.dropWhile (· != '.') with
  | [] => (digitsValue 10 decDigit whole).map fun n => .decimal negative n 0
  | _ :: places =>
      if whole.isEmpty || places.isEmpty then none
      else (digitsValue 10 decDigit (whole ++ places)).map fun n => .decimal negative n places.length

/-- An `F32` operand: a decimal literal or a bit pattern `#0x...` (30_encoding.md R81). A `#` before anything but `0x...` is
refused (log entry 22). -/
def parseF32 : List Char → Option F32Literal
  | '#' :: '0' :: 'x' :: cs => (parseU32 ('0' :: 'x' :: cs)).map fun n => .bits (BitVec.ofNat 32 n)
  | '#' :: _ => none
  | '-' :: cs => parseDecimal true cs
  | cs => parseDecimal false cs

/-- The parts of a line: a comment from `;` on is dropped, and spaces and commas separate (30_encoding.md R81). -/
def lineParts (cs : List Char) : List (List Char) :=
  ((cs.takeWhile (· != ';')).splitOnP fun c => c == ' ' || c == ',').filter fun p => !p.isEmpty

/-- A command of one `F32` operand. -/
def parseFloatCommand (make : F32 → Instr) : List (List Char) → Option Line
  | [v] => (parseF32 v).map fun x => .command (make (f32OfLiteral x))
  | _ => none

/-- A command or pseudo-command of one `U32` operand. -/
def parseCountCommand (make : Nat → Line) : List (List Char) → Option Line
  | [n] => (parseU32 n).map make
  | _ => none

/-- A command without operands. -/
def parsePlainCommand (i : Instr) : List (List Char) → Option Line
  | [] => some (.command i)
  | _ => none

/-- The operands of a command (30_encoding.md R83). -/
def parseOperands : Opcode → List (List Char) → Option Line
  | .create, ps => parseFloatCommand .create ps
  | .setSampleRate, ps => parseFloatCommand .setSampleRate ps
  | .setDelayTime, ps => parseFloatCommand .setDelayTime ps
  | .setFeedback, ps => parseFloatCommand .setFeedback ps
  | .setMix, ps => parseFloatCommand .setMix ps
  | .setVoiceCount, ps =>
      match ps with
      | [n] => (parseI32 n).map fun x => .command (.setVoiceCount x)
      | _ => none
  | .getVoiceWaveform, ps => parseCountCommand (fun k => .command (.getVoiceWaveform k)) ps
  | .readVoiceRing, ps => parseCountCommand (fun k => .command (.readVoiceRing k)) ps
  | .processBlock, ps =>
      match ps.map parseU32 with
      | [some a, some b, some c, some d] => some (.command (.processBlock a b c d))
      | _ => none
  | .destroy, ps => parsePlainCommand .destroy ps
  | .reset, ps => parsePlainCommand .reset ps
  | .getSampleRate, ps => parsePlainCommand .getSampleRate ps
  | .getDelayTime, ps => parsePlainCommand .getDelayTime ps
  | .getFeedback, ps => parsePlainCommand .getFeedback ps
  | .getMix, ps => parsePlainCommand .getMix ps
  | .getVoiceCount, ps => parsePlainCommand .getVoiceCount ps
  | .getWriteCursor, ps => parsePlainCommand .getWriteCursor ps
  | .getWaveformSize, ps => parsePlainCommand .getWaveformSize ps
  | .getWaveformIndex, ps => parsePlainCommand .getWaveformIndex ps

/-- A frame line, a pseudo-command or a raw word (30_encoding.md R81, R82). R82 requires `n >= 1` of IMPULSE and does not say
what the assembler does otherwise: that IMPULSE 0 is refused is the model's choice (log entry 22). -/
def parseDirective (name : List Char) (ps : List (List Char)) : Option Line :=
  if name = "FRAME".toList then
    match ps.map parseF32 with
    | [some l, some r] => some (.frame l r)
    | _ => none
  else if name = "PROCESS".toList then parseCountCommand .process ps
  else if name = "SILENCE".toList then parseCountCommand .silence ps
  else if name = "IMPULSE".toList then (parseCountCommand .impulse ps).filter Line.wellFormed
  else if name = ".word".toList then parseCountCommand (fun n => .rawWord (BitVec.ofNat 32 n)) ps
  else none

/-- Reads one line; a line with nothing but spaces and a comment has no parts and stands for nothing. -/
def parseLine (cs : List Char) : Option (Option Line) :=
  match lineParts cs with
  | [] => some none
  | name :: ps =>
      match opcodeList.find? fun op => (mnemonic op).toList == name with
      | some op => (parseOperands op ps).map some
      | none => (parseDirective name ps).map some

end Sys2Proof.Machine
end

