-- ==== Sys2Proof/Safety.lean ====
section
/-!
DEFINITION. The terms claims are stated in: the ranges every state of a run keeps (10_state.md R39), the states the block
can power on in (R38), the states a run reaches, and the real value of a pattern.
-/

namespace Sys2Proof.Machine

/-- What waits: a block has an instance and its counts fit `n < 2 ^ 32` (42_process_block.md R150), words that wait are there,
and a command that answers is one or two words long. GET_WAVEFORM_SIZE can wait without an instance. -/
def Busy.Legal (alive : Bool) : Busy → Prop
  | .input total left => alive = true ∧ 0 < left ∧ left ≤ total ∧ total < 2 ^ 32
  | .output ws (.sampleStep total left) => ws ≠ [] ∧ alive = true ∧ left < total ∧ total < 2 ^ 32
  | .output ws (.command length) => ws ≠ [] ∧ 1 ≤ length ∧ length ≤ 2

/-- The ranges of 10_state.md R23 to R29 and the canonical form of both memories: all that a sample step needs. -/
structure State.InRange (s : State) : Prop where
  ringLen_pos : 1 ≤ s.ringLen
  dt_range : inRange Config.delayTimeMax s.dt = true
  fb_range : inRange Config.one s.fb = true
  mx_range : inRange Config.one s.mx = true
  vc_range : 1 ≤ s.vc.toNat ∧ s.vc.toNat ≤ 16
  bd_range : 1 ≤ s.bd.toNat ∧ s.bd.toNat ≤ 11999
  wc_range : s.wc.toNat < 192000
  wi_range : s.wi < s.ringLen
  dm_wf : Memory.wf 192000 s.dm = true
  wm_wf : Memory.wf (16 * s.ringLen) s.wm = true

/-- What every state of a run keeps: the ranges, and what the fault record and a waiting command say of the rest of the
state (10_state.md R32, R39; 60_exceptions.md R221, R224; 42_process_block.md R160). A response port holds at least one
word, and never more than its capacity (44_lifecycle_and_host.md R209 (c); log entry 10). -/
structure State.Inv (s : State) : Prop extends s.InRange where
  fault_code : s.faultInfo.code = if s.faulted then 1 else 0
  fault_position : s.faulted = true → s.faultInfo.position + 1 = s.cp
  fault_released : s.faulted = true → s.alive = false
  busy_legal : ∀ b, s.busy = some b → b.Legal s.alive
  resp_room : ∀ c, s.respCap = some c → 1 ≤ c ∧ s.resp.length ≤ c

/-- A state the block can power on in (10_state.md R38, 70_reset_and_hazards.md R240): what the rules give, and any value
in range where they say "unspecified". `State.reset` is one of them. -/
structure State.PowerOn (s : State) : Prop where
  not_alive : s.alive = false
  not_faulted : s.faulted = false
  cp_zero : s.cp = 0
  port_empty : s.port = []
  resp_empty : s.resp = []
  idle : s.busy = none
  inv : s.Inv

/-- The states a run reaches: from any power-on state, by steps of the block, words the host sends and responses it
takes. -/
inductive Reachable : State → Prop where
  | powerOn (s : State) (h : s.PowerOn) : Reachable s
  | step (s t : State) (h : Reachable s) (e : step s = .next t) : Reachable t
  | send (s : State) (ws : List Word) (h : Reachable s) : Reachable (s.send ws)
  | drain (s : State) (k : Nat) (h : Reachable s) : Reachable (s.drain k)

/-- The response port has room for `k` more words: an `emit` of that many does not wait (log entry 10). -/
def State.hasRoom (s : State) (k : Nat) : Prop := ∀ c, s.respCap = some c → k ≤ c - s.resp.length

/-- The words of input frames on the command port, `L_0, R_0, L_1, R_1, ...` (42_process_block.md R150). -/
def portOfFrames (fs : List (F32 × F32)) : List Word := fs.flatMap fun f => [f.1, f.2]

/-- The sample steps of a list of input frames, in order and without a wait (42_process_block.md R150, R152). -/
def runFrames (fs : List (F32 × F32)) (s : State) : State := fs.foldl (fun u f => sampleStep f.1 f.2 u) s

/-- `x` is the binary32 value nearest to the real number of `num / den` units of `2 ^ -149`, ties to even: no finite value is
nearer, and when another one is as near, `x` is the one with the even significand (00_scope.md R16). -/
def NearestEven (x : F32) (num : Int) (den : Nat) : Prop :=
  isFinite x = true ∧ ∀ z : F32, isFinite z = true →
    |units x * den - num| ≤ |units z * den - num| ∧
    (|units x * den - num| = |units z * den - num| → units z ≠ units x → x.getLsbD 0 = false)

/-- The least magnitude, in units of `2 ^ -149`, that rounds to an infinity: half a unit in the last place above the
largest finite value. -/
def overflowUnits : Nat := (2 ^ 25 - 1) * 2 ^ 252

/-- `x` is `num / den` units of `2 ^ -149` rounded to binary32: the nearest value, or the infinity of the sign of `num` when
the magnitude rounds above the largest finite value (00_scope.md R16). -/
def CorrectlyRounded (x : F32) (num : Int) (den : Nat) : Prop :=
  if num.natAbs < overflowUnits * den then NearestEven x num den
  else isInf x = true ∧ f32Neg x = decide (num < 0)

/-- A run of `k` steps from `s` that meets no fault and no refusal and ends in `t`. -/
def runsTo (k : Nat) (s t : State) : Prop := Host.Core.run core k s = .next t

end Sys2Proof.Machine
end

