-- ==== Sys2Proof/Certificates/Slice0/Obligations.lean ====
section
/-!
DEFINITION. The statements for the provers, one `def Obligations.<Name> : Prop` each, with the rule of spec/ each follows.
-/

open Sys2Proof Sys2Proof.Machine

namespace Sys2Proof.Claims

/-- The 19 legal command words (30_encoding.md R73, R74). -/
def legalWords : List Word :=
  [0x00000001, 0x00000002, 0x00000003, 0x00000010, 0x00000011, 0x00000012, 0x00000013, 0x00000014] ++
  [0x00000020, 0x00000021, 0x00000022, 0x00000023, 0x00000024, 0x00000025, 0x00000030] ++
  [0x00000040, 0x00000041, 0x00000042, 0x00000043]

/-- The 19 assigned values of `OPC` (30_encoding.md R73). -/
def legalOpcs : List (BitVec 8) :=
  [0x01, 0x02, 0x03, 0x10, 0x11, 0x12, 0x13, 0x14] ++ [0x20, 0x21, 0x22, 0x23, 0x24, 0x25, 0x30] ++
  [0x40, 0x41, 0x42, 0x43]

/-- The length in words of a legal command (30_encoding.md R78). -/
def commandLength : Instr → Nat
  | .destroy | .reset | .getSampleRate | .getDelayTime | .getFeedback | .getMix | .getVoiceCount => 1
  | .getWriteCursor | .getWaveformSize | .getWaveformIndex => 1
  | .create _ | .setSampleRate _ | .setDelayTime _ | .setFeedback _ | .setMix _ | .setVoiceCount _ => 2
  | .getVoiceWaveform _ | .readVoiceRing _ => 2
  | .processBlock nli nri nlo nro => 5 + 2 * min (min nli nri) (min nlo nro)

/-- The commands legal without an instance (60_exceptions.md R222). -/
def legalWithoutInstance : Instr → Prop
  | .create _ | .getWaveformSize => True
  | _ => False

/-- What raising FAULT_NO_INSTANCE leaves (60_exceptions.md R221, R224; 30_encoding.md R78). -/
def noInstanceState (s : State) : State :=
  { s with faulted := true, faultInfo := ⟨1, s.cp⟩, port := s.port.drop 1, cp := s.cp + 1 }

/-- `real(x)` above the integer `n`, in the units of `Machine.units` (`+inf` is above every integer). -/
def above (n : Int) (x : F32) : Prop := n * 2 ^ 149 < units x

/-- The index a tap reads: `WC - d`, plus the capacity when that is negative (20_memory.md R52). -/
def tapIndex (s : State) (t : Nat) : Nat :=
  let d := tapDelay t s.vc.toNat s.bd.toNat
  if d ≤ s.wc.toNat then s.wc.toNat - d else s.wc.toNat + 192000 - d

/-- The output of tap `t` (42_process_block.md R154). -/
def tapWord (s : State) (t : Nat) : F32 := memRead s.dm (tapIndex s t)

/-- The wet sum over all taps (42_process_block.md R155). -/
def wetSum (s : State) : F32 :=
  (List.range s.vc.toNat).foldl
    (fun wet t => f32Add s.draw wet (f32Mul s.draw (tapWord s t) (tapGain t s.vc.toNat))) 0

/-- The word the sample step on the frame `(l, r)` writes at the write cursor (42_process_block.md R153, R157). -/
def writtenWord (s : State) (l r : F32) : F32 :=
  f32Add s.draw (f32Mul s.draw 0x3F000000 (f32Add s.draw l r)) (f32Mul s.draw (tapWord s (s.vc.toNat - 1)) s.fb)

/-- The output of the channel whose input is `x` (42_process_block.md R158). -/
def channelOut (s : State) (x : F32) : F32 :=
  f32Add s.draw (f32Mul s.draw x (f32Sub s.draw 0x3F800000 s.mx)) (f32Mul s.draw (wetSum s) s.mx)

/-- The state in which a block begins, after its five words (42_process_block.md R151), with the words `ws` on the port. -/
def blockStart (s : State) (ws : List Word) : State :=
  { s with port := ws, bd := BitVec.ofNat 14 (baseDelay s.draw s.dt s.sr) }

/-- The command `i`, `k` words long, answers the words `ws` at `s` and changes nothing else. With room for all of them it is
done; otherwise those that have room go out and it waits with the rest, `cp` not yet advanced (30_encoding.md R77, R78;
60_exceptions.md R224; log entry 10). -/
def Answers (i : Instr) (k : Nat) (ws : List Word) (s : State) : Prop :=
  (s.hasRoom ws.length →
    exec i s = .next { s with resp := s.resp ++ ws, port := s.port.drop k, cp := s.cp + k }) ∧
  ∀ c, s.respCap = some c → c - s.resp.length < ws.length →
    exec i s = .next { s with
      resp := s.resp ++ ws.take (c - s.resp.length)
      port := s.port.drop k
      busy := some (.output (ws.drop (c - s.resp.length)) (.command k)) }

/-- The response words that wait for room. -/
def pending (s : State) : List Word :=
  match s.busy with
  | some (.output ws _) => ws
  | some (.input _ _) | none => []

/-- What waits is a PROCESS_BLOCK. -/
def inBlock : Option Busy → Prop
  | some (.input _ _) | some (.output _ (.sampleStep _ _)) => True
  | some (.output _ (.command _)) | none => False

/-- How far `cp` advances when the command that waits is done (30_encoding.md R78). -/
def waitingLength : Busy → Nat
  | .input total _ | .output _ (.sampleStep total _) => 5 + 2 * total
  | .output _ (.command length) => length

/-- The state as it would be if the host took every response word as it came: the words that wait have gone out, the command
has gone on, and no later `emit` waits (44_lifecycle_and_host.md R209 (c); log entry 10). -/
def unstalled (s : State) : State :=
  match s.busy with
  | some (.output ws after) => resumeBusy (.output ws after) { s with respCap := none }
  | some (.input _ _) | none => { s with respCap := none }

end Sys2Proof.Claims

open Sys2Proof.Claims

/-! ## Power-on, reset and the invariant -/

/-- In every power-on state the block has no instance and no fault, `cp = 0` (70_reset_and_hazards.md R240), and it waits for
its first command word. Derived: that a wait is a step, to the same state, is the model's choice (log entry 8). Whatever
is unspecified is arbitrary in `State.PowerOn`. -/
def Obligations.PowerOnIsIdle : Prop :=
  ∀ s : State, s.PowerOn → s.alive = false ∧ s.faulted = false ∧ s.cp = 0 ∧ step s = .next s

/-- The model's reset state is a power-on state, and so in range. Derived: the values where R38 says "unspecified" are the
model's choices (log entries 1, 2, 3, 4, 10, 15). -/
def Obligations.ResetIsAPowerOnState : Prop :=
  State.reset.PowerOn

/-- 10_state.md R39: every step keeps every register in its range, both memories canonical, the fault record and what waits
consistent, and the response port within its capacity (log entry 10), from every state in range. -/
def Obligations.EveryStepKeepsRanges : Prop :=
  ∀ s t : State, s.Inv → step s = .next t → t.Inv

/-- Every state a run reaches from any power-on state, for every `W`, is in range; the host's sends and takes included. -/
def Obligations.ReachableStatesAreInRange : Prop :=
  ∀ s : State, Reachable s → s.Inv

/-! ## Encoding -/

/-- Decoding the words of a well-formed command, whatever follows them, gives the command and what follows
(30_encoding.md R71 to R73). -/
def Obligations.DecodeAfterEncode : Prop :=
  ∀ (i : Instr) (rest : List Word), i.wellFormed = true → decode (encode i ++ rest) = .ok (i, rest)

/-- What is decoded is well formed, and its encoding is the words it was decoded from: no two words or operand patterns
share a meaning. -/
def Obligations.EncodeAfterDecode : Prop :=
  ∀ (ws rest : List Word) (i : Instr), decode ws = .ok (i, rest) → i.wellFormed = true ∧ ws = encode i ++ rest

/-- 30_encoding.md R74: a word is legal in command position if and only if `RSVD = 0` and `OPC` is assigned, which is so
of exactly 19 words. -/
def Obligations.NineteenLegalWords : Prop :=
  ∀ w : Word,
    ((∃ op, decodeWord w = .ok op) ↔ w.extractLsb' 8 24 = 0 ∧ w.extractLsb' 0 8 ∈ legalOpcs) ∧
    ((∃ op, decodeWord w = .ok op) ↔ w ∈ legalWords) ∧ legalWords.length = 19 ∧ legalWords.Nodup

/-- Some words written out from 30_encoding.md R71 to R74 decode to what they stand for. -/
def Obligations.SampleWordsDecode : Prop :=
  decode [0x00000001, 0x447A0000] = .ok (.create 0x447A0000, []) ∧
  decode [0x00000003, 0x00000025] = .ok (.reset, [0x00000025]) ∧
  decode [0x00000014, 0xFFFFFFFB] = .ok (.setVoiceCount (-5), []) ∧
  decode [0x00000030, 3, 2, 5, 4, 0x3F800000] = .ok (.processBlock 3 2 5 4, [0x3F800000]) ∧
  decode [0x00000042, 0xFFFFFFFF] = .ok (.getVoiceWaveform 4294967295, []) ∧
  decode [0x00000110] = .error .reservedBitsSet ∧
  decode [0x00000026] = .error .unassignedOpcode ∧
  decode [0x00000043] = .error (.operandsMissing .readVoiceRing)

/-- 20_memory.md R57 and R58: on a byte transport each word is sent least significant byte first; whole words are
recovered, and the bytes of a partial word are left waiting. -/
def Obligations.BytesCarryWordsLittleEndian : Prop :=
  (∀ w : Word, bytesOfWord w =
    [BitVec.ofNat 8 w.toNat, BitVec.ofNat 8 (w.toNat / 256), BitVec.ofNat 8 (w.toNat / 65536),
      BitVec.ofNat 8 (w.toNat / 16777216)]) ∧
  ∀ (ws : List Word) (tail : List Byte), tail.length < 4 →
    wordsOfBytes (bytesOfWords ws ++ tail) = (ws, tail)

/-- 30_encoding.md R82: the expansion of each pseudo-command. -/
def Obligations.PseudoCommandsExpand : Prop :=
  ∀ n : Nat,
    assembleLine (.process n) = assemble [.command (.processBlock n n n n)] ∧
    assembleLine (.silence n) =
      assemble (.command (.processBlock n n n n) :: List.replicate n (.frame (.decimal false 0 1) (.decimal false 0 1))) ∧
    (1 ≤ n → assembleLine (.impulse n) =
      assemble (.command (.processBlock n n n n) :: .frame (.decimal false 10 1) (.decimal false 10 1) ::
        List.replicate (n - 1) (.frame (.decimal false 0 1) (.decimal false 0 1)))) ∧
    ∀ w : Word, assembleLine (.rawWord w) = [w]

/-! ## The step -/

/-- When the words at the head of the port decode to a command, and the block is neither stuck nor waiting in a command, the
step is that command's meaning at that state: the meaning itself takes the words and advances `cp`. -/
def Obligations.StepRunsTheDecodedCommand : Prop :=
  ∀ (s : State) (i : Instr) (rest : List Word), s.faulted = false → s.busy = none →
    decode s.port = .ok (i, rest) → step s = exec i s

/-- 30_encoding.md R75: an illegal word in command position is taken and ignored, whatever `ALIVE` is. -/
def Obligations.IllegalWordIsIgnored : Prop :=
  ∀ (s : State) (w : Word) (rest : List Word), s.faulted = false → s.busy = none → s.port = w :: rest →
    w ∉ legalWords → step s = .next { s with port := rest, cp := s.cp + 1 }

/-- With `ALIVE = 0` every legal command word but CREATE and GET_WAVEFORM_SIZE raises FAULT_NO_INSTANCE, whether its operand
words are there or not (60_exceptions.md R222); CREATE and GET_WAVEFORM_SIZE do not. Derived: that CREATE without its
operand answers a next state, the wait, is the model's choice (log entry 8). -/
def Obligations.CommandsWithoutInstanceFault : Prop :=
  ∀ (s : State) (w : Word) (rest : List Word), s.faulted = false → s.busy = none → s.alive = false →
    s.port = w :: rest → w ∈ legalWords →
    (w ≠ 0x00000001 → w ≠ 0x00000040 → step s = .next (noInstanceState s)) ∧
    (w = 0x00000001 ∨ w = 0x00000040 → ∃ t, step s = .next t ∧ t.faulted = false)

/-- 60_exceptions.md R221: a step that sets `FAULTED` records `(1, cp)` with the `cp` of the command word, takes that word
alone and writes nothing else; from then on neither a step nor any command, CREATE included, runs. -/
def Obligations.FaultIsRecordedAndFinal : Prop :=
  (∀ s t : State, step s = .next t → t.faulted = true → t = noInstanceState s) ∧
  ∀ s : State, s.faulted = true →
    step s = .fault .stuckAfterFault ∧ ∀ i : Instr, exec i s = .fault .stuckAfterFault

/-- Nothing but `FAULTED` stops the block: no operand, sample, word or starved port raises anything (60_exceptions.md
R220, R223, R224), in a step or in a command. Derived: that the block, where it waits, answers a next state is the model's
choice (log entry 8). -/
def Obligations.OnlyFaultedStops : Prop :=
  ∀ s : State, s.faulted = false → (∃ t, step s = .next t) ∧ ∀ i : Instr, ∃ t, exec i s = .next t

/-- Waiting for a command word, for operand words, for an input word or for room on the response port changes nothing
(60_exceptions.md R224, R234). That a wait is a step is the model's choice (log entry 8), and so is it that a lone input
word, or a command word with some of its operands, stays on the port while the block waits (log entry 9). -/
def Obligations.WaitingChangesNothing : Prop :=
  ∀ s : State, s.faulted = false →
    ((s.busy = none ∧ s.port = []) ∨
     (s.busy = none ∧ ∃ op, decode s.port = .error (.operandsMissing op) ∧ (s.alive = true ∨ op = .create)) ∨
     (∃ total left, s.busy = some (.input total left) ∧ 0 < left ∧ s.port.length < 2) ∨
     (∃ ws after, s.busy = some (.output ws after) ∧ ws ≠ [] ∧ ¬ s.hasRoom 1)) →
    step s = .next s

/-- `cp` never decreases (10_state.md R31), words are only taken from the head of the command port, and responses are only
appended (30_encoding.md R77). -/
def Obligations.PortsMoveOneWay : Prop :=
  ∀ s t : State, step s = .next t →
    s.cp ≤ t.cp ∧ (∃ k, t.port = s.port.drop k) ∧ ∃ ws, t.resp = s.resp ++ ws

/-- 30_encoding.md R78: a command that runs takes exactly its words and advances `cp` by their number when it completes, in
the step that starts it or, if it waits, in a later one; one that faults advances `cp` by 1, and so does an illegal
word. Derived: the steps in which a command waits, `cp` not yet advanced, are the model's choice (log entries 8, 9 and
10). -/
def Obligations.CommandsAdvanceByTheirLength : Prop :=
  (∀ (s t : State) (i : Instr) (rest : List Word), s.busy = none → decode s.port = .ok (i, rest) → step s = .next t →
    (s.alive = true ∨ legalWithoutInstance i →
      t.busy = none → t.cp = s.cp + commandLength i ∧ t.port = s.port.drop (commandLength i)) ∧
    (s.alive = false → ¬ legalWithoutInstance i → t.cp = s.cp + 1 ∧ t.port = s.port.drop 1)) ∧
  (∀ (s t : State) (b : Busy), s.busy = some b → step s = .next t →
    (t.busy = none → t.cp = s.cp + waitingLength b) ∧ (t.busy ≠ none → t.cp = s.cp)) ∧
  ∀ (s t : State) (w : Word) (rest : List Word), s.busy = none → s.port = w :: rest → w ∉ legalWords →
    step s = .next t → t.cp = s.cp + 1 ∧ t.port = rest

/-- 10_state.md R37: the access table, as what each command leaves alone. `DM` and `WM` are compared word by word. DESTROY
writes `ALIVE`, and leaves the rest unspecified (44_lifecycle_and_host.md R201). -/
def Obligations.CommandsWriteOnlyTheirRegisters : Prop :=
  ∀ (i : Instr) (s t : State), exec i s = .next t → i ≠ .destroy →
    ((∀ x, i ≠ .create x) → (∀ x, i ≠ .setSampleRate x) → t.sr = s.sr) ∧
    ((∀ x, i ≠ .create x) → (∀ x, i ≠ .setDelayTime x) → t.dt = s.dt) ∧
    ((∀ x, i ≠ .create x) → (∀ x, i ≠ .setFeedback x) → t.fb = s.fb) ∧
    ((∀ x, i ≠ .create x) → (∀ x, i ≠ .setMix x) → t.mx = s.mx) ∧
    ((∀ x, i ≠ .create x) → (∀ x, i ≠ .setVoiceCount x) → t.vc = s.vc) ∧
    ((∀ a b c d, i ≠ .processBlock a b c d) → t.bd = s.bd) ∧
    ((∀ x, i ≠ .create x) → t.alive = s.alive) ∧
    ((∀ x, i ≠ .create x) → i ≠ .reset → (∀ a b c d, i ≠ .processBlock a b c d) →
      t.wc = s.wc ∧ t.wi = s.wi ∧ (∀ a, memRead t.dm a = memRead s.dm a) ∧ ∀ a, memRead t.wm a = memRead s.wm a) ∧
    t.ringLen = s.ringLen ∧ t.respCap = s.respCap

/-! ## Lifecycle -/

/-- 44_lifecycle_and_host.md R200: CREATE runs whatever `ALIVE` is; the parameters take their defaults, both memories and
both cursors are zero, and nothing else changes. -/
def Obligations.CreateInitialises : Prop :=
  ∀ (s : State) (sr : F32), s.faulted = false →
    ∃ t, exec (.create sr) s = .next t ∧
      t = { s with
        sr := sr, dt := 0x43960000, fb := 0x3E99999A, mx := 0x3F000000, vc := 1, dm := t.dm, wm := t.wm, wc := 0, wi := 0,
        alive := true, port := s.port.drop 2, cp := s.cp + 2 } ∧
      (∀ a, memRead t.dm a = 0) ∧ ∀ a, memRead t.wm a = 0

/-- CREATE discards all earlier state (44_lifecycle_and_host.md R200): of two states whose ports, `cp`, fault record, waiting
command, `W` and draw counter agree, it makes one and the same state, but for `BD`, which it does not write (10_state.md
R27). -/
def Obligations.CreateDiscardsEarlierState : Prop :=
  ∀ (s s' t t' : State) (sr : F32),
    s.port = s'.port → s.resp = s'.resp → s.cp = s'.cp → s.faultInfo = s'.faultInfo → s.busy = s'.busy →
    s.ringLen = s'.ringLen → s.respCap = s'.respCap → s.draw = s'.draw →
    exec (.create sr) s = .next t → exec (.create sr) s' = .next t' → t' = { t with bd := s'.bd }

/-- 44_lifecycle_and_host.md R201: DESTROY releases the instance; with no instance it faults. What it leaves in the registers
and memories is unspecified and not stated. -/
def Obligations.DestroyReleasesTheInstance : Prop :=
  ∀ s : State, s.faulted = false →
    (s.alive = true → ∃ t, exec .destroy s = .next t ∧ t.alive = false ∧ t.cp = s.cp + 1 ∧ t.port = s.port.drop 1 ∧
      t.resp = s.resp ∧ t.faulted = false ∧ t.faultInfo = s.faultInfo ∧ t.busy = s.busy ∧ t.ringLen = s.ringLen ∧
      t.respCap = s.respCap) ∧
    (s.alive = false → exec .destroy s = .next (noInstanceState s))

/-- 70_reset_and_hazards.md R242: CREATE leaves what RESET leaves, with the parameters at their defaults and an
instance. -/
def Obligations.CreateIsResetWithDefaults : Prop :=
  ∀ (s c r : State) (sr : F32), s.alive = true → exec (.create sr) s = .next c → exec .reset s = .next r →
    c = { r with
      sr := sr, dt := 0x43960000, fb := 0x3E99999A, mx := 0x3F000000, vc := 1, alive := true, port := s.port.drop 2,
      cp := s.cp + 2 }

/-- The value of `BD` outside a block is never read (10_state.md R27; 42_process_block.md R161). In a state with no block in
progress, a getter that waits included, changing it changes no step but in `BD` itself, and not even there once a block
has begun: two states that differ in `BD` alone, and agree in it while a block is in progress, stay such a pair in every
step. -/
def Obligations.BaseDelayLatchIsUnobservable : Prop :=
  ∀ (s t : State) (b : BitVec 14), (inBlock s.busy → b = s.bd) → step s = .next t →
    ∃ b', step { s with bd := b } = .next { t with bd := b' } ∧ (inBlock t.busy → b' = t.bd)

/-! ## Engine control -/

/-- 41_engine_control.md R120. -/
def Obligations.SetSampleRateStoresVerbatim : Prop :=
  ∀ (s : State) (hz : F32), s.faulted = false →
    (s.alive = true →
      exec (.setSampleRate hz) s = .next { s with sr := hz, port := s.port.drop 2, cp := s.cp + 2 }) ∧
    (s.alive = false → exec (.setSampleRate hz) s = .next (noInstanceState s))

/-- 41_engine_control.md R121: a NaN keeps `DT`, a value below 0 gives `+0.0f`, one above 2000 gives `2000.0f`, any other is
stored verbatim; nothing else changes. -/
def Obligations.SetDelayTimeClamps : Prop :=
  ∀ (s : State) (ms : F32), s.faulted = false →
    (s.alive = true →
      ∃ v, exec (.setDelayTime ms) s = .next { s with dt := v, port := s.port.drop 2, cp := s.cp + 2 } ∧
        (isNaN ms = true → v = s.dt) ∧
        (isNaN ms = false → units ms < 0 → v = 0x00000000) ∧
        (isNaN ms = false → above 2000 ms → v = 0x44FA0000) ∧
        (isNaN ms = false → 0 ≤ units ms → ¬ above 2000 ms → v = ms)) ∧
    (s.alive = false → exec (.setDelayTime ms) s = .next (noInstanceState s))

/-- 41_engine_control.md R122 and R123: SET_FEEDBACK and SET_MIX clamp to [0, 1] in the same way. -/
def Obligations.SetFeedbackAndSetMixClamp : Prop :=
  ∀ (s : State) (x : F32), s.faulted = false →
    (s.alive = true →
      (∃ v, exec (.setFeedback x) s = .next { s with fb := v, port := s.port.drop 2, cp := s.cp + 2 } ∧
        (isNaN x = true → v = s.fb) ∧
        (isNaN x = false → units x < 0 → v = 0x00000000) ∧
        (isNaN x = false → above 1 x → v = 0x3F800000) ∧
        (isNaN x = false → 0 ≤ units x → ¬ above 1 x → v = x)) ∧
      ∃ v, exec (.setMix x) s = .next { s with mx := v, port := s.port.drop 2, cp := s.cp + 2 } ∧
        (isNaN x = true → v = s.mx) ∧
        (isNaN x = false → units x < 0 → v = 0x00000000) ∧
        (isNaN x = false → above 1 x → v = 0x3F800000) ∧
        (isNaN x = false → 0 ≤ units x → ¬ above 1 x → v = x)) ∧
    (s.alive = false →
      exec (.setFeedback x) s = .next (noInstanceState s) ∧ exec (.setMix x) s = .next (noInstanceState s))

/-- 41_engine_control.md R124: the operand word is read as a signed integer and clamped to [1, 16]. -/
def Obligations.SetVoiceCountClamps : Prop :=
  (∀ (w : Word) (rest : List Word), decode (0x00000014 :: w :: rest) = .ok (.setVoiceCount w.toInt, rest)) ∧
  ∀ (s : State) (n : Int), s.faulted = false →
    (s.alive = true →
      ∃ v : BitVec 5, exec (.setVoiceCount n) s = .next { s with vc := v, port := s.port.drop 2, cp := s.cp + 2 } ∧
        (n < 1 → v.toNat = 1) ∧ (16 < n → v.toNat = 16) ∧ (1 ≤ n → n ≤ 16 → (v.toNat : Int) = n)) ∧
    (s.alive = false → exec (.setVoiceCount n) s = .next (noInstanceState s))

/-- 41_engine_control.md R125 to R129 and R133: each getter answers its register in one word and changes no other state.
Derived: that on a full response port it waits with its word, `cp` not yet advanced, rests on the model's capacity of that
port and its steps of a wait (log entry 10). -/
def Obligations.GettersReportTheirRegisters : Prop :=
  ∀ s : State, s.faulted = false →
    (s.alive = true →
      Answers .getSampleRate 1 [s.sr] s ∧ Answers .getDelayTime 1 [s.dt] s ∧ Answers .getFeedback 1 [s.fb] s ∧
      Answers .getMix 1 [s.mx] s ∧
      (∃ w : Word, w.toNat = s.vc.toNat ∧ Answers .getVoiceCount 1 [w] s) ∧
      ∃ w : Word, w.toNat = s.wc.toNat ∧ Answers .getWriteCursor 1 [w] s) ∧
    (s.alive = false →
      ∀ i ∈ [Instr.getSampleRate, .getDelayTime, .getFeedback, .getMix, .getVoiceCount, .getWriteCursor],
        exec i s = .next (noInstanceState s))

/-- 41_engine_control.md R130: RESET clears `DM`, all 16 rings and both cursors and keeps everything else; a second RESET
changes nothing more than the port and `cp`. -/
def Obligations.ResetClearsAndKeepsParameters : Prop :=
  ∀ s : State, s.faulted = false →
    (s.alive = true →
      ∃ t, exec .reset s = .next t ∧
        t = { s with dm := t.dm, wm := t.wm, wc := 0, wi := 0, port := s.port.drop 1, cp := s.cp + 1 } ∧
        (∀ a, memRead t.dm a = 0) ∧ (∀ a, memRead t.wm a = 0) ∧
        exec .reset t = .next { t with port := t.port.drop 1, cp := t.cp + 1 }) ∧
    (s.alive = false → exec .reset s = .next (noInstanceState s))

/-- 41_engine_control.md R132: no setter touches `DM`, `WM`, `WC` or `WI`. -/
def Obligations.SettersLeaveTheDelayLine : Prop :=
  ∀ (s t : State) (x : F32) (n : Int),
    ∀ i ∈ [Instr.setSampleRate x, .setDelayTime x, .setFeedback x, .setMix x, .setVoiceCount n],
      exec i s = .next t →
        t.wc = s.wc ∧ t.wi = s.wi ∧ (∀ a, memRead t.dm a = memRead s.dm a) ∧ ∀ a, memRead t.wm a = memRead s.wm a

/-! ## Arithmetic -/

/-- The sum and the difference of two finite values are the exact ones rounded once to nearest, ties to even, and overflow to
the infinity of their sign (00_scope.md R16). Derived: what an infinite operand gives, and that an exact zero is `-0.0`
only when both terms are negative zeros, is IEEE 754's as general knowledge (log entry 20, PRESUMED). -/
def Obligations.AddAndSubRoundCorrectly : Prop :=
  ∀ (d : Nat) (a b : F32),
    (isFinite a = true → isFinite b = true →
      CorrectlyRounded (f32Add d a b) (units a + units b) 1 ∧ CorrectlyRounded (f32Sub d a b) (units a - units b) 1 ∧
      (units a + units b = 0 → f32Add d a b = if f32Neg a = true ∧ f32Neg b = true then 0x80000000 else 0x00000000) ∧
      (units a - units b = 0 → f32Sub d a b = if f32Neg a = true ∧ f32Neg b = false then 0x80000000 else 0x00000000)) ∧
    (isInf a = true → isFinite b = true ∨ (isInf b = true ∧ f32Neg b = f32Neg a) → f32Add d a b = a) ∧
    (isInf a = true → isFinite b = true ∨ (isInf b = true ∧ f32Neg b ≠ f32Neg a) → f32Sub d a b = a) ∧
    (isFinite a = true → isInf b = true → f32Add d a b = b ∧ f32Sub d a b = b ^^^ 0x80000000)

/-- The product of two finite values, and the quotient by a finite nonzero one, are the exact ones rounded once to nearest,
ties to even (00_scope.md R16). Values are counted in units of `2 ^ -149`, so a product carries a factor `2 ^ 149` too much
and a quotient lacks it. Derived: the sign of every result that is no NaN, a zero among them, and what an infinite operand
or a division by zero gives, are IEEE 754's as general knowledge (log entry 20, PRESUMED). -/
def Obligations.MulAndDivRoundCorrectly : Prop :=
  ∀ (d : Nat) (a b : F32),
    (isFinite a = true → isFinite b = true →
      CorrectlyRounded (f32Mul d a b) (units a * units b) (2 ^ 149) ∧
      (isZero b = false →
        CorrectlyRounded (f32Div d a b) (units a * 2 ^ 149 * (units b).sign) (units b).natAbs)) ∧
    (isNaN (f32Mul d a b) = false →
      f32Neg (f32Mul d a b) = (f32Neg a != f32Neg b) ∧
      (isInf a = true ∨ isInf b = true → isInf (f32Mul d a b) = true)) ∧
    (isNaN (f32Div d a b) = false →
      f32Neg (f32Div d a b) = (f32Neg a != f32Neg b) ∧
      (isInf a = true ∨ isZero b = true → isInf (f32Div d a b) = true) ∧
      (isInf b = true → isZero (f32Div d a b) = true))

/-- A result is a NaN exactly when IEEE 754 makes it one (00_scope.md R16; log entry 20): an operand is a NaN, or the
operation has no value. -/
def Obligations.NaNResultsAreExactlyTheInvalidOnes : Prop :=
  ∀ (d : Nat) (a b : F32),
    (isNaN (f32Add d a b) = true ↔
      isNaN a = true ∨ isNaN b = true ∨ (isInf a = true ∧ isInf b = true ∧ f32Neg a ≠ f32Neg b)) ∧
    (isNaN (f32Sub d a b) = true ↔
      isNaN a = true ∨ isNaN b = true ∨ (isInf a = true ∧ isInf b = true ∧ f32Neg a = f32Neg b)) ∧
    (isNaN (f32Mul d a b) = true ↔
      isNaN a = true ∨ isNaN b = true ∨ (isInf a = true ∧ isZero b = true) ∨ (isZero a = true ∧ isInf b = true)) ∧
    (isNaN (f32Div d a b) = true ↔
      isNaN a = true ∨ isNaN b = true ∨ (isInf a = true ∧ isInf b = true) ∨ (isZero a = true ∧ isZero b = true))

/-- 00_scope.md R17: `round_half_away(x)`, for `x` the quotient `n / d`, is a nearest integer, and on a tie the one of larger
magnitude. -/
def Obligations.RoundHalfAwayIsNearest : Prop :=
  ∀ (n : Int) (d : Nat), 0 < d →
    2 * |roundHalfAway n d * d - n| ≤ d ∧
    (2 * |roundHalfAway n d * d - n| = d → |n| < |roundHalfAway n d| * d)

/-! ## Tap geometry -/

/-- 40_tap_geometry.md R103: the four arms of `BaseDelay`. The clamp is on the mathematical integer. -/
def Obligations.BaseDelayFollowsItsArms : Prop :=
  ∀ (d : Nat) (dt sr : F32),
    let p := f32Mul d (f32Div d dt 0x447A0000) sr
    (isNaN p = true → baseDelay d dt sr = 1) ∧
    (isInf p = true → f32Neg p = false → baseDelay d dt sr = 11999) ∧
    (isInf p = true → f32Neg p = true → baseDelay d dt sr = 1) ∧
    (isFinite p = true → (baseDelay d dt sr : Int) = max 1 (min (roundHalfAway (units p) (2 ^ 149)) 11999)) ∧
    1 ≤ baseDelay d dt sr ∧ baseDelay d dt sr ≤ 11999

/-- 40_tap_geometry.md R104 and R105: the formula of `TapDelay`, its range, and the one case in which the `min` takes
effect. -/
def Obligations.TapDelayFormulaAndRange : Prop :=
  ∀ i n b : Nat, i < n → n ≤ 16 → 1 ≤ b → b ≤ 11999 →
    tapDelay i n b = min (b * (i + 1) + (if 1 < n then b * i / n else 0)) 191999 ∧
    b ≤ tapDelay i n b ∧ tapDelay i n b ≤ 191999 ∧ 1 ≤ tapDelay i n b ∧
    (191999 < b * (i + 1) + (if 1 < n then b * i / n else 0) ↔ n = 16 ∧ i = 15 ∧ 11336 ≤ b)

/-- 40_tap_geometry.md R106: wherever the `min` does not act (O37 says where it does), the step from a tap to the next is `b`
plus a difference of floors, which is the floor or the ceiling of `b / n`, and it is `b (n + 1) / n` when `n` divides `b`;
the same of the sums before the `min`, everywhere; and tap delays strictly rise. -/
def Obligations.TapDelaysAreSpaced : Prop :=
  ∀ i n b : Nat, i + 1 < n → n ≤ 16 → 1 ≤ b → b ≤ 11999 →
    let sum := fun k => b * (k + 1) + b * k / n
    (¬ (n = 16 ∧ i + 1 = 15 ∧ 11336 ≤ b) →
      tapDelay (i + 1) n b = tapDelay i n b + (b + b * (i + 1) / n - b * i / n) ∧
      (tapDelay (i + 1) n b = tapDelay i n b + b + b / n ∨
        tapDelay (i + 1) n b = tapDelay i n b + b + (b + n - 1) / n) ∧
      (n ∣ b → tapDelay (i + 1) n b = tapDelay i n b + b * (n + 1) / n)) ∧
    (sum (i + 1) = sum i + b + b / n ∨ sum (i + 1) = sum i + b + (b + n - 1) / n) ∧
    (n ∣ b → sum (i + 1) = sum i + b * (n + 1) / n) ∧
    tapDelay i n b < tapDelay (i + 1) n b

/-- 40_tap_geometry.md R100 and R101: each entry of the gain table is the binary32 value nearest to the real gain
`0.75 ^ i / sqrt (sum of 0.75 ^ (2 k) for k < n)`; every other value is strictly farther, so no tie occurs. Values are
counted in units of `2 ^ -149`. -/
def Obligations.TapGainIsNearestToRealGain : Prop :=
  ∀ i n : Nat, i < n → n ≤ 16 →
    isFinite (tapGain i n) = true ∧ ∀ z : F32, isFinite z = true → units z ≠ units (tapGain i n) →
      |(units (tapGain i n) : ℝ) / 2 ^ 149 - (3 / 4 : ℝ) ^ i / Real.sqrt (∑ k ∈ Finset.range n, (3 / 4 : ℝ) ^ (2 * k))| <
      |(units z : ℝ) / 2 ^ 149 - (3 / 4 : ℝ) ^ i / Real.sqrt (∑ k ∈ Finset.range n, (3 / 4 : ℝ) ^ (2 * k))|

/-! ## Block processing -/

/-- 42_process_block.md R152: one sample step. The two outputs, the one word of `DM` written, the slots of `WM` written, the
two cursors; every other word of either memory and every other register is unchanged. -/
def Obligations.SampleStepFollowsItsRule : Prop :=
  ∀ (s : State) (l r : F32), s.InRange →
    let u := sampleStep l r s
    u.resp = s.resp ++ [channelOut s l, channelOut s r] ∧
    (∀ a, memRead u.dm a = if a = s.wc.toNat then writtenWord s l r else memRead s.dm a) ∧
    (∀ k j, k < 16 → memRead u.wm (ringIndex k j) =
      if k < s.vc.toNat ∧ j = s.wi then tapWord s k else memRead s.wm (ringIndex k j)) ∧
    u.wc.toNat = (s.wc.toNat + 1) % 192000 ∧ u.wi = (s.wi + 1) % s.ringLen ∧
    u = { s with dm := u.dm, wm := u.wm, resp := u.resp, wc := u.wc, wi := u.wi, draw := u.draw }

/-- 42_process_block.md R150 and R151: PROCESS_BLOCK with its frames on the port and room for its outputs runs one sample step
a frame, with `BD` latched from `DT` and `SR` at its start, takes `5 + 2n` words and emits `2n`. With no instance it faults.
Derived: when the outputs of a sample step have no room it waits there, the writes done, the outputs that fit emitted and
the cursors not yet advanced (60_exceptions.md R224), and the port's capacity and that step are the model's choice (log
entry 10). -/
def Obligations.ProcessBlockRunsItsFrames : Prop :=
  ∀ (s : State) (nli nri nlo nro : Nat), s.faulted = false →
    (s.alive = true → ∀ (fs : List (F32 × F32)) (rest : List Word), 5 ≤ s.port.length →
      s.port.drop 5 = portOfFrames fs ++ rest → s.hasRoom (2 * fs.length) →
      (fs.length = min (min nli nri) (min nlo nro) →
        exec (.processBlock nli nri nlo nro) s =
          .next { runFrames fs (blockStart s rest) with busy := none, cp := s.cp + (5 + 2 * fs.length) } ∧
        (runFrames fs (blockStart s rest)).resp.length = s.resp.length + 2 * fs.length) ∧
      ∀ (l r : F32) (rest' : List Word) (c : Nat), fs.length < min (min nli nri) (min nlo nro) → rest = l :: r :: rest' →
        s.respCap = some c → s.resp.length ≤ c → c < s.resp.length + 2 * (fs.length + 1) →
        let u := sampleStep l r (runFrames fs (blockStart s rest'))
        exec (.processBlock nli nri nlo nro) s = .next { u with
          wc := (runFrames fs (blockStart s rest')).wc
          wi := (runFrames fs (blockStart s rest')).wi
          resp := u.resp.take c
          busy := some (.output (u.resp.drop c)
            (.sampleStep (min (min nli nri) (min nlo nro)) (min (min nli nri) (min nlo nro) - (fs.length + 1)))) }) ∧
    (s.alive = false → exec (.processBlock nli nri nlo nro) s = .next (noInstanceState s))

/-- 42_process_block.md R161: a block of no frames latches `BD`, takes its five words and changes nothing else. -/
def Obligations.EmptyBlockOnlyLatches : Prop :=
  ∀ (s : State) (nli nri nlo nro : Nat), s.faulted = false → s.alive = true → s.busy = none →
    (nli = 0 ∨ nri = 0 ∨ nlo = 0 ∨ nro = 0) →
    exec (.processBlock nli nri nlo nro) s =
      .next { s with bd := BitVec.ofNat 14 (baseDelay s.draw s.dt s.sr), port := s.port.drop 5, cp := s.cp + 5 }

/-- The cursors after a block of `n` frames that completes in one go: each has advanced by `n`, modulo its own capacity.
Derived from the `n` sample steps of 42_process_block.md R150 and the advance at the end of each, R159, which
SampleStepFollowsItsRule states. -/
def Obligations.CursorsAdvanceByTheFrames : Prop :=
  ∀ (s t : State) (nli nri nlo nro : Nat), s.InRange → s.alive = true →
    exec (.processBlock nli nri nlo nro) s = .next t → t.busy = none →
    t.wc.toNat = (s.wc.toNat + min (min nli nri) (min nlo nro)) % 192000 ∧
    t.wi = (s.wi + min (min nli nri) (min nlo nro)) % s.ringLen

/-- What PROCESS_BLOCK leaves alone, complete or waiting: the parameters, `ALIVE`, the fault record, `W`, and every word of
`DM` outside the `m` indices from the write cursor on and every slot of every ring outside the `m` slots from `WI` on, each
modulo its capacity, where at most `m` sample steps ran (42_process_block.md R151, R156, R157; 10_state.md R37). -/
def Obligations.ProcessBlockFrame : Prop :=
  ∀ (s t : State) (nli nri nlo nro : Nat), s.InRange → s.alive = true →
    exec (.processBlock nli nri nlo nro) s = .next t →
    t.sr = s.sr ∧ t.dt = s.dt ∧ t.fb = s.fb ∧ t.mx = s.mx ∧ t.vc = s.vc ∧ t.alive = s.alive ∧ t.faulted = s.faulted ∧
    t.faultInfo = s.faultInfo ∧ t.ringLen = s.ringLen ∧ t.bd.toNat = baseDelay s.draw s.dt s.sr ∧
    let m := min (min (min nli nri) (min nlo nro)) ((s.port.length - 5) / 2)
    (∀ a, a < 192000 → m ≤ (a + 192000 - s.wc.toNat) % 192000 → memRead t.dm a = memRead s.dm a) ∧
    ∀ k j, k < 16 → j < s.ringLen → m ≤ (j + s.ringLen - s.wi) % s.ringLen →
      memRead t.wm (ringIndex k j) = memRead s.wm (ringIndex k j)

/-- With fewer than `n` whole frames on the port, and room for their outputs, the block waits in the next sample step with the
earlier ones done (42_process_block.md R160), and a step then changes nothing until two more words arrive. Derived: that
such a wait is a step, to the same state, is the model's choice (log entry 8), and so is it that a frame is taken whole
(log entry 9). -/
def Obligations.StarvedBlockWaits : Prop :=
  ∀ (s : State) (nli nri nlo nro : Nat) (fs : List (F32 × F32)) (rest : List Word),
    s.faulted = false → s.alive = true → 5 ≤ s.port.length →
    s.port.drop 5 = portOfFrames fs ++ rest → rest.length < 2 → fs.length < min (min nli nri) (min nlo nro) →
    s.hasRoom (2 * fs.length) →
    ∃ t, exec (.processBlock nli nri nlo nro) s = .next t ∧
      t = { runFrames fs (blockStart s rest) with
        busy := some (.input (min (min nli nri) (min nlo nro)) (min (min nli nri) (min nlo nro) - fs.length)) } ∧
      step t = .next t

/-- Port starvation is only a wait (42_process_block.md R160): a command that waits, and is then sent more words, goes on as if
all the words had been there from the start. The words sent to a starved block are taken as input samples, whatever they
are. -/
def Obligations.WaitingBlockResumesUnchanged : Prop :=
  ∀ (s u : State) (ws : List Word), step s = .next u → u.busy ≠ none →
    step (u.send ws) = step (s.send ws)

/-- The delay line is a delay (42_process_block.md R154, R163): after any sample steps, tap `t` of delay `d` reads the word
written `d` sample steps earlier, or, when fewer have run, the word that stood there before them. -/
def Obligations.TapsReadTheWordWrittenEarlier : Prop :=
  ∀ (s : State) (fs : List (F32 × F32)) (t : Nat), s.InRange → t < s.vc.toNat →
    let d := tapDelay t s.vc.toNat s.bd.toNat
    (fs.length < d →
      tapWord (runFrames fs s) t = memRead s.dm ((s.wc.toNat + fs.length + 192000 - d) % 192000)) ∧
    (∀ f, d ≤ fs.length → fs[fs.length - d]? = some f →
      tapWord (runFrames fs s) t = writtenWord (runFrames (fs.take (fs.length - d)) s) f.1 f.2)

/-- Only the last tap feeds back (42_process_block.md R157): the word written to the delay line is the same for two delay
lines in which the last tap reads the same, whatever the other taps read. -/
def Obligations.OnlyTheLastTapFeedsBack : Prop :=
  ∀ (s : State) (dm' : Mem) (l r : F32), s.InRange → Memory.wf 192000 dm' = true →
    memRead dm' (tapIndex s (s.vc.toNat - 1)) = memRead s.dm (tapIndex s (s.vc.toNat - 1)) →
    memRead (sampleStep l r { s with dm := dm' }).dm s.wc.toNat = memRead (sampleStep l r s).dm s.wc.toNat

/-- 42_process_block.md R162 (a) to (c): an overflowing input sum makes `mono` infinite; a NaN read by any tap reaches both
outputs whatever the mix, and one read by the last tap is written back whatever the feedback; an infinity does so, as a NaN,
with the mix or the feedback at zero. -/
def Obligations.NonFiniteSamplesSpread : Prop :=
  ∀ (s : State) (l r : F32) (t : Nat), s.InRange → t < s.vc.toNat →
    (isInf (f32Add s.draw l r) = true → isInf (f32Mul s.draw 0x3F000000 (f32Add s.draw l r)) = true) ∧
    (isNaN (tapWord s t) = true → isNaN (channelOut s l) = true ∧ isNaN (channelOut s r) = true) ∧
    (isFinite (tapWord s t) = false → isZero s.mx = true →
      isNaN (channelOut s l) = true ∧ isNaN (channelOut s r) = true) ∧
    (isNaN (tapWord s (s.vc.toNat - 1)) = true → isNaN (writtenWord s l r) = true) ∧
    (isFinite (tapWord s (s.vc.toNat - 1)) = false → isZero s.fb = true → isNaN (writtenWord s l r) = true)

/-- Dry and wet pass-through (42_process_block.md R164): with `MX = 0.0f` a finite input comes out exactly when the wet sum
is finite, and `-0.0` comes out with the sign IEEE 754 gives the sum of the two zeros; with `MX = 1.0f` the wet sum comes
out for a finite input, but for a wet sum `-0.0`, which no sample step has. -/
def Obligations.DryAndWetPassThrough : Prop :=
  (∀ (d : Nat) (x wet : F32), isFinite x = true →
    (isFinite wet = true → x ≠ 0x80000000 → blend d 0x00000000 x wet = x) ∧
    (isFinite wet = true → x = 0x80000000 → blend d 0x00000000 x wet = if f32Neg wet then 0x80000000 else 0x00000000) ∧
    (isNaN wet = false → wet ≠ 0x80000000 → blend d 0x3F800000 x wet = wet) ∧
    (wet = 0x80000000 → blend d 0x3F800000 x wet = if f32Neg x then 0x80000000 else 0x00000000)) ∧
  ∀ s : State, wetSum s ≠ 0x80000000

/-- Stereo (42_process_block.md R165): equal inputs give equal outputs, bit for bit; and the delay line, the rings and the
cursors depend on the input frame only through `mono`. -/
def Obligations.OnlyMonoEntersTheDelayLine : Prop :=
  ∀ (s : State) (l r l' r' : F32), s.InRange →
    (sampleStep l l s).resp = s.resp ++ [channelOut s l, channelOut s l] ∧
    (f32Mul s.draw 0x3F000000 (f32Add s.draw l r) = f32Mul s.draw 0x3F000000 (f32Add s.draw l' r') →
      sampleStep l' r' s = { sampleStep l r s with resp := (sampleStep l' r' s).resp })

/-- Capture "has no effect on audio correctness" (43_waveform_capture.md): the rings and their index change nothing in a
block but the rings and their index. -/
def Obligations.CaptureDoesNotAffectAudio : Prop :=
  ∀ (s t t' : State) (wm' : Mem) (wi' nli nri nlo nro : Nat),
    exec (.processBlock nli nri nlo nro) s = .next t →
    exec (.processBlock nli nri nlo nro) { s with wm := wm', wi := wi' } = .next t' →
    t' = { t with wm := t'.wm, wi := t'.wi }

/-! ## Waveform capture -/

/-- 43_waveform_capture.md R180 and R181: the size is answered whatever `ALIVE` is and never changes, the index is
answered with an instance only. Derived: how either waits on a full response port is the model's choice (log entry 10). -/
def Obligations.WaveformSizeAndIndexAreReported : Prop :=
  (∀ s t : State, step s = .next t → t.ringLen = s.ringLen) ∧
  ∀ s : State, s.faulted = false →
    (∃ w : Word, Answers .getWaveformSize 1 [w] s ∧ (s.ringLen < 2 ^ 32 → w.toNat = s.ringLen)) ∧
    (s.alive = true → ∃ w : Word, Answers .getWaveformIndex 1 [w] s ∧ (s.wi < 2 ^ 32 → w.toNat = s.wi)) ∧
    (s.alive = false → exec .getWaveformIndex s = .next (noInstanceState s))

/-- 43_waveform_capture.md R182, R183 and R184: the `W` words of ring `k`, oldest first or in slot order; `W` zero words for
`k >= VC`; no state changes. Derived: how either waits on a full response port is the model's choice (log entry 10). -/
def Obligations.CaptureReadsAnswerTheRing : Prop :=
  ∀ (s : State) (k : Nat), s.faulted = false →
    (s.alive = true →
      Answers (.getVoiceWaveform k) 2
        (if k < s.vc.toNat then (List.range s.ringLen).map fun i => memRead s.wm (ringIndex k ((s.wi + i) % s.ringLen))
          else List.replicate s.ringLen 0x00000000) s ∧
      Answers (.readVoiceRing k) 2
        (if k < s.vc.toNat then (List.range s.ringLen).map fun j => memRead s.wm (ringIndex k j)
          else List.replicate s.ringLen 0x00000000) s) ∧
    (s.alive = false → exec (.getVoiceWaveform k) s = .next (noInstanceState s) ∧
      exec (.readVoiceRing k) s = .next (noInstanceState s))

/-- A host can rebuild GET_VOICE_WAVEFORM's answer from READ_VOICE_RING and the write index (43_waveform_capture.md R183;
70_reset_and_hazards.md R251): the rotated view is the raw one cut at `WI`. The answer is what has gone out and what still
waits for room (log entry 10). -/
def Obligations.RotatedViewIsTheRawViewCutAtTheIndex : Prop :=
  ∀ (s t u : State) (k : Nat), s.InRange → s.alive = true → s.busy = none →
    exec (.getVoiceWaveform k) s = .next t → exec (.readVoiceRing k) s = .next u →
    let raw := u.resp.drop s.resp.length ++ pending u
    t.resp.drop s.resp.length ++ pending t = raw.drop s.wi ++ raw.take s.wi

/-- 43_waveform_capture.md R185: only CREATE, DESTROY and RESET touch a ring `k >= VC`; every other command, PROCESS_BLOCK
with any frames included, leaves every slot of it as it was. -/
def Obligations.InactiveRingsKeepTheirContents : Prop :=
  ∀ (s t : State) (i : Instr), s.InRange → exec i s = .next t →
    (∀ x, i ≠ .create x) → i ≠ .destroy → i ≠ .reset →
    ∀ k j, s.vc.toNat ≤ k → k < 16 → memRead t.wm (ringIndex k j) = memRead s.wm (ringIndex k j)

/-- 43_waveform_capture.md R186: after at least `W` sample steps GET_VOICE_WAVEFORM answers, for an active voice, the tap's
outputs of the last `W` sample steps, oldest first. Derived: how it waits on a full response port is the model's choice
(log entry 10). -/
def Obligations.RotatedViewShowsTheLastOutputs : Prop :=
  ∀ (s : State) (fs : List (F32 × F32)) (k : Nat), s.InRange → s.faulted = false → s.alive = true → k < s.vc.toNat →
    s.ringLen ≤ fs.length →
    Answers (.getVoiceWaveform k) 2
      ((List.range s.ringLen).map fun i => tapWord (runFrames (fs.take (fs.length - s.ringLen + i)) s) k)
      (runFrames fs s)

/-! ## Host adaptor -/

/-- 44_lifecycle_and_host.md R203 and R204: a call with a null handle or a null buffer sends no command and returns nothing,
or 0 for `get_voice_count`; `get_waveform_size` takes no handle and is unaffected. Derived: that `get_voice_waveform` with a
null handle returns nothing, and that a call returns nothing for a null buffer, is the model's choice (log entry 21). -/
def Obligations.NullHandlesSendNothing : Prop :=
  (∀ (alive : Bool) (v : F32) (n : Int) (li ri : Option (List F32)) (lo ro out : Bool) (count k : Nat)
      (sli sri : List F32) (loLen roLen : Nat),
    ∀ c ∈ [HostCall.destroy false, .setSampleRate false v, .setDelayTime false v, .setFeedback false v, .setMix false v,
        .setVoiceCount false n, .process false li ri lo ro count, .processSlices false sli sri loLen roLen, .reset false,
        .getVoiceWaveform false k out],
      adaptorWords alive c = [] ∧ adaptorReturn c [] = .nothing) ∧
  ∀ (alive h : Bool) (li ri : Option (List F32)) (lo ro : Bool) (count k : Nat),
    (adaptorWords alive (.getVoiceCount false) = [] ∧ adaptorReturn (.getVoiceCount false) [] = .word 0) ∧
    adaptorWords alive .getWaveformSize = [0x00000040] ∧
    (li = none ∨ ri = none ∨ lo = false ∨ ro = false →
      adaptorWords alive (.process h li ri lo ro count) = [] ∧
      adaptorReturn (.process h li ri lo ro count) [] = .nothing) ∧
    adaptorWords alive (.getVoiceWaveform h k false) = [] ∧ adaptorReturn (.getVoiceWaveform h k false) [] = .nothing

/-- 44_lifecycle_and_host.md R206: exact in-place aliasing, frame by frame, leaves in the buffer the words the host takes when
it sends all frames first and keeps its buffers apart, whatever the response port holds. -/
def Obligations.InPlaceEqualsSeparateBuffers : Prop :=
  ∀ (s : State) (total : Nat) (fs : List (F32 × F32)), s.faulted = false → s.port = [] → s.resp = [] →
    s.busy = some (.input total fs.length) → 0 < fs.length → (∀ c, s.respCap = some c → 1 ≤ c) →
    portOfFrames (processInPlace fs.length 0 fs s).1 =
      (takeWords (2 * fs.length) (s.send (portOfFrames fs))).1

/-! ## Back-pressure -/

/-- Back-pressure only delays (44_lifecycle_and_host.md R209 (c), 60_exceptions.md R224): with any capacity of the response
port the block goes through the states it would go through if the host took every word as it came, no word dropped or
changed; a step of a command that waits for room changes nothing but how far it has got, and any other step is that
state's step; and words taken by the host are taken alike. A waiting command emits what has room and goes on when all has
gone out. Derived: the capacity and the steps in which a command waits are the model's (log entries 8 and 10). -/
def Obligations.BackPressureOnlyDelays : Prop :=
  (∀ s t : State, step s = .next t →
    ((∃ ws after, s.busy = some (.output ws after)) → unstalled t = unstalled s) ∧
    ((∀ ws after, s.busy ≠ some (.output ws after)) → step (unstalled s) = .next (unstalled t))) ∧
  (∀ (s : State) (k : Nat), k ≤ s.resp.length → unstalled (s.drain k) = (unstalled s).drain k) ∧
  ∀ (s : State) (ws : List Word) (after : After), s.faulted = false → s.busy = some (.output ws after) →
    (∀ c, s.respCap = some c → c - s.resp.length < ws.length →
      step s = .next { s with
        resp := s.resp ++ ws.take (c - s.resp.length)
        busy := some (.output (ws.drop (c - s.resp.length)) after) }) ∧
    (∀ k, s.hasRoom ws.length → after = .command k →
      step s = .next { s with resp := s.resp ++ ws, busy := none, cp := s.cp + k }) ∧
    ∀ total left, s.hasRoom ws.length → after = .sampleStep total left →
      step s = .next (runBlock total left { s with
        resp := s.resp ++ ws, wc := BitVec.ofNat 18 ((s.wc.toNat + 1) % 192000), wi := (s.wi + 1) % s.ringLen })
end

