-- ==== Sys2Proof/Laws/State.lean ====
section
/-!
SUPPORT. One lemma per field per update of State: what each shared operation does to each field.
-/

namespace Sys2Proof.Machine

/-! ## `emitAll` -/

@[simp] theorem emitAll_sr (ws : List Word) (s : State) :
    (emitAll ws s).sr = s.sr := rfl
@[simp] theorem emitAll_dt (ws : List Word) (s : State) :
    (emitAll ws s).dt = s.dt := rfl
@[simp] theorem emitAll_fb (ws : List Word) (s : State) :
    (emitAll ws s).fb = s.fb := rfl
@[simp] theorem emitAll_mx (ws : List Word) (s : State) :
    (emitAll ws s).mx = s.mx := rfl
@[simp] theorem emitAll_vc (ws : List Word) (s : State) :
    (emitAll ws s).vc = s.vc := rfl
@[simp] theorem emitAll_bd (ws : List Word) (s : State) :
    (emitAll ws s).bd = s.bd := rfl
@[simp] theorem emitAll_wc (ws : List Word) (s : State) :
    (emitAll ws s).wc = s.wc := rfl
@[simp] theorem emitAll_wi (ws : List Word) (s : State) :
    (emitAll ws s).wi = s.wi := rfl
@[simp] theorem emitAll_alive (ws : List Word) (s : State) :
    (emitAll ws s).alive = s.alive := rfl
@[simp] theorem emitAll_cp (ws : List Word) (s : State) :
    (emitAll ws s).cp = s.cp := rfl
@[simp] theorem emitAll_faulted (ws : List Word) (s : State) :
    (emitAll ws s).faulted = s.faulted := rfl
@[simp] theorem emitAll_faultInfo (ws : List Word) (s : State) :
    (emitAll ws s).faultInfo = s.faultInfo := rfl
@[simp] theorem emitAll_dm (ws : List Word) (s : State) :
    (emitAll ws s).dm = s.dm := rfl
@[simp] theorem emitAll_wm (ws : List Word) (s : State) :
    (emitAll ws s).wm = s.wm := rfl
@[simp] theorem emitAll_port (ws : List Word) (s : State) :
    (emitAll ws s).port = s.port := rfl
@[simp] theorem emitAll_resp (ws : List Word) (s : State) :
    (emitAll ws s).resp = s.resp ++ ws := rfl
@[simp] theorem emitAll_respCap (ws : List Word) (s : State) :
    (emitAll ws s).respCap = s.respCap := rfl
@[simp] theorem emitAll_busy (ws : List Word) (s : State) :
    (emitAll ws s).busy = s.busy := rfl
@[simp] theorem emitAll_ringLen (ws : List Word) (s : State) :
    (emitAll ws s).ringLen = s.ringLen := rfl
@[simp] theorem emitAll_draw (ws : List Word) (s : State) :
    (emitAll ws s).draw = s.draw := rfl

/-! ## `complete` -/

@[simp] theorem complete_sr (k : Nat) (s : State) :
    (complete k s).sr = s.sr := rfl
@[simp] theorem complete_dt (k : Nat) (s : State) :
    (complete k s).dt = s.dt := rfl
@[simp] theorem complete_fb (k : Nat) (s : State) :
    (complete k s).fb = s.fb := rfl
@[simp] theorem complete_mx (k : Nat) (s : State) :
    (complete k s).mx = s.mx := rfl
@[simp] theorem complete_vc (k : Nat) (s : State) :
    (complete k s).vc = s.vc := rfl
@[simp] theorem complete_bd (k : Nat) (s : State) :
    (complete k s).bd = s.bd := rfl
@[simp] theorem complete_wc (k : Nat) (s : State) :
    (complete k s).wc = s.wc := rfl
@[simp] theorem complete_wi (k : Nat) (s : State) :
    (complete k s).wi = s.wi := rfl
@[simp] theorem complete_alive (k : Nat) (s : State) :
    (complete k s).alive = s.alive := rfl
@[simp] theorem complete_cp (k : Nat) (s : State) :
    (complete k s).cp = s.cp + k := rfl
@[simp] theorem complete_faulted (k : Nat) (s : State) :
    (complete k s).faulted = s.faulted := rfl
@[simp] theorem complete_faultInfo (k : Nat) (s : State) :
    (complete k s).faultInfo = s.faultInfo := rfl
@[simp] theorem complete_dm (k : Nat) (s : State) :
    (complete k s).dm = s.dm := rfl
@[simp] theorem complete_wm (k : Nat) (s : State) :
    (complete k s).wm = s.wm := rfl
@[simp] theorem complete_port (k : Nat) (s : State) :
    (complete k s).port = s.port.drop k := rfl
@[simp] theorem complete_resp (k : Nat) (s : State) :
    (complete k s).resp = s.resp := rfl
@[simp] theorem complete_respCap (k : Nat) (s : State) :
    (complete k s).respCap = s.respCap := rfl
@[simp] theorem complete_busy (k : Nat) (s : State) :
    (complete k s).busy = s.busy := rfl
@[simp] theorem complete_ringLen (k : Nat) (s : State) :
    (complete k s).ringLen = s.ringLen := rfl
@[simp] theorem complete_draw (k : Nat) (s : State) :
    (complete k s).draw = s.draw := rfl

/-! ## `skipIllegal` -/

@[simp] theorem skipIllegal_sr (s : State) :
    (skipIllegal s).sr = s.sr := rfl
@[simp] theorem skipIllegal_dt (s : State) :
    (skipIllegal s).dt = s.dt := rfl
@[simp] theorem skipIllegal_fb (s : State) :
    (skipIllegal s).fb = s.fb := rfl
@[simp] theorem skipIllegal_mx (s : State) :
    (skipIllegal s).mx = s.mx := rfl
@[simp] theorem skipIllegal_vc (s : State) :
    (skipIllegal s).vc = s.vc := rfl
@[simp] theorem skipIllegal_bd (s : State) :
    (skipIllegal s).bd = s.bd := rfl
@[simp] theorem skipIllegal_wc (s : State) :
    (skipIllegal s).wc = s.wc := rfl
@[simp] theorem skipIllegal_wi (s : State) :
    (skipIllegal s).wi = s.wi := rfl
@[simp] theorem skipIllegal_alive (s : State) :
    (skipIllegal s).alive = s.alive := rfl
@[simp] theorem skipIllegal_cp (s : State) :
    (skipIllegal s).cp = s.cp + 1 := rfl
@[simp] theorem skipIllegal_faulted (s : State) :
    (skipIllegal s).faulted = s.faulted := rfl
@[simp] theorem skipIllegal_faultInfo (s : State) :
    (skipIllegal s).faultInfo = s.faultInfo := rfl
@[simp] theorem skipIllegal_dm (s : State) :
    (skipIllegal s).dm = s.dm := rfl
@[simp] theorem skipIllegal_wm (s : State) :
    (skipIllegal s).wm = s.wm := rfl
@[simp] theorem skipIllegal_port (s : State) :
    (skipIllegal s).port = s.port.drop 1 := rfl
@[simp] theorem skipIllegal_resp (s : State) :
    (skipIllegal s).resp = s.resp := rfl
@[simp] theorem skipIllegal_respCap (s : State) :
    (skipIllegal s).respCap = s.respCap := rfl
@[simp] theorem skipIllegal_busy (s : State) :
    (skipIllegal s).busy = s.busy := rfl
@[simp] theorem skipIllegal_ringLen (s : State) :
    (skipIllegal s).ringLen = s.ringLen := rfl
@[simp] theorem skipIllegal_draw (s : State) :
    (skipIllegal s).draw = s.draw := rfl

/-! ## `raiseFault` -/

@[simp] theorem raiseFault_sr (code : Nat) (s : State) :
    (raiseFault code s).sr = s.sr := rfl
@[simp] theorem raiseFault_dt (code : Nat) (s : State) :
    (raiseFault code s).dt = s.dt := rfl
@[simp] theorem raiseFault_fb (code : Nat) (s : State) :
    (raiseFault code s).fb = s.fb := rfl
@[simp] theorem raiseFault_mx (code : Nat) (s : State) :
    (raiseFault code s).mx = s.mx := rfl
@[simp] theorem raiseFault_vc (code : Nat) (s : State) :
    (raiseFault code s).vc = s.vc := rfl
@[simp] theorem raiseFault_bd (code : Nat) (s : State) :
    (raiseFault code s).bd = s.bd := rfl
@[simp] theorem raiseFault_wc (code : Nat) (s : State) :
    (raiseFault code s).wc = s.wc := rfl
@[simp] theorem raiseFault_wi (code : Nat) (s : State) :
    (raiseFault code s).wi = s.wi := rfl
@[simp] theorem raiseFault_alive (code : Nat) (s : State) :
    (raiseFault code s).alive = s.alive := rfl
@[simp] theorem raiseFault_cp (code : Nat) (s : State) :
    (raiseFault code s).cp = s.cp + 1 := rfl
@[simp] theorem raiseFault_faulted (code : Nat) (s : State) :
    (raiseFault code s).faulted = true := rfl
@[simp] theorem raiseFault_faultInfo (code : Nat) (s : State) :
    (raiseFault code s).faultInfo = ⟨code, s.cp⟩ := rfl
@[simp] theorem raiseFault_dm (code : Nat) (s : State) :
    (raiseFault code s).dm = s.dm := rfl
@[simp] theorem raiseFault_wm (code : Nat) (s : State) :
    (raiseFault code s).wm = s.wm := rfl
@[simp] theorem raiseFault_port (code : Nat) (s : State) :
    (raiseFault code s).port = s.port.drop 1 := rfl
@[simp] theorem raiseFault_resp (code : Nat) (s : State) :
    (raiseFault code s).resp = s.resp := rfl
@[simp] theorem raiseFault_respCap (code : Nat) (s : State) :
    (raiseFault code s).respCap = s.respCap := rfl
@[simp] theorem raiseFault_busy (code : Nat) (s : State) :
    (raiseFault code s).busy = s.busy := rfl
@[simp] theorem raiseFault_ringLen (code : Nat) (s : State) :
    (raiseFault code s).ringLen = s.ringLen := rfl
@[simp] theorem raiseFault_draw (code : Nat) (s : State) :
    (raiseFault code s).draw = s.draw := rfl

/-! ## `send` -/

@[simp] theorem send_sr (s : State) (ws : List Word) :
    (s.send ws).sr = s.sr := rfl
@[simp] theorem send_dt (s : State) (ws : List Word) :
    (s.send ws).dt = s.dt := rfl
@[simp] theorem send_fb (s : State) (ws : List Word) :
    (s.send ws).fb = s.fb := rfl
@[simp] theorem send_mx (s : State) (ws : List Word) :
    (s.send ws).mx = s.mx := rfl
@[simp] theorem send_vc (s : State) (ws : List Word) :
    (s.send ws).vc = s.vc := rfl
@[simp] theorem send_bd (s : State) (ws : List Word) :
    (s.send ws).bd = s.bd := rfl
@[simp] theorem send_wc (s : State) (ws : List Word) :
    (s.send ws).wc = s.wc := rfl
@[simp] theorem send_wi (s : State) (ws : List Word) :
    (s.send ws).wi = s.wi := rfl
@[simp] theorem send_alive (s : State) (ws : List Word) :
    (s.send ws).alive = s.alive := rfl
@[simp] theorem send_cp (s : State) (ws : List Word) :
    (s.send ws).cp = s.cp := rfl
@[simp] theorem send_faulted (s : State) (ws : List Word) :
    (s.send ws).faulted = s.faulted := rfl
@[simp] theorem send_faultInfo (s : State) (ws : List Word) :
    (s.send ws).faultInfo = s.faultInfo := rfl
@[simp] theorem send_dm (s : State) (ws : List Word) :
    (s.send ws).dm = s.dm := rfl
@[simp] theorem send_wm (s : State) (ws : List Word) :
    (s.send ws).wm = s.wm := rfl
@[simp] theorem send_port (s : State) (ws : List Word) :
    (s.send ws).port = s.port ++ ws := rfl
@[simp] theorem send_resp (s : State) (ws : List Word) :
    (s.send ws).resp = s.resp := rfl
@[simp] theorem send_respCap (s : State) (ws : List Word) :
    (s.send ws).respCap = s.respCap := rfl
@[simp] theorem send_busy (s : State) (ws : List Word) :
    (s.send ws).busy = s.busy := rfl
@[simp] theorem send_ringLen (s : State) (ws : List Word) :
    (s.send ws).ringLen = s.ringLen := rfl
@[simp] theorem send_draw (s : State) (ws : List Word) :
    (s.send ws).draw = s.draw := rfl

/-! ## `drain` -/

@[simp] theorem drain_sr (s : State) (k : Nat) :
    (s.drain k).sr = s.sr := rfl
@[simp] theorem drain_dt (s : State) (k : Nat) :
    (s.drain k).dt = s.dt := rfl
@[simp] theorem drain_fb (s : State) (k : Nat) :
    (s.drain k).fb = s.fb := rfl
@[simp] theorem drain_mx (s : State) (k : Nat) :
    (s.drain k).mx = s.mx := rfl
@[simp] theorem drain_vc (s : State) (k : Nat) :
    (s.drain k).vc = s.vc := rfl
@[simp] theorem drain_bd (s : State) (k : Nat) :
    (s.drain k).bd = s.bd := rfl
@[simp] theorem drain_wc (s : State) (k : Nat) :
    (s.drain k).wc = s.wc := rfl
@[simp] theorem drain_wi (s : State) (k : Nat) :
    (s.drain k).wi = s.wi := rfl
@[simp] theorem drain_alive (s : State) (k : Nat) :
    (s.drain k).alive = s.alive := rfl
@[simp] theorem drain_cp (s : State) (k : Nat) :
    (s.drain k).cp = s.cp := rfl
@[simp] theorem drain_faulted (s : State) (k : Nat) :
    (s.drain k).faulted = s.faulted := rfl
@[simp] theorem drain_faultInfo (s : State) (k : Nat) :
    (s.drain k).faultInfo = s.faultInfo := rfl
@[simp] theorem drain_dm (s : State) (k : Nat) :
    (s.drain k).dm = s.dm := rfl
@[simp] theorem drain_wm (s : State) (k : Nat) :
    (s.drain k).wm = s.wm := rfl
@[simp] theorem drain_port (s : State) (k : Nat) :
    (s.drain k).port = s.port := rfl
@[simp] theorem drain_resp (s : State) (k : Nat) :
    (s.drain k).resp = s.resp.drop k := rfl
@[simp] theorem drain_respCap (s : State) (k : Nat) :
    (s.drain k).respCap = s.respCap := rfl
@[simp] theorem drain_busy (s : State) (k : Nat) :
    (s.drain k).busy = s.busy := rfl
@[simp] theorem drain_ringLen (s : State) (k : Nat) :
    (s.drain k).ringLen = s.ringLen := rfl
@[simp] theorem drain_draw (s : State) (k : Nat) :
    (s.drain k).draw = s.draw := rfl

/-! ## `freshInstance` -/

@[simp] theorem freshInstance_sr (rate : F32) (s : State) :
    (freshInstance rate s).sr = rate := rfl
@[simp] theorem freshInstance_dt (rate : F32) (s : State) :
    (freshInstance rate s).dt = Config.defaultDelayTime := rfl
@[simp] theorem freshInstance_fb (rate : F32) (s : State) :
    (freshInstance rate s).fb = Config.defaultFeedback := rfl
@[simp] theorem freshInstance_mx (rate : F32) (s : State) :
    (freshInstance rate s).mx = Config.defaultMix := rfl
@[simp] theorem freshInstance_vc (rate : F32) (s : State) :
    (freshInstance rate s).vc = 1 := rfl
@[simp] theorem freshInstance_bd (rate : F32) (s : State) :
    (freshInstance rate s).bd = s.bd := rfl
@[simp] theorem freshInstance_wc (rate : F32) (s : State) :
    (freshInstance rate s).wc = 0 := rfl
@[simp] theorem freshInstance_wi (rate : F32) (s : State) :
    (freshInstance rate s).wi = 0 := rfl
@[simp] theorem freshInstance_alive (rate : F32) (s : State) :
    (freshInstance rate s).alive = true := rfl
@[simp] theorem freshInstance_cp (rate : F32) (s : State) :
    (freshInstance rate s).cp = s.cp := rfl
@[simp] theorem freshInstance_faulted (rate : F32) (s : State) :
    (freshInstance rate s).faulted = s.faulted := rfl
@[simp] theorem freshInstance_faultInfo (rate : F32) (s : State) :
    (freshInstance rate s).faultInfo = s.faultInfo := rfl
@[simp] theorem freshInstance_dm (rate : F32) (s : State) :
    (freshInstance rate s).dm = dmFill0 := rfl
@[simp] theorem freshInstance_wm (rate : F32) (s : State) :
    (freshInstance rate s).wm = wmFill0 := rfl
@[simp] theorem freshInstance_port (rate : F32) (s : State) :
    (freshInstance rate s).port = s.port := rfl
@[simp] theorem freshInstance_resp (rate : F32) (s : State) :
    (freshInstance rate s).resp = s.resp := rfl
@[simp] theorem freshInstance_respCap (rate : F32) (s : State) :
    (freshInstance rate s).respCap = s.respCap := rfl
@[simp] theorem freshInstance_busy (rate : F32) (s : State) :
    (freshInstance rate s).busy = s.busy := rfl
@[simp] theorem freshInstance_ringLen (rate : F32) (s : State) :
    (freshInstance rate s).ringLen = s.ringLen := rfl
@[simp] theorem freshInstance_draw (rate : F32) (s : State) :
    (freshInstance rate s).draw = s.draw := rfl

/-! ## `releasedInstance` -/

@[simp] theorem releasedInstance_sr (s : State) :
    (releasedInstance s).sr = BitVec.ofNat 32 (Config.freeReg .sr s.draw) := rfl
@[simp] theorem releasedInstance_dt (s : State) :
    (releasedInstance s).dt = freeInRange Config.delayTimeMax (Config.freeReg .dt s.draw) := rfl
@[simp] theorem releasedInstance_fb (s : State) :
    (releasedInstance s).fb = freeInRange Config.one (Config.freeReg .fb s.draw) := rfl
@[simp] theorem releasedInstance_mx (s : State) :
    (releasedInstance s).mx = freeInRange Config.one (Config.freeReg .mx s.draw) := rfl
@[simp] theorem releasedInstance_vc (s : State) :
    (releasedInstance s).vc = BitVec.ofNat 5 (Config.freeReg .vc s.draw % 16 + 1) := rfl
@[simp] theorem releasedInstance_bd (s : State) :
    (releasedInstance s).bd = BitVec.ofNat 14 (Config.freeReg .bd s.draw % 11999 + 1) := rfl
@[simp] theorem releasedInstance_wc (s : State) :
    (releasedInstance s).wc = BitVec.ofNat 18 (Config.freeReg .wc s.draw % 192000) := rfl
@[simp] theorem releasedInstance_wi (s : State) :
    (releasedInstance s).wi = Config.freeReg .wi s.draw % s.ringLen := rfl
@[simp] theorem releasedInstance_alive (s : State) :
    (releasedInstance s).alive = false := rfl
@[simp] theorem releasedInstance_cp (s : State) :
    (releasedInstance s).cp = s.cp := rfl
@[simp] theorem releasedInstance_faulted (s : State) :
    (releasedInstance s).faulted = s.faulted := rfl
@[simp] theorem releasedInstance_faultInfo (s : State) :
    (releasedInstance s).faultInfo = s.faultInfo := rfl
@[simp] theorem releasedInstance_dm (s : State) :
    (releasedInstance s).dm = memOfCells 192000 (Config.freeCells .dm s.draw) := rfl
@[simp] theorem releasedInstance_wm (s : State) :
    (releasedInstance s).wm = memOfCells (16 * s.ringLen) (Config.freeCells .wm s.draw) := rfl
@[simp] theorem releasedInstance_port (s : State) :
    (releasedInstance s).port = s.port := rfl
@[simp] theorem releasedInstance_resp (s : State) :
    (releasedInstance s).resp = s.resp := rfl
@[simp] theorem releasedInstance_respCap (s : State) :
    (releasedInstance s).respCap = s.respCap := rfl
@[simp] theorem releasedInstance_busy (s : State) :
    (releasedInstance s).busy = s.busy := rfl
@[simp] theorem releasedInstance_ringLen (s : State) :
    (releasedInstance s).ringLen = s.ringLen := rfl
@[simp] theorem releasedInstance_draw (s : State) :
    (releasedInstance s).draw = s.draw + 1 := rfl

/-! ## `startBlock` -/

@[simp] theorem startBlock_sr (s : State) :
    (startBlock s).sr = s.sr := by simp only [startBlock]
@[simp] theorem startBlock_dt (s : State) :
    (startBlock s).dt = s.dt := by simp only [startBlock]
@[simp] theorem startBlock_fb (s : State) :
    (startBlock s).fb = s.fb := by simp only [startBlock]
@[simp] theorem startBlock_mx (s : State) :
    (startBlock s).mx = s.mx := by simp only [startBlock]
@[simp] theorem startBlock_vc (s : State) :
    (startBlock s).vc = s.vc := by simp only [startBlock]
@[simp] theorem startBlock_bd (s : State) :
    (startBlock s).bd = BitVec.ofNat 14 (baseDelay s.draw s.dt s.sr) := by simp only [startBlock]
@[simp] theorem startBlock_wc (s : State) :
    (startBlock s).wc = s.wc := by simp only [startBlock]
@[simp] theorem startBlock_wi (s : State) :
    (startBlock s).wi = s.wi := by simp only [startBlock]
@[simp] theorem startBlock_alive (s : State) :
    (startBlock s).alive = s.alive := by simp only [startBlock]
@[simp] theorem startBlock_cp (s : State) :
    (startBlock s).cp = s.cp := by simp only [startBlock]
@[simp] theorem startBlock_faulted (s : State) :
    (startBlock s).faulted = s.faulted := by simp only [startBlock]
@[simp] theorem startBlock_faultInfo (s : State) :
    (startBlock s).faultInfo = s.faultInfo := by simp only [startBlock]
@[simp] theorem startBlock_dm (s : State) :
    (startBlock s).dm = s.dm := by simp only [startBlock]
@[simp] theorem startBlock_wm (s : State) :
    (startBlock s).wm = s.wm := by simp only [startBlock]
@[simp] theorem startBlock_port (s : State) :
    (startBlock s).port = s.port.drop 5 := by simp only [startBlock]
@[simp] theorem startBlock_resp (s : State) :
    (startBlock s).resp = s.resp := by simp only [startBlock]
@[simp] theorem startBlock_respCap (s : State) :
    (startBlock s).respCap = s.respCap := by simp only [startBlock]
@[simp] theorem startBlock_busy (s : State) :
    (startBlock s).busy = s.busy := by simp only [startBlock]
@[simp] theorem startBlock_ringLen (s : State) :
    (startBlock s).ringLen = s.ringLen := by simp only [startBlock]
@[simp] theorem startBlock_draw (s : State) :
    (startBlock s).draw = s.draw := by simp only [startBlock]

/-! ## `finishBlock` -/

@[simp] theorem finishBlock_sr (total : Nat) (s : State) :
    (finishBlock total s).sr = s.sr := rfl
@[simp] theorem finishBlock_dt (total : Nat) (s : State) :
    (finishBlock total s).dt = s.dt := rfl
@[simp] theorem finishBlock_fb (total : Nat) (s : State) :
    (finishBlock total s).fb = s.fb := rfl
@[simp] theorem finishBlock_mx (total : Nat) (s : State) :
    (finishBlock total s).mx = s.mx := rfl
@[simp] theorem finishBlock_vc (total : Nat) (s : State) :
    (finishBlock total s).vc = s.vc := rfl
@[simp] theorem finishBlock_bd (total : Nat) (s : State) :
    (finishBlock total s).bd = s.bd := rfl
@[simp] theorem finishBlock_wc (total : Nat) (s : State) :
    (finishBlock total s).wc = s.wc := rfl
@[simp] theorem finishBlock_wi (total : Nat) (s : State) :
    (finishBlock total s).wi = s.wi := rfl
@[simp] theorem finishBlock_alive (total : Nat) (s : State) :
    (finishBlock total s).alive = s.alive := rfl
@[simp] theorem finishBlock_cp (total : Nat) (s : State) :
    (finishBlock total s).cp = s.cp + (5 + 2 * total) := rfl
@[simp] theorem finishBlock_faulted (total : Nat) (s : State) :
    (finishBlock total s).faulted = s.faulted := rfl
@[simp] theorem finishBlock_faultInfo (total : Nat) (s : State) :
    (finishBlock total s).faultInfo = s.faultInfo := rfl
@[simp] theorem finishBlock_dm (total : Nat) (s : State) :
    (finishBlock total s).dm = s.dm := rfl
@[simp] theorem finishBlock_wm (total : Nat) (s : State) :
    (finishBlock total s).wm = s.wm := rfl
@[simp] theorem finishBlock_port (total : Nat) (s : State) :
    (finishBlock total s).port = s.port := rfl
@[simp] theorem finishBlock_resp (total : Nat) (s : State) :
    (finishBlock total s).resp = s.resp := rfl
@[simp] theorem finishBlock_respCap (total : Nat) (s : State) :
    (finishBlock total s).respCap = s.respCap := rfl
@[simp] theorem finishBlock_busy (total : Nat) (s : State) :
    (finishBlock total s).busy = none := rfl
@[simp] theorem finishBlock_ringLen (total : Nat) (s : State) :
    (finishBlock total s).ringLen = s.ringLen := rfl
@[simp] theorem finishBlock_draw (total : Nat) (s : State) :
    (finishBlock total s).draw = s.draw := rfl

/-! ## `sampleWrites` -/

@[simp] theorem sampleWrites_sr (l r : F32) (s : State) :
    (sampleWrites l r s).sr = s.sr := by simp only [sampleWrites]
@[simp] theorem sampleWrites_dt (l r : F32) (s : State) :
    (sampleWrites l r s).dt = s.dt := by simp only [sampleWrites]
@[simp] theorem sampleWrites_fb (l r : F32) (s : State) :
    (sampleWrites l r s).fb = s.fb := by simp only [sampleWrites]
@[simp] theorem sampleWrites_mx (l r : F32) (s : State) :
    (sampleWrites l r s).mx = s.mx := by simp only [sampleWrites]
@[simp] theorem sampleWrites_vc (l r : F32) (s : State) :
    (sampleWrites l r s).vc = s.vc := by simp only [sampleWrites]
@[simp] theorem sampleWrites_bd (l r : F32) (s : State) :
    (sampleWrites l r s).bd = s.bd := by simp only [sampleWrites]
@[simp] theorem sampleWrites_wc (l r : F32) (s : State) :
    (sampleWrites l r s).wc = s.wc := by simp only [sampleWrites]
@[simp] theorem sampleWrites_wi (l r : F32) (s : State) :
    (sampleWrites l r s).wi = s.wi := by simp only [sampleWrites]
@[simp] theorem sampleWrites_alive (l r : F32) (s : State) :
    (sampleWrites l r s).alive = s.alive := by simp only [sampleWrites]
@[simp] theorem sampleWrites_cp (l r : F32) (s : State) :
    (sampleWrites l r s).cp = s.cp := by simp only [sampleWrites]
@[simp] theorem sampleWrites_faulted (l r : F32) (s : State) :
    (sampleWrites l r s).faulted = s.faulted := by simp only [sampleWrites]
@[simp] theorem sampleWrites_faultInfo (l r : F32) (s : State) :
    (sampleWrites l r s).faultInfo = s.faultInfo := by simp only [sampleWrites]
@[simp] theorem sampleWrites_dm (l r : F32) (s : State) :
    (sampleWrites l r s).dm = dmWrite s.dm s.wc.toNat
      (delayLineWord s.draw s.fb (monoInput s.draw l r) (tapLoop s).last) := by simp only [sampleWrites]
@[simp] theorem sampleWrites_wm (l r : F32) (s : State) :
    (sampleWrites l r s).wm = (tapLoop s).wm := by simp only [sampleWrites]
@[simp] theorem sampleWrites_port (l r : F32) (s : State) :
    (sampleWrites l r s).port = s.port := by simp only [sampleWrites]
@[simp] theorem sampleWrites_resp (l r : F32) (s : State) :
    (sampleWrites l r s).resp = s.resp := by simp only [sampleWrites]
@[simp] theorem sampleWrites_respCap (l r : F32) (s : State) :
    (sampleWrites l r s).respCap = s.respCap := by simp only [sampleWrites]
@[simp] theorem sampleWrites_busy (l r : F32) (s : State) :
    (sampleWrites l r s).busy = s.busy := by simp only [sampleWrites]
@[simp] theorem sampleWrites_ringLen (l r : F32) (s : State) :
    (sampleWrites l r s).ringLen = s.ringLen := by simp only [sampleWrites]
@[simp] theorem sampleWrites_draw (l r : F32) (s : State) :
    (sampleWrites l r s).draw = s.draw + 1 := by simp only [sampleWrites]

/-! ## `advanceCursors` -/

@[simp] theorem advanceCursors_sr (s : State) :
    (advanceCursors s).sr = s.sr := rfl
@[simp] theorem advanceCursors_dt (s : State) :
    (advanceCursors s).dt = s.dt := rfl
@[simp] theorem advanceCursors_fb (s : State) :
    (advanceCursors s).fb = s.fb := rfl
@[simp] theorem advanceCursors_mx (s : State) :
    (advanceCursors s).mx = s.mx := rfl
@[simp] theorem advanceCursors_vc (s : State) :
    (advanceCursors s).vc = s.vc := rfl
@[simp] theorem advanceCursors_bd (s : State) :
    (advanceCursors s).bd = s.bd := rfl
@[simp] theorem advanceCursors_wc (s : State) :
    (advanceCursors s).wc = nextWriteCursor s.wc := rfl
@[simp] theorem advanceCursors_wi (s : State) :
    (advanceCursors s).wi = (s.wi + 1) % s.ringLen := rfl
@[simp] theorem advanceCursors_alive (s : State) :
    (advanceCursors s).alive = s.alive := rfl
@[simp] theorem advanceCursors_cp (s : State) :
    (advanceCursors s).cp = s.cp := rfl
@[simp] theorem advanceCursors_faulted (s : State) :
    (advanceCursors s).faulted = s.faulted := rfl
@[simp] theorem advanceCursors_faultInfo (s : State) :
    (advanceCursors s).faultInfo = s.faultInfo := rfl
@[simp] theorem advanceCursors_dm (s : State) :
    (advanceCursors s).dm = s.dm := rfl
@[simp] theorem advanceCursors_wm (s : State) :
    (advanceCursors s).wm = s.wm := rfl
@[simp] theorem advanceCursors_port (s : State) :
    (advanceCursors s).port = s.port := rfl
@[simp] theorem advanceCursors_resp (s : State) :
    (advanceCursors s).resp = s.resp := rfl
@[simp] theorem advanceCursors_respCap (s : State) :
    (advanceCursors s).respCap = s.respCap := rfl
@[simp] theorem advanceCursors_busy (s : State) :
    (advanceCursors s).busy = s.busy := rfl
@[simp] theorem advanceCursors_ringLen (s : State) :
    (advanceCursors s).ringLen = s.ringLen := rfl
@[simp] theorem advanceCursors_draw (s : State) :
    (advanceCursors s).draw = s.draw := rfl

/-! ## `sampleStep` -/

@[simp] theorem sampleStep_sr (l r : F32) (s : State) :
    (sampleStep l r s).sr = s.sr := by
  simp only [sampleStep, advanceCursors_sr, emitAll_sr, sampleWrites_sr]
@[simp] theorem sampleStep_dt (l r : F32) (s : State) :
    (sampleStep l r s).dt = s.dt := by
  simp only [sampleStep, advanceCursors_dt, emitAll_dt, sampleWrites_dt]
@[simp] theorem sampleStep_fb (l r : F32) (s : State) :
    (sampleStep l r s).fb = s.fb := by
  simp only [sampleStep, advanceCursors_fb, emitAll_fb, sampleWrites_fb]
@[simp] theorem sampleStep_mx (l r : F32) (s : State) :
    (sampleStep l r s).mx = s.mx := by
  simp only [sampleStep, advanceCursors_mx, emitAll_mx, sampleWrites_mx]
@[simp] theorem sampleStep_vc (l r : F32) (s : State) :
    (sampleStep l r s).vc = s.vc := by
  simp only [sampleStep, advanceCursors_vc, emitAll_vc, sampleWrites_vc]
@[simp] theorem sampleStep_bd (l r : F32) (s : State) :
    (sampleStep l r s).bd = s.bd := by
  simp only [sampleStep, advanceCursors_bd, emitAll_bd, sampleWrites_bd]
@[simp] theorem sampleStep_wc (l r : F32) (s : State) :
    (sampleStep l r s).wc = nextWriteCursor s.wc := by
  simp only [sampleStep, advanceCursors_wc, emitAll_wc, sampleWrites_wc]
@[simp] theorem sampleStep_wi (l r : F32) (s : State) :
    (sampleStep l r s).wi = (s.wi + 1) % s.ringLen := by
  simp only [sampleStep, advanceCursors_wi, emitAll_wi, sampleWrites_wi, emitAll_ringLen, sampleWrites_ringLen]
@[simp] theorem sampleStep_alive (l r : F32) (s : State) :
    (sampleStep l r s).alive = s.alive := by
  simp only [sampleStep, advanceCursors_alive, emitAll_alive, sampleWrites_alive]
@[simp] theorem sampleStep_cp (l r : F32) (s : State) :
    (sampleStep l r s).cp = s.cp := by
  simp only [sampleStep, advanceCursors_cp, emitAll_cp, sampleWrites_cp]
@[simp] theorem sampleStep_faulted (l r : F32) (s : State) :
    (sampleStep l r s).faulted = s.faulted := by
  simp only [sampleStep, advanceCursors_faulted, emitAll_faulted, sampleWrites_faulted]
@[simp] theorem sampleStep_faultInfo (l r : F32) (s : State) :
    (sampleStep l r s).faultInfo = s.faultInfo := by
  simp only [sampleStep, advanceCursors_faultInfo, emitAll_faultInfo, sampleWrites_faultInfo]
@[simp] theorem sampleStep_dm (l r : F32) (s : State) :
    (sampleStep l r s).dm = dmWrite s.dm s.wc.toNat
      (delayLineWord s.draw s.fb (monoInput s.draw l r) (tapLoop s).last) := by
  simp only [sampleStep, advanceCursors_dm, emitAll_dm, sampleWrites_dm]
@[simp] theorem sampleStep_wm (l r : F32) (s : State) :
    (sampleStep l r s).wm = (tapLoop s).wm := by
  simp only [sampleStep, advanceCursors_wm, emitAll_wm, sampleWrites_wm]
@[simp] theorem sampleStep_port (l r : F32) (s : State) :
    (sampleStep l r s).port = s.port := by
  simp only [sampleStep, advanceCursors_port, emitAll_port, sampleWrites_port]
@[simp] theorem sampleStep_resp (l r : F32) (s : State) :
    (sampleStep l r s).resp = s.resp ++ sampleOutputs l r s := by
  simp only [sampleStep, advanceCursors_resp, emitAll_resp, sampleWrites_resp]
@[simp] theorem sampleStep_respCap (l r : F32) (s : State) :
    (sampleStep l r s).respCap = s.respCap := by
  simp only [sampleStep, advanceCursors_respCap, emitAll_respCap, sampleWrites_respCap]
@[simp] theorem sampleStep_busy (l r : F32) (s : State) :
    (sampleStep l r s).busy = s.busy := by
  simp only [sampleStep, advanceCursors_busy, emitAll_busy, sampleWrites_busy]
@[simp] theorem sampleStep_ringLen (l r : F32) (s : State) :
    (sampleStep l r s).ringLen = s.ringLen := by
  simp only [sampleStep, advanceCursors_ringLen, emitAll_ringLen, sampleWrites_ringLen]
@[simp] theorem sampleStep_draw (l r : F32) (s : State) :
    (sampleStep l r s).draw = s.draw + 1 := by
  simp only [sampleStep, advanceCursors_draw, emitAll_draw, sampleWrites_draw]

/-! ## `placeWords` -/

@[simp] theorem placeWords_sr (ws : List Word) (s : State) :
    (placeWords ws s).sr = s.sr := rfl
@[simp] theorem placeWords_dt (ws : List Word) (s : State) :
    (placeWords ws s).dt = s.dt := rfl
@[simp] theorem placeWords_fb (ws : List Word) (s : State) :
    (placeWords ws s).fb = s.fb := rfl
@[simp] theorem placeWords_mx (ws : List Word) (s : State) :
    (placeWords ws s).mx = s.mx := rfl
@[simp] theorem placeWords_vc (ws : List Word) (s : State) :
    (placeWords ws s).vc = s.vc := rfl
@[simp] theorem placeWords_bd (ws : List Word) (s : State) :
    (placeWords ws s).bd = s.bd := rfl
@[simp] theorem placeWords_wc (ws : List Word) (s : State) :
    (placeWords ws s).wc = s.wc := rfl
@[simp] theorem placeWords_wi (ws : List Word) (s : State) :
    (placeWords ws s).wi = s.wi := rfl
@[simp] theorem placeWords_alive (ws : List Word) (s : State) :
    (placeWords ws s).alive = s.alive := rfl
@[simp] theorem placeWords_cp (ws : List Word) (s : State) :
    (placeWords ws s).cp = s.cp := rfl
@[simp] theorem placeWords_faulted (ws : List Word) (s : State) :
    (placeWords ws s).faulted = s.faulted := rfl
@[simp] theorem placeWords_faultInfo (ws : List Word) (s : State) :
    (placeWords ws s).faultInfo = s.faultInfo := rfl
@[simp] theorem placeWords_dm (ws : List Word) (s : State) :
    (placeWords ws s).dm = s.dm := rfl
@[simp] theorem placeWords_wm (ws : List Word) (s : State) :
    (placeWords ws s).wm = s.wm := rfl
@[simp] theorem placeWords_port (ws : List Word) (s : State) :
    (placeWords ws s).port = ws := rfl
@[simp] theorem placeWords_resp (ws : List Word) (s : State) :
    (placeWords ws s).resp = s.resp := rfl
@[simp] theorem placeWords_respCap (ws : List Word) (s : State) :
    (placeWords ws s).respCap = s.respCap := rfl
@[simp] theorem placeWords_busy (ws : List Word) (s : State) :
    (placeWords ws s).busy = none := rfl
@[simp] theorem placeWords_ringLen (ws : List Word) (s : State) :
    (placeWords ws s).ringLen = s.ringLen := rfl
@[simp] theorem placeWords_draw (ws : List Word) (s : State) :
    (placeWords ws s).draw = s.draw := rfl

end Sys2Proof.Machine
end

