-- ==== Sys2Proof/Laws/Exec.lean ====
section
/-!
SUPPORT. What a command can do, said once: the checks before it, and the state it leaves when it runs.
-/

namespace Sys2Proof.Machine

/-! ## The checks before a command (60_exceptions.md R221, R222) -/

theorem runAlways_stuck {s t : State} (h : s.faulted = true) : runAlways s t = .fault .stuckAfterFault := by
  simp [runAlways, h]

theorem runAlways_runs {s t : State} (h : s.faulted = false) : runAlways s t = .next t := by
  simp [runAlways, h]

theorem runAlive_stuck {s t : State} (h : s.faulted = true) : runAlive s t = .fault .stuckAfterFault := by
  simp [runAlive, h]

theorem runAlive_runs {s t : State} (h : s.faulted = false) (ha : s.alive = true) : runAlive s t = .next t := by
  simp [runAlive, h, ha]

theorem runAlive_raises {s t : State} (h : s.faulted = false) (ha : s.alive = false) :
    runAlive s t = .next (raiseFault Config.faultNoInstance s) := by
  simp [runAlive, h, ha]

/-- If a command that needs no instance answers a next state, the block was not stuck and the state is the command's. -/
theorem runAlways_next {s t u : State} (h : runAlways s t = .next u) : s.faulted = false ∧ u = t := by
  unfold runAlways at h
  split at h
  · cases h
  · next hf => exact ⟨by simpa using hf, (Host.Outcome.next.inj h).symm⟩

/-- If a command that needs an instance answers a next state, either there is one and the state is the command's, or there
is none and the fault was raised. -/
theorem runAlive_next {s t u : State} (h : runAlive s t = .next u) :
    s.faulted = false ∧ ((s.alive = true ∧ u = t) ∨ (s.alive = false ∧ u = raiseFault Config.faultNoInstance s)) := by
  unfold runAlive at h
  split at h
  · cases h
  · next hf =>
    refine ⟨by simpa using hf, ?_⟩
    split at h
    · next ha => exact .inl ⟨ha, (Host.Outcome.next.inj h).symm⟩
    · next ha => exact .inr ⟨by simpa using ha, (Host.Outcome.next.inj h).symm⟩

/-! ## The state a command leaves when it runs -/

/-- The effect of each command, without the checks before it. -/
def commandEffect : Instr → State → State
  | .create sr, s => complete 2 (freshInstance sr s)
  | .destroy, s => complete 1 (releasedInstance s)
  | .reset, s => complete 1 { s with dm := dmFill0, wm := wmFill0, wc := 0, wi := 0 }
  | .setSampleRate hz, s => complete 2 { s with sr := hz }
  | .setDelayTime ms, s => complete 2 { s with dt := clampFloat Config.delayTimeMax s.dt ms }
  | .setFeedback v, s => complete 2 { s with fb := clampFloat Config.one s.fb v }
  | .setMix v, s => complete 2 { s with mx := clampFloat Config.one s.mx v }
  | .setVoiceCount n, s => complete 2 { s with vc := BitVec.ofNat 5 (clampVoices n) }
  | .getSampleRate, s => respond 1 [s.sr] s
  | .getDelayTime, s => respond 1 [s.dt] s
  | .getFeedback, s => respond 1 [s.fb] s
  | .getMix, s => respond 1 [s.mx] s
  | .getVoiceCount, s => respond 1 [s.vc.setWidth 32] s
  | .getWriteCursor, s => respond 1 [s.wc.setWidth 32] s
  | .processBlock nli nri nlo nro, s =>
      runBlock (blockFrames nli nri nlo nro) (blockFrames nli nri nlo nro) (startBlock s)
  | .getWaveformSize, s => respond 1 [BitVec.ofNat 32 s.ringLen] s
  | .getWaveformIndex, s => respond 1 [BitVec.ofNat 32 s.wi] s
  | .getVoiceWaveform k, s => respond 2 (ringView s k fun i => (s.wi + i) % s.ringLen) s
  | .readVoiceRing k, s => respond 2 (ringView s k fun j => j) s

/-- Every command is its checks and its effect. -/
theorem exec_eq (i : Instr) (s : State) :
    exec i s = if needsInstance i.opcode then runAlive s (commandEffect i s) else runAlways s (commandEffect i s) := by
  cases i <;> rfl

/-- A command that runs leaves its effect. -/
theorem exec_runs {i : Instr} {s : State} (hf : s.faulted = false) (ha : needsInstance i.opcode = true → s.alive = true) :
    exec i s = .next (commandEffect i s) := by
  rw [exec_eq]
  split
  · next h => exact runAlive_runs hf (ha h)
  · exact runAlways_runs hf

/-- Once the block is stuck no command gets a step (60_exceptions.md R221). -/
theorem exec_stuck {i : Instr} {s : State} (hf : s.faulted = true) : exec i s = .fault .stuckAfterFault := by
  rw [exec_eq]
  split
  · exact runAlive_stuck hf
  · exact runAlways_stuck hf

/-- A command that needs an instance raises the fault when there is none (60_exceptions.md R222). -/
theorem exec_raises {i : Instr} {s : State} (hf : s.faulted = false) (hn : needsInstance i.opcode = true)
    (ha : s.alive = false) : exec i s = .next (raiseFault Config.faultNoInstance s) := by
  rw [exec_eq, if_pos hn]
  exact runAlive_raises hf ha

/-- If a command answers a next state, it is its effect or the raised fault. -/
theorem exec_next {i : Instr} {s t : State} (h : exec i s = .next t) :
    s.faulted = false ∧
      (((needsInstance i.opcode = true → s.alive = true) ∧ t = commandEffect i s) ∨
       (needsInstance i.opcode = true ∧ s.alive = false ∧ t = raiseFault Config.faultNoInstance s)) := by
  rw [exec_eq] at h
  split at h
  · next hn =>
    obtain ⟨hf, h⟩ := runAlive_next h
    refine ⟨hf, ?_⟩
    rcases h with ⟨ha, ht⟩ | ⟨ha, ht⟩
    · exact .inl ⟨fun _ => ha, ht⟩
    · exact .inr ⟨hn, ha, ht⟩
  · next hn =>
    obtain ⟨hf, ht⟩ := runAlways_next h
    exact ⟨hf, .inl ⟨fun h => absurd h hn, ht⟩⟩

end Sys2Proof.Machine
end

