-- ==== Sys2Proof/Laws/Float.lean ====
section
/-!
SUPPORT. The laws of binary32 arithmetic: patterns and the values they denote, rounding between two neighbouring
patterns, exact results, and how NaNs spread.
-/

namespace Sys2Proof.Machine

open Sys2Proof.Config (FloatOp)

/-! ## Patterns -/

theorem f32Mag_lt (x : F32) : f32Mag x < 2 ^ 31 := Nat.mod_lt _ (by decide)

theorem f32Neg_eq (x : F32) : f32Neg x = decide (2 ^ 31 ≤ x.toNat) := by
  simp [f32Neg, BitVec.msb_eq_decide]

theorem toNat_eq (x : F32) : x.toNat = (if f32Neg x then 2 ^ 31 else 0) + f32Mag x := by
  have h := x.isLt
  rw [f32Neg_eq, f32Mag]
  by_cases hx : 2 ^ 31 ≤ x.toNat
  · simp only [hx, decide_true, if_true]; omega
  · simp only [hx, decide_false, Bool.false_eq_true, if_false]; omega

theorem f32_ext {x y : F32} (hn : f32Neg x = f32Neg y) (hm : f32Mag x = f32Mag y) : x = y := by
  apply BitVec.eq_of_toNat_eq
  rw [toNat_eq x, toNat_eq y, hn, hm]

theorem pack_toNat (neg : Bool) {m : Nat} (h : m < 2 ^ 31) :
    (pack neg m).toNat = (if neg then 2 ^ 31 else 0) + m := by
  cases neg
  · simp only [pack, Bool.false_eq_true, if_false, BitVec.toNat_ofNat]; omega
  · simp only [pack, if_true, BitVec.toNat_ofNat]; omega

theorem f32Neg_pack (neg : Bool) {m : Nat} (h : m < 2 ^ 31) : f32Neg (pack neg m) = neg := by
  rw [f32Neg_eq, pack_toNat neg h]
  cases neg
  · simp only [Bool.false_eq_true, if_false, decide_eq_false_iff_not]; omega
  · simp

theorem f32Mag_pack (neg : Bool) {m : Nat} (h : m < 2 ^ 31) : f32Mag (pack neg m) = m := by
  rw [f32Mag, pack_toNat neg h]
  cases neg
  · simp only [Bool.false_eq_true, if_false]; omega
  · simp only [if_true]; omega

theorem pack_self (x : F32) : pack (f32Neg x) (f32Mag x) = x :=
  f32_ext (f32Neg_pack _ (f32Mag_lt x)) (f32Mag_pack _ (f32Mag_lt x))

/-! ## Kinds of values -/

theorem isNaN_iff (x : F32) : isNaN x = true ↔ infMag < f32Mag x := by simp [isNaN]

theorem isNaN_false_iff (x : F32) : isNaN x = false ↔ f32Mag x ≤ infMag := by simp [isNaN]

theorem isInf_iff (x : F32) : isInf x = true ↔ f32Mag x = infMag := by simp [isInf]

theorem isFinite_iff (x : F32) : isFinite x = true ↔ f32Mag x < infMag := by simp [isFinite]

theorem isZero_iff (x : F32) : isZero x = true ↔ f32Mag x = 0 := by simp [isZero]

theorem not_isNaN_of_isFinite {x : F32} (h : isFinite x = true) : isNaN x = false := by
  simp only [isFinite, isNaN, decide_eq_true_eq, decide_eq_false_iff_not] at *
  omega

theorem not_isInf_of_isFinite {x : F32} (h : isFinite x = true) : isInf x = false := by
  simp only [isFinite, isInf, decide_eq_true_eq, decide_eq_false_iff_not] at *
  omega

theorem isFinite_pack {neg : Bool} {m : Nat} (h : m < infMag) : isFinite (pack neg m) = true := by
  rw [isFinite_iff, f32Mag_pack neg (by simp only [infMag] at h; omega)]
  exact h

/-! ## NaNs spread -/

@[simp] theorem isNaN_nanResult (op : FloatOp) (draw : Nat) (a b : F32) : isNaN (nanResult op draw a b) = true := by
  unfold nanResult
  generalize Config.freeNaN op draw a b = x
  cases hx : isNaN x <;> simp [hx]
  decide

theorem isNaN_f32Add_left {d : Nat} {a b : F32} (h : isNaN a = true) : isNaN (f32Add d a b) = true := by
  simp [f32Add, h]

theorem isNaN_f32Add_right {d : Nat} {a b : F32} (h : isNaN b = true) : isNaN (f32Add d a b) = true := by
  simp [f32Add, h]

theorem isNaN_f32Mul_left {d : Nat} {a b : F32} (h : isNaN a = true) : isNaN (f32Mul d a b) = true := by
  simp [f32Mul, h]

theorem isNaN_f32Mul_right {d : Nat} {a b : F32} (h : isNaN b = true) : isNaN (f32Mul d a b) = true := by
  simp [f32Mul, h]

theorem isNaN_f32Mul_inf_zero {d : Nat} {a b : F32} (ha : isInf a = true) (hb : isZero b = true) :
    isNaN (f32Mul d a b) = true := by
  simp [f32Mul, ha, hb]

/-! ## The values of patterns -/

/-- The value of a pattern written as an exponent and a significand. -/
theorem magUnits_shift {e m : Nat} (hlo : e = 0 ∨ 2 ^ 23 ≤ m) (hhi : m ≤ 2 ^ 24) :
    magUnits (e * 2 ^ 23 + m) = m * 2 ^ e := by
  unfold magUnits
  rcases Nat.lt_or_ge m (2 ^ 24) with hm | hm
  · rcases Nat.eq_zero_or_pos e with he | he
    · subst he
      rw [Nat.zero_mul, Nat.zero_add, if_pos hm, Nat.pow_zero, Nat.mul_one]
    · have hm' : 2 ^ 23 ≤ m := by omega
      have h1 : ¬ e * 2 ^ 23 + m < 2 ^ 24 := by omega
      have h2 : (e * 2 ^ 23 + m) % 2 ^ 23 = m - 2 ^ 23 := by omega
      have h3 : (e * 2 ^ 23 + m) / 2 ^ 23 - 1 = e := by omega
      rw [if_neg h1, h2, h3]
      congr 1
      omega
  · have hm' : m = 2 ^ 24 := by omega
    subst hm'
    have h1 : ¬ e * 2 ^ 23 + 2 ^ 24 < 2 ^ 24 := by omega
    have h2 : (e * 2 ^ 23 + 2 ^ 24) % 2 ^ 23 = 0 := by omega
    have h3 : (e * 2 ^ 23 + 2 ^ 24) / 2 ^ 23 - 1 = e + 1 := by omega
    rw [if_neg h1, h2, h3, Nat.pow_succ]
    ring

/-- Every pattern has such a form. -/
theorem magUnits_form (p : Nat) :
    ∃ e m, p = e * 2 ^ 23 + m ∧ (e = 0 ∨ 2 ^ 23 ≤ m) ∧ m < 2 ^ 24 := by
  rcases Nat.lt_or_ge p (2 ^ 24) with hp | hp
  · exact ⟨0, p, by omega, .inl rfl, hp⟩
  · exact ⟨p / 2 ^ 23 - 1, p % 2 ^ 23 + 2 ^ 23, by omega, .inr (by omega), by omega⟩

/-- Neighbouring patterns denote strictly rising values. -/
theorem magUnits_lt_succ (p : Nat) : magUnits p < magUnits (p + 1) := by
  obtain ⟨e, m, hp, hlo, hm⟩ := magUnits_form p
  have h1 : magUnits p = m * 2 ^ e := by rw [hp]; exact magUnits_shift hlo (by omega)
  have h2 : magUnits (p + 1) = (m + 1) * 2 ^ e := by
    rw [hp, Nat.add_assoc]; exact magUnits_shift (by omega) (by omega)
  rw [h1, h2]
  exact Nat.mul_lt_mul_of_pos_right (by omega) (Nat.two_pow_pos e)

theorem magUnits_strictMono : StrictMono magUnits := strictMono_nat_of_lt_succ magUnits_lt_succ

theorem magUnits_zero_iff (p : Nat) : magUnits p = 0 ↔ p = 0 := by
  have h0 : magUnits 0 = 0 := by decide
  constructor
  · intro h
    exact magUnits_strictMono.injective (h.trans h0.symm)
  · intro h
    subst h
    exact h0

theorem units_eq_zero_iff (x : F32) : units x = 0 ↔ f32Mag x = 0 := by
  unfold units
  rw [← magUnits_zero_iff]
  split <;> omega

/-! ## Rounding -/

theorem roundEven_eq (num den : Nat) :
    roundEven num den =
      if 2 * (num % den) < den then num / den
      else if den < 2 * (num % den) then num / den + 1
      else num / den + (num / den) % 2 := rfl

/-- The rounding law: `num / den` lies between the values of two neighbouring patterns `p` and `p + 1`, and the result
is the nearer of them, on a tie the even one, cut off at the infinity. -/
theorem roundMag_between (num : Nat) {den : Nat} (hden : 0 < den) :
    ∃ p, magUnits p * den ≤ num ∧ num < magUnits (p + 1) * den ∧
      roundMag num den = min (
        if 2 * (num - magUnits p * den) < magUnits (p + 1) * den - magUnits p * den then p
        else if magUnits (p + 1) * den - magUnits p * den < 2 * (num - magUnits p * den) then p + 1
        else p + p % 2) infMag := by
  let q := num / den
  let e := Nat.log2 q - 23
  let d := den * 2 ^ e
  let k := num / d
  have hd : 0 < d := Nat.mul_pos hden (Nat.two_pow_pos e)
  have hk : k = q / 2 ^ e := (Nat.div_div_eq_div_mul num den (2 ^ e)).symm
  have hk1 : k < 2 ^ 24 := by
    rw [hk, Nat.div_lt_iff_lt_mul (Nat.two_pow_pos e), ← Nat.pow_add]
    exact Nat.lt_of_lt_of_le Nat.lt_log2_self (Nat.pow_le_pow_right (by decide) (by omega))
  have hk2 : e = 0 ∨ 2 ^ 23 ≤ k := by
    rcases Nat.lt_or_ge (Nat.log2 q) 24 with h | h
    · exact .inl (by omega)
    · right
      have hq : q ≠ 0 := by
        intro h0
        rw [h0] at h
        simp at h
      rw [hk, Nat.le_div_iff_mul_le (Nat.two_pow_pos e), ← Nat.pow_add]
      exact Nat.le_trans (Nat.pow_le_pow_right (by decide) (by omega)) (Nat.log2_self_le hq)
  have hu1 : magUnits (e * 2 ^ 23 + k) = k * 2 ^ e := magUnits_shift hk2 (by omega)
  have hu2 : magUnits (e * 2 ^ 23 + k + 1) = (k + 1) * 2 ^ e := by
    rw [Nat.add_assoc]; exact magUnits_shift (by omega) (by omega)
  have hdiv : d * k + num % d = num := Nat.div_add_mod num d
  have hmod : num % d < d := Nat.mod_lt num hd
  have he1 : k * 2 ^ e * den = d * k := by simp only [d]; ring
  have he2 : (k + 1) * 2 ^ e * den = d * k + d := by simp only [d]; ring
  refine ⟨e * 2 ^ 23 + k, ?_, ?_, ?_⟩
  · rw [hu1, he1]; omega
  · rw [hu2, he2]; omega
  · rw [hu1, hu2, he1, he2]
    have hrem : num - d * k = num % d := by omega
    have hgap : d * k + d - d * k = d := by omega
    rw [hrem, hgap]
    show min (e * 2 ^ 23 + roundEven num d) infMag = _
    congr 1
    rw [roundEven_eq]
    show e * 2 ^ 23 + (if 2 * (num % d) < d then k else if d < 2 * (num % d) then k + 1 else k + k % 2) = _
    have hpar : (e * 2 ^ 23 + k) % 2 = k % 2 := by omega
    split
    · rfl
    · split
      · omega
      · omega

theorem roundMag_le (num den : Nat) : roundMag num den ≤ infMag := Nat.min_le_right _ _

theorem roundMag_lt (num den : Nat) : roundMag num den < 2 ^ 31 := by
  have := roundMag_le num den
  simp only [infMag] at this
  omega

/-- A value some pattern denotes rounds to that pattern. -/
theorem roundMag_exact {p den : Nat} (hden : 0 < den) (hp : p ≤ infMag) :
    roundMag (magUnits p * den) den = p := by
  obtain ⟨p', h1, h2, h3⟩ := roundMag_between (magUnits p * den) hden
  have h4 : magUnits p' ≤ magUnits p := Nat.le_of_mul_le_mul_right h1 hden
  have h5 : magUnits p < magUnits (p' + 1) := Nat.lt_of_mul_lt_mul_right h2
  have h6 : p' ≤ p := magUnits_strictMono.le_iff_le.mp h4
  have h7 : p < p' + 1 := magUnits_strictMono.lt_iff_lt.mp h5
  have h8 : p' = p := by omega
  subst h8
  rw [h3, if_pos]
  · omega
  · have h9 : magUnits p' * den < magUnits (p' + 1) * den := h2
    omega

theorem roundMag_zero {den : Nat} (hden : 0 < den) : roundMag 0 den = 0 := by
  have := roundMag_exact (p := 0) hden (by decide)
  simpa [magUnits] using this

/-! ## Exact results -/

theorem magUnits_one : magUnits (f32Mag Config.one) = 2 ^ 149 := by decide

/-- A finite value times `1.0f` is itself. -/
theorem f32Mul_one {d : Nat} {x : F32} (h : isFinite x = true) : f32Mul d x Config.one = x := by
  have h1 : isNaN x = false := not_isNaN_of_isFinite h
  have h2 : isInf x = false := not_isInf_of_isFinite h
  have e1 : isNaN Config.one = false := by decide
  have e2 : isInf Config.one = false := by decide
  have e3 : f32Neg Config.one = false := by decide
  unfold f32Mul
  rw [magUnits_one, roundMag_exact (Nat.two_pow_pos 149) (by rw [isFinite_iff] at h; omega)]
  simp [h1, h2, e1, e2, e3, pack_self]

/-- A finite value times a zero is a zero. -/
theorem f32Mul_zero {d : Nat} {x z : F32} (h : isFinite x = true) (hz : isZero z = true) :
    f32Mul d x z = pack (f32Neg x != f32Neg z) 0 := by
  have h1 : isNaN x = false := not_isNaN_of_isFinite h
  have h2 : isInf x = false := not_isInf_of_isFinite h
  rw [isZero_iff] at hz
  have e1 : isNaN z = false := by rw [isNaN_false_iff, hz]; decide
  have e2 : isInf z = false := by simp [isInf, hz]
  unfold f32Mul
  have e3 : magUnits 0 = 0 := by decide
  rw [hz, e3, Nat.mul_zero, roundMag_zero (Nat.two_pow_pos 149)]
  simp [h1, h2, e1, e2]

theorem not_special_of_isZero {z : F32} (hz : isZero z = true) : isNaN z = false ∧ isInf z = false ∧ units z = 0 := by
  have hu := (units_eq_zero_iff z).mpr ((isZero_iff z).mp hz)
  rw [isZero_iff] at hz
  exact ⟨by rw [isNaN_false_iff, hz]; decide, by simp [isInf, hz], hu⟩

theorem addOrdered_zero {x z : F32} (h : isFinite x = true) (hx : isZero x = false) (hz : isZero z = true) :
    addOrdered x z = x := by
  have h2 : isInf x = false := not_isInf_of_isFinite h
  obtain ⟨-, e2, hzu⟩ := not_special_of_isZero hz
  have hxm : f32Mag x ≠ 0 := by simpa [isZero] using hx
  have hxu : units x ≠ 0 := fun h0 => hxm ((units_eq_zero_iff x).mp h0)
  have hsign : decide (units x < 0) = f32Neg x := by
    have hpos : magUnits (f32Mag x) ≠ 0 := fun h0 => hxm ((magUnits_zero_iff _).mp h0)
    unfold units
    cases f32Neg x
    · simp
    · simp; omega
  have habs : (units x).natAbs = magUnits (f32Mag x) := by
    unfold units
    split <;> simp
  have hround : roundMag (magUnits (f32Mag x)) 1 = f32Mag x := by
    have := roundMag_exact (p := f32Mag x) (den := 1) (by decide) (by rw [isFinite_iff] at h; omega)
    simpa using this
  simp [addOrdered, h2, e2, hzu, hxu, hsign, habs, hround, pack_self]

/-- A finite nonzero value plus a zero is itself. -/
theorem f32Add_zero {d : Nat} {x z : F32} (h : isFinite x = true) (hx : isZero x = false) (hz : isZero z = true) :
    f32Add d x z = x := by
  have h1 : isNaN x = false := not_isNaN_of_isFinite h
  have h2 : isInf x = false := not_isInf_of_isFinite h
  obtain ⟨e1, -, -⟩ := not_special_of_isZero hz
  simp [f32Add, h1, h2, e1, addOrdered_zero h hx hz]

/-- `1.0f` minus a zero is `1.0f`. -/
theorem f32Sub_one_zero {d : Nat} {z : F32} (hz : isZero z = true) : f32Sub d Config.one z = Config.one := by
  have hn : isZero (f32Negate z) = true := by
    have hz' : z = pack (f32Neg z) 0 := by rw [← (isZero_iff z).mp hz, pack_self]
    rw [hz']
    cases f32Neg z <;> decide
  have e3 : isNaN Config.one = false := by decide
  have e4 : isInf Config.one = false := by decide
  obtain ⟨e1, -, -⟩ := not_special_of_isZero hz
  simp [f32Sub, e1, e3, e4, addOrdered_zero (x := Config.one) (by decide) (by decide) hn]

end Sys2Proof.Machine
end

