-- ==== Sys2Proof/Laws/Geometry.lean ====
section
/-!
SUPPORT. The ranges of the tap geometry: base delay, tap delays and read indices.
-/

namespace Sys2Proof.Machine

theorem baseDelayOfProduct_range (p : F32) : 1 ≤ baseDelayOfProduct p ∧ baseDelayOfProduct p ≤ 11999 := by
  unfold baseDelayOfProduct
  generalize roundHalfAway (units p) (2 ^ 149) = n
  simp only [Config.baseDelayMax]
  split
  · omega
  · split
    · split <;> omega
    · omega

theorem baseDelay_range (d : Nat) (dt sr : F32) : 1 ≤ baseDelay d dt sr ∧ baseDelay d dt sr ≤ 11999 := by
  unfold baseDelay
  exact baseDelayOfProduct_range _

/-- The latch holds the base delay without loss. -/
theorem startBlock_bd_toNat (s : State) : (startBlock s).bd.toNat = baseDelay s.draw s.dt s.sr := by
  have := baseDelay_range s.draw s.dt s.sr
  simp only [startBlock, BitVec.toNat_ofNat]
  omega

/-- A tap delay is at least the base delay and at most the capacity less one (40_tap_geometry.md R105). -/
theorem tapDelay_range {i n b : Nat} (hb : 1 ≤ b) (hb' : b ≤ 11999) :
    b ≤ tapDelay i n b ∧ tapDelay i n b ≤ 191999 := by
  unfold tapDelay
  simp only [Config.maxDelaySamples]
  have h : b * 1 ≤ b * (i + 1) := Nat.mul_le_mul_left b (by omega)
  generalize (if 1 < n then b * i / n else 0) = o
  omega

/-- The read index of a tap is in range, and it is never the write cursor (20_memory.md R52, 42_process_block.md R163). -/
theorem readIndex_range {wc d : Nat} (hw : wc < 192000) (hd : 1 ≤ d) (hd' : d ≤ 191999) :
    readIndex wc d < 192000 ∧ readIndex wc d ≠ wc := by
  unfold readIndex
  simp only [Config.maxDelaySamples]
  split <;> omega

/-- The read index is the write cursor less the delay, modulo the capacity. -/
theorem readIndex_mod {wc d : Nat} (hw : wc < 192000) (hd : d ≤ 192000) :
    readIndex wc d = (wc + 192000 - d) % 192000 := by
  unfold readIndex
  simp only [Config.maxDelaySamples]
  split <;> omega

theorem nextWriteCursor_toNat (wc : BitVec 18) : (nextWriteCursor wc).toNat = (wc.toNat + 1) % 192000 := by
  simp only [nextWriteCursor, Config.maxDelaySamples, BitVec.toNat_ofNat]
  omega

end Sys2Proof.Machine
end

