-- ==== Sys2Proof/Laws/Mem.lean ====
section
/-!
SUPPORT. The laws of word memories: reading after writing, the canonical form, and that canonical memories that read the
same are the same.
-/

namespace Sys2Proof.Machine

@[simp] theorem memRead_nil (a : Nat) : memRead [] a = 0 := rfl

/-- A write leaves every other index alone, whatever the form of the list. -/
theorem memRead_memWrite_other {m : Mem} {a a' : Nat} {v : Word} (h : a' ≠ a) :
    memRead (memWrite m a v) a' = memRead m a' := by
  induction m with
  | nil =>
    unfold memWrite
    split <;> simp [memRead, h]
  | cons c m ih =>
    obtain ⟨b, u⟩ := c
    unfold memWrite
    split
    · split <;> simp [memRead, h]
    · split
      · next hab => subst hab; split <;> simp [memRead, h]
      · simp [memRead, ih]

/-- A sorted memory holds nothing below its lower bound. -/
theorem memRead_below {hi lo : Nat} {m : Mem} {a : Nat} (hm : memSorted hi lo m = true) (h : a < lo) :
    memRead m a = 0 := by
  induction m generalizing lo with
  | nil => rfl
  | cons c m ih =>
    obtain ⟨b, u⟩ := c
    simp only [memSorted, Bool.and_eq_true, decide_eq_true_eq] at hm
    have hab : a ≠ b := by omega
    simp only [memRead, hab, if_false]
    exact ih hm.2 (by omega)

/-- A sorted memory holds nothing from its upper bound on. -/
theorem memRead_above {hi lo : Nat} {m : Mem} {a : Nat} (hm : memSorted hi lo m = true) (h : hi ≤ a) :
    memRead m a = 0 := by
  induction m generalizing lo with
  | nil => rfl
  | cons c m ih =>
    obtain ⟨b, u⟩ := c
    simp only [memSorted, Bool.and_eq_true, decide_eq_true_eq] at hm
    have hab : a ≠ b := by omega
    simp only [memRead, hab, if_false]
    exact ih hm.2

/-- A read of the written index gives the written word. -/
theorem memRead_memWrite_same {hi lo : Nat} {m : Mem} {a : Nat} {v : Word} (hm : memSorted hi lo m = true) :
    memRead (memWrite m a v) a = v := by
  induction m generalizing lo with
  | nil =>
    unfold memWrite
    split
    · next hv => simp [hv, unlistedWord]
    · simp [memRead]
  | cons c m ih =>
    obtain ⟨b, u⟩ := c
    simp only [memSorted, Bool.and_eq_true, decide_eq_true_eq] at hm
    unfold memWrite
    split
    · next hab =>
      split
      · next hv =>
        have h1 : a ≠ b := by omega
        have h2 : memRead m a = 0 := memRead_below hm.2 (by omega)
        simp [memRead, h1, h2, hv, unlistedWord]
      · simp [memRead]
    · split
      · next hab =>
        subst hab
        split
        · next hv =>
          have h2 : memRead m a = 0 := memRead_below hm.2 (by omega)
          simp [h2, hv, unlistedWord]
        · simp [memRead]
      · next hab =>
        simp only [memRead, hab, if_false]
        exact ih hm.2

/-- A lower bound can be lowered. -/
theorem memSorted_mono {hi lo lo' : Nat} {m : Mem} (hm : memSorted hi lo m = true) (h : lo' ≤ lo) :
    memSorted hi lo' m = true := by
  cases m with
  | nil => rfl
  | cons c m =>
    simp only [memSorted, Bool.and_eq_true, decide_eq_true_eq] at hm ⊢
    exact ⟨⟨⟨by omega, hm.1.1.2⟩, hm.1.2⟩, hm.2⟩

/-- A write inside the bounds keeps the canonical form. -/
theorem memSorted_memWrite {hi lo : Nat} {m : Mem} {a : Nat} {v : Word} (hm : memSorted hi lo m = true)
    (hlo : lo ≤ a) (hhi : a < hi) : memSorted hi lo (memWrite m a v) = true := by
  induction m generalizing lo with
  | nil =>
    unfold memWrite
    split
    · rfl
    · next hv => simp [memSorted, hlo, hhi, hv]
  | cons c m ih =>
    obtain ⟨b, u⟩ := c
    have hm' := hm
    simp only [memSorted, Bool.and_eq_true, decide_eq_true_eq] at hm'
    obtain ⟨⟨⟨h1, h2⟩, h3⟩, h4⟩ := hm'
    unfold memWrite
    split
    · next hab =>
      split
      · exact hm
      · next hv =>
        simp only [memSorted, Bool.and_eq_true, decide_eq_true_eq]
        exact ⟨⟨⟨hlo, hhi⟩, hv⟩, ⟨⟨by omega, h2⟩, h3⟩, h4⟩
    · split
      · next hab =>
        subst hab
        split
        · exact memSorted_mono h4 (by omega)
        · next hv =>
          simp only [memSorted, Bool.and_eq_true, decide_eq_true_eq]
          exact ⟨⟨⟨h1, h2⟩, hv⟩, h4⟩
      · next hab =>
        simp only [memSorted, Bool.and_eq_true, decide_eq_true_eq]
        exact ⟨⟨⟨h1, h2⟩, h3⟩, ih h4 (by omega)⟩

/-- What one write does to every read, in a canonical memory. -/
theorem memRead_memWrite {size : Nat} {m : Mem} {a a' : Nat} {v : Word} (hm : Memory.wf size m = true) :
    memRead (memWrite m a v) a' = if a' = a then v else memRead m a' := by
  split
  · next h => subst h; exact memRead_memWrite_same hm
  · next h => exact memRead_memWrite_other h

@[simp] theorem wf_nil (size : Nat) : Memory.wf size [] = true := rfl

theorem wf_memWrite {size : Nat} {m : Mem} {a : Nat} {v : Word} (hm : Memory.wf size m = true) (h : a < size) :
    Memory.wf size (memWrite m a v) = true :=
  memSorted_memWrite hm (Nat.zero_le a) h

theorem wf_dmWrite {m : Mem} {a : Nat} {v : Word} (hm : Memory.wf 192000 m = true) :
    Memory.wf 192000 (dmWrite m a v) = true :=
  wf_memWrite hm (Nat.mod_lt _ (by decide))

theorem ringIndex_lt {k j w : Nat} (hk : k < 16) (hj : j < w) : ringIndex k j < 16 * w := by
  simp only [ringIndex, Config.maxVoices]
  omega

theorem ringIndex_inj {k j k' j' : Nat} (hk : k < 16) (hk' : k' < 16) :
    ringIndex k j = ringIndex k' j' ↔ k = k' ∧ j = j' := by
  simp only [ringIndex, Config.maxVoices]
  omega

theorem wf_wmWrite {m : Mem} {w k j : Nat} {v : Word} (hm : Memory.wf (16 * w) m = true) (hk : k < 16) (hj : j < w) :
    Memory.wf (16 * w) (wmWrite m k j v) = true :=
  wf_memWrite hm (ringIndex_lt hk hj)

theorem wf_memOfCells_from {size : Nat} (cells : List (Nat × Word)) {m : Mem} (hm : Memory.wf size m = true) :
    Memory.wf size (cells.foldl (fun m c => if c.1 < size then memWrite m c.1 c.2 else m) m) = true := by
  induction cells generalizing m with
  | nil => exact hm
  | cons c cells ih =>
    refine ih ?_
    show Memory.wf size (if c.1 < size then memWrite m c.1 c.2 else m) = true
    split
    · next h => exact wf_memWrite hm h
    · exact hm

theorem wf_memOfCells (size : Nat) (cells : List (Nat × Word)) : Memory.wf size (memOfCells size cells) = true :=
  wf_memOfCells_from cells (wf_nil size)

/-- Two sorted memories that read the same at every index are the same list. -/
theorem memSorted_ext {hi lo lo' : Nat} {m m' : Mem} (hm : memSorted hi lo m = true) (hm' : memSorted hi lo' m' = true)
    (h : ∀ a, memRead m a = memRead m' a) : m = m' := by
  induction m generalizing lo lo' m' with
  | nil =>
    cases m' with
    | nil => rfl
    | cons c m' =>
      obtain ⟨b, u⟩ := c
      simp only [memSorted, Bool.and_eq_true, decide_eq_true_eq] at hm'
      have := h b
      simp only [memRead, if_true] at this
      exact absurd this.symm hm'.1.2
  | cons c m ih =>
    obtain ⟨b, u⟩ := c
    cases m' with
    | nil =>
      simp only [memSorted, Bool.and_eq_true, decide_eq_true_eq] at hm
      have := h b
      simp only [memRead, if_true] at this
      exact absurd this hm.1.2
    | cons c' m' =>
      obtain ⟨b', u'⟩ := c'
      simp only [memSorted, Bool.and_eq_true, decide_eq_true_eq] at hm hm'
      have hb : b = b' := by
        rcases Nat.lt_trichotomy b b' with hlt | heq | hgt
        · have h1 := h b
          have h2 : memRead m' b = 0 := memRead_below hm'.2 (by omega)
          have h3 : b ≠ b' := by omega
          simp only [memRead, if_true, h3, if_false, h2] at h1
          exact absurd h1 hm.1.2
        · exact heq
        · have h1 := h b'
          have h2 : memRead m b' = 0 := memRead_below hm.2 (by omega)
          have h3 : b' ≠ b := by omega
          simp only [memRead, if_true, h3, if_false, h2] at h1
          exact absurd h1.symm hm'.1.2
      subst hb
      have hu : u = u' := by
        have h1 := h b
        simpa [memRead] using h1
      subst hu
      have hrest : m = m' := by
        refine ih hm.2 hm'.2 (fun a => ?_)
        by_cases hab : a = b
        · subst hab
          rw [memRead_below hm.2 (by omega), memRead_below hm'.2 (by omega)]
        · have h1 := h a
          simpa [memRead, hab] using h1
      rw [hrest]

/-- Equal memories are equal data. -/
theorem wf_ext {size : Nat} {m m' : Mem} (hm : Memory.wf size m = true) (hm' : Memory.wf size m' = true)
    (h : ∀ a, memRead m a = memRead m' a) : m = m' :=
  memSorted_ext hm hm' h

end Sys2Proof.Machine
end

