-- ==== Sys2Proof/Laws/PerInstr.lean ====
section
/-!
SUPPORT. Statements about every command as syntax, one lemma per constructor. `Framing`: a well-formed command is as long as
its opcode says, and the operand words it is encoded with are read back as its operands.
-/

namespace Sys2Proof.Laws.Framing

/-- The encoding of `i` has the length of its opcode (30_encoding.md R78), and decoding the operand words gives `i` back with
the words after them untouched. -/
def Statement (i : Instr) : Prop :=
  i.wellFormed = true →
    (encode i).length = i.length ∧
      ∀ rest, decodeOperands i.opcode (i.operandWords ++ rest) = some (i, rest)

/-- A `U32` operand word is read back as the number written into it. -/
theorem toNat_ofNat_u32 {n : Nat} (h : isU32 n) : (BitVec.ofNat 32 n).toNat = n := by
  rw [BitVec.toNat_ofNat]
  exact Nat.mod_eq_of_lt h

/-- An `I32` operand word is read back as the integer written into it. -/
theorem toInt_ofInt_i32 {n : Int} (h : isI32 n) : (BitVec.ofInt 32 n).toInt = n :=
  BitVec.toInt_ofInt_eq_self (by decide) h.1 h.2

theorem create (sr : F32) : Statement (.create sr) := fun _ => ⟨rfl, fun _ => rfl⟩

theorem destroy : Statement (.destroy) := fun _ => ⟨rfl, fun _ => rfl⟩

theorem reset : Statement (.reset) := fun _ => ⟨rfl, fun _ => rfl⟩

theorem setSampleRate (hz : F32) : Statement (.setSampleRate hz) := fun _ => ⟨rfl, fun _ => rfl⟩

theorem setDelayTime (ms : F32) : Statement (.setDelayTime ms) := fun _ => ⟨rfl, fun _ => rfl⟩

theorem setFeedback (v : F32) : Statement (.setFeedback v) := fun _ => ⟨rfl, fun _ => rfl⟩

theorem setMix (v : F32) : Statement (.setMix v) := fun _ => ⟨rfl, fun _ => rfl⟩

theorem setVoiceCount (n : Int) : Statement (.setVoiceCount n) := fun h =>
  ⟨rfl, fun rest => by
    simp only [Instr.wellFormed, decide_eq_true_eq] at h
    simp [decodeOperands, Instr.opcode, Instr.operandWords, toInt_ofInt_i32 h]⟩

theorem getSampleRate : Statement (.getSampleRate) := fun _ => ⟨rfl, fun _ => rfl⟩

theorem getDelayTime : Statement (.getDelayTime) := fun _ => ⟨rfl, fun _ => rfl⟩

theorem getFeedback : Statement (.getFeedback) := fun _ => ⟨rfl, fun _ => rfl⟩

theorem getMix : Statement (.getMix) := fun _ => ⟨rfl, fun _ => rfl⟩

theorem getVoiceCount : Statement (.getVoiceCount) := fun _ => ⟨rfl, fun _ => rfl⟩

theorem getWriteCursor : Statement (.getWriteCursor) := fun _ => ⟨rfl, fun _ => rfl⟩

theorem processBlock (nli nri nlo nro : Nat) : Statement (.processBlock nli nri nlo nro) := fun h =>
  ⟨rfl, fun rest => by
    simp only [Instr.wellFormed, decide_eq_true_eq] at h
    simp only [decodeOperands, Instr.opcode, Instr.operandWords, List.cons_append, List.nil_append,
      toNat_ofNat_u32 h.1, toNat_ofNat_u32 h.2.1, toNat_ofNat_u32 h.2.2.1, toNat_ofNat_u32 h.2.2.2]⟩

theorem getWaveformSize : Statement (.getWaveformSize) := fun _ => ⟨rfl, fun _ => rfl⟩

theorem getWaveformIndex : Statement (.getWaveformIndex) := fun _ => ⟨rfl, fun _ => rfl⟩

theorem getVoiceWaveform (k : Nat) : Statement (.getVoiceWaveform k) := fun h =>
  ⟨rfl, fun rest => by
    simp only [Instr.wellFormed, decide_eq_true_eq] at h
    simp only [decodeOperands, Instr.opcode, Instr.operandWords, List.cons_append, List.nil_append,
      toNat_ofNat_u32 h]⟩

theorem readVoiceRing (k : Nat) : Statement (.readVoiceRing k) := fun h =>
  ⟨rfl, fun rest => by
    simp only [Instr.wellFormed, decide_eq_true_eq] at h
    simp only [decodeOperands, Instr.opcode, Instr.operandWords, List.cons_append, List.nil_append,
      toNat_ofNat_u32 h]⟩

end Sys2Proof.Laws.Framing
end

