-- ==== Sys2Proof/Laws/Ports.lean ====
section
/-!
SUPPORT. What `emit` can do, said once: the words go out, or the command waits at the first one that has no room
(60_exceptions.md R224; log entry 10).
-/

namespace Sys2Proof.Machine

/-! ## Room on the response port -/

theorem hasRoom_of_none {s : State} (h : s.respCap = none) (k : Nat) : s.hasRoom k := by
  intro c hc
  rw [h] at hc
  cases hc

theorem hasRoom_zero (s : State) : s.hasRoom 0 := fun _ _ => Nat.zero_le _

theorem hasRoom_le {s : State} {j k : Nat} (hjk : j ≤ k) (h : s.hasRoom k) : s.hasRoom j :=
  fun c hc => Nat.le_trans hjk (h c hc)

theorem respRoom_le (s : State) (k : Nat) : respRoom s k ≤ k := by
  unfold respRoom
  split <;> omega

theorem respRoom_of_room {s : State} {k : Nat} (h : s.hasRoom k) : respRoom s k = k := by
  unfold respRoom
  split
  · rfl
  · next c hc => exact Nat.min_eq_left (h c hc)

theorem respRoom_of_full {s : State} {c k : Nat} (hc : s.respCap = some c) (h : c - s.resp.length < k) :
    respRoom s k = c - s.resp.length := by
  unfold respRoom
  rw [hc]
  exact Nat.min_eq_right (Nat.le_of_lt h)

/-- Either all the words have room, or there is a capacity that holds fewer. -/
theorem room_or_full (s : State) (k : Nat) : s.hasRoom k ∨ ∃ c, s.respCap = some c ∧ c - s.resp.length < k := by
  cases hc : s.respCap with
  | none => exact .inl (hasRoom_of_none hc k)
  | some c =>
    rcases Nat.lt_or_ge (c - s.resp.length) k with h | h
    · exact .inr ⟨c, rfl, h⟩
    · refine .inl fun d hd => ?_
      rw [hc] at hd
      cases hd
      exact h

/-! ## `emitThen` -/

/-- The state of a command that waits with the words `ws` and room for `k` of them. -/
def waitingOutput (k : Nat) (ws : List Word) (after : After) (s : State) : State :=
  { s with resp := s.resp ++ ws.take k, busy := some (.output (ws.drop k) after) }

/-! The fields of a waiting state. -/

@[simp] theorem waitingOutput_sr (k : Nat) (ws : List Word) (after : After) (s : State) :
    (waitingOutput k ws after s).sr = s.sr := rfl
@[simp] theorem waitingOutput_dt (k : Nat) (ws : List Word) (after : After) (s : State) :
    (waitingOutput k ws after s).dt = s.dt := rfl
@[simp] theorem waitingOutput_fb (k : Nat) (ws : List Word) (after : After) (s : State) :
    (waitingOutput k ws after s).fb = s.fb := rfl
@[simp] theorem waitingOutput_mx (k : Nat) (ws : List Word) (after : After) (s : State) :
    (waitingOutput k ws after s).mx = s.mx := rfl
@[simp] theorem waitingOutput_vc (k : Nat) (ws : List Word) (after : After) (s : State) :
    (waitingOutput k ws after s).vc = s.vc := rfl
@[simp] theorem waitingOutput_bd (k : Nat) (ws : List Word) (after : After) (s : State) :
    (waitingOutput k ws after s).bd = s.bd := rfl
@[simp] theorem waitingOutput_wc (k : Nat) (ws : List Word) (after : After) (s : State) :
    (waitingOutput k ws after s).wc = s.wc := rfl
@[simp] theorem waitingOutput_wi (k : Nat) (ws : List Word) (after : After) (s : State) :
    (waitingOutput k ws after s).wi = s.wi := rfl
@[simp] theorem waitingOutput_alive (k : Nat) (ws : List Word) (after : After) (s : State) :
    (waitingOutput k ws after s).alive = s.alive := rfl
@[simp] theorem waitingOutput_cp (k : Nat) (ws : List Word) (after : After) (s : State) :
    (waitingOutput k ws after s).cp = s.cp := rfl
@[simp] theorem waitingOutput_faulted (k : Nat) (ws : List Word) (after : After) (s : State) :
    (waitingOutput k ws after s).faulted = s.faulted := rfl
@[simp] theorem waitingOutput_faultInfo (k : Nat) (ws : List Word) (after : After) (s : State) :
    (waitingOutput k ws after s).faultInfo = s.faultInfo := rfl
@[simp] theorem waitingOutput_dm (k : Nat) (ws : List Word) (after : After) (s : State) :
    (waitingOutput k ws after s).dm = s.dm := rfl
@[simp] theorem waitingOutput_wm (k : Nat) (ws : List Word) (after : After) (s : State) :
    (waitingOutput k ws after s).wm = s.wm := rfl
@[simp] theorem waitingOutput_port (k : Nat) (ws : List Word) (after : After) (s : State) :
    (waitingOutput k ws after s).port = s.port := rfl
@[simp] theorem waitingOutput_resp (k : Nat) (ws : List Word) (after : After) (s : State) :
    (waitingOutput k ws after s).resp = s.resp ++ ws.take k := rfl
@[simp] theorem waitingOutput_respCap (k : Nat) (ws : List Word) (after : After) (s : State) :
    (waitingOutput k ws after s).respCap = s.respCap := rfl
@[simp] theorem waitingOutput_busy (k : Nat) (ws : List Word) (after : After) (s : State) :
    (waitingOutput k ws after s).busy = some (.output (ws.drop k) after) := rfl
@[simp] theorem waitingOutput_ringLen (k : Nat) (ws : List Word) (after : After) (s : State) :
    (waitingOutput k ws after s).ringLen = s.ringLen := rfl
@[simp] theorem waitingOutput_draw (k : Nat) (ws : List Word) (after : After) (s : State) :
    (waitingOutput k ws after s).draw = s.draw := rfl

theorem emitThen_runs {ws : List Word} {after : After} {next : State → State} {s : State} (h : s.hasRoom ws.length) :
    emitThen ws after next s = next (emitAll ws s) := by
  unfold emitThen
  simp only [respRoom_of_room h, Nat.lt_irrefl, if_false, List.take_length]

theorem emitThen_waits {ws : List Word} {after : After} {next : State → State} {s : State} {c : Nat}
    (hc : s.respCap = some c) (h : c - s.resp.length < ws.length) :
    emitThen ws after next s = waitingOutput (c - s.resp.length) ws after s := by
  unfold emitThen
  simp only [respRoom_of_full hc h, h, if_true]
  rfl

/-- What an `emit` can do, once and for all. -/
theorem emitThen_cases (ws : List Word) (after : After) (next : State → State) (s : State) :
    (s.hasRoom ws.length ∧ emitThen ws after next s = next (emitAll ws s)) ∨
      ∃ c, s.respCap = some c ∧ c - s.resp.length < ws.length ∧
        emitThen ws after next s = waitingOutput (c - s.resp.length) ws after s := by
  rcases room_or_full s ws.length with h | ⟨c, hc, h⟩
  · exact .inl ⟨h, emitThen_runs h⟩
  · exact .inr ⟨c, hc, h, emitThen_waits hc h⟩

/-- What a command that answers can do, once and for all. -/
theorem respond_cases (k : Nat) (ws : List Word) (s : State) :
    (s.hasRoom ws.length ∧
        respond k ws s = { s with resp := s.resp ++ ws, port := s.port.drop k, cp := s.cp + k }) ∨
      ∃ c, s.respCap = some c ∧ c - s.resp.length < ws.length ∧
        respond k ws s = waitingOutput (c - s.resp.length) ws (.command k) { s with port := s.port.drop k } :=
  emitThen_cases ws _ _ { s with port := s.port.drop k }

/-- What a command that answers leaves alone, whether it waits or not: all but the ports, `cp` and what waits. -/
theorem respond_frame (k : Nat) (ws : List Word) (s : State) :
    respond k ws s = { s with
      port := s.port.drop k
      resp := (respond k ws s).resp
      cp := (respond k ws s).cp
      busy := (respond k ws s).busy } := by
  rcases respond_cases k ws s with ⟨-, h⟩ | ⟨c, -, -, h⟩
  · rw [h]
  · rw [h]
    rfl

@[simp] theorem respond_sr (k : Nat) (ws : List Word) (s : State) : (respond k ws s).sr = s.sr := by
  rw [respond_frame]
@[simp] theorem respond_dt (k : Nat) (ws : List Word) (s : State) : (respond k ws s).dt = s.dt := by
  rw [respond_frame]
@[simp] theorem respond_fb (k : Nat) (ws : List Word) (s : State) : (respond k ws s).fb = s.fb := by
  rw [respond_frame]
@[simp] theorem respond_mx (k : Nat) (ws : List Word) (s : State) : (respond k ws s).mx = s.mx := by
  rw [respond_frame]
@[simp] theorem respond_vc (k : Nat) (ws : List Word) (s : State) : (respond k ws s).vc = s.vc := by
  rw [respond_frame]
@[simp] theorem respond_bd (k : Nat) (ws : List Word) (s : State) : (respond k ws s).bd = s.bd := by
  rw [respond_frame]
@[simp] theorem respond_wc (k : Nat) (ws : List Word) (s : State) : (respond k ws s).wc = s.wc := by
  rw [respond_frame]
@[simp] theorem respond_wi (k : Nat) (ws : List Word) (s : State) : (respond k ws s).wi = s.wi := by
  rw [respond_frame]
@[simp] theorem respond_alive (k : Nat) (ws : List Word) (s : State) : (respond k ws s).alive = s.alive := by
  rw [respond_frame]
@[simp] theorem respond_faulted (k : Nat) (ws : List Word) (s : State) : (respond k ws s).faulted = s.faulted := by
  rw [respond_frame]
@[simp] theorem respond_faultInfo (k : Nat) (ws : List Word) (s : State) : (respond k ws s).faultInfo = s.faultInfo := by
  rw [respond_frame]
@[simp] theorem respond_dm (k : Nat) (ws : List Word) (s : State) : (respond k ws s).dm = s.dm := by
  rw [respond_frame]
@[simp] theorem respond_wm (k : Nat) (ws : List Word) (s : State) : (respond k ws s).wm = s.wm := by
  rw [respond_frame]
@[simp] theorem respond_port (k : Nat) (ws : List Word) (s : State) : (respond k ws s).port = s.port.drop k := by
  rw [respond_frame]
@[simp] theorem respond_respCap (k : Nat) (ws : List Word) (s : State) : (respond k ws s).respCap = s.respCap := by
  rw [respond_frame]
@[simp] theorem respond_ringLen (k : Nat) (ws : List Word) (s : State) : (respond k ws s).ringLen = s.ringLen := by
  rw [respond_frame]
@[simp] theorem respond_draw (k : Nat) (ws : List Word) (s : State) : (respond k ws s).draw = s.draw := by
  rw [respond_frame]

end Sys2Proof.Machine
end

