-- ==== Sys2Proof/Laws/Process.lean ====
section
/-!
SUPPORT. What the tap loop, the sample step and a block can do: one law for each, which later proofs cite.
-/

namespace Sys2Proof.Machine

/-! ## The tap loop -/

/-- The tap loop over the first `n` taps. -/
def tapPrefix (s : State) (n : Nat) : TapSums := (List.range n).foldl (tapStep s) { wet := 0, last := 0, wm := s.wm }

theorem tapLoop_eq (s : State) : tapLoop s = tapPrefix s s.vc.toNat := rfl

@[simp] theorem tapPrefix_zero (s : State) : tapPrefix s 0 = { wet := 0, last := 0, wm := s.wm } := rfl

theorem tapPrefix_succ (s : State) (n : Nat) : tapPrefix s (n + 1) = tapStep s (tapPrefix s n) n := by
  simp [tapPrefix, List.range_succ]

/-- The last tap alone leaves its output (42_process_block.md R157). -/
theorem tapPrefix_last (s : State) (n : Nat) : (tapPrefix s (n + 1)).last = tapOutput s n := by
  rw [tapPrefix_succ]
  rfl

theorem tapPrefix_wet_succ (s : State) (n : Nat) :
    (tapPrefix s (n + 1)).wet = f32Add s.draw (tapPrefix s n).wet (f32Mul s.draw (tapOutput s n) (tapGain n s.vc.toNat)) := by
  rw [tapPrefix_succ]
  rfl

theorem tapPrefix_wm_succ (s : State) (n : Nat) :
    (tapPrefix s (n + 1)).wm = wmWrite (tapPrefix s n).wm n s.wi (tapOutput s n) := by
  rw [tapPrefix_succ]
  rfl

/-- The capture memory keeps its canonical form. -/
theorem tapPrefix_wm_wf {s : State} {n : Nat} (hn : n ≤ 16) (hw : s.wi < s.ringLen)
    (h : Memory.wf (16 * s.ringLen) s.wm = true) : Memory.wf (16 * s.ringLen) (tapPrefix s n).wm = true := by
  induction n with
  | zero => exact h
  | succ n ih =>
    rw [tapPrefix_wm_succ]
    exact wf_wmWrite (ih (by omega)) (by omega) hw

/-- What the tap loop does to each slot of each ring (42_process_block.md R156). -/
theorem tapPrefix_wm_read {s : State} {n : Nat} (hn : n ≤ 16) (hw : s.wi < s.ringLen)
    (h : Memory.wf (16 * s.ringLen) s.wm = true) {k j : Nat} (hk : k < 16) :
    memRead (tapPrefix s n).wm (ringIndex k j) =
      if k < n ∧ j = s.wi then tapOutput s k else memRead s.wm (ringIndex k j) := by
  induction n with
  | zero => simp
  | succ n ih =>
    rw [tapPrefix_wm_succ, wmWrite, memRead_memWrite (tapPrefix_wm_wf (by omega) hw h), ih (by omega)]
    simp only [ringIndex_inj hk (show n < 16 by omega)]
    by_cases hkn : k = n
    · subst hkn
      by_cases hj : j = s.wi <;> simp [hj]
    · by_cases hj : j = s.wi
      · have : k < n + 1 ↔ k < n := by omega
        simp [hkn, hj, this]
      · simp [hkn, hj]

/-- A NaN output of a tap makes the wet sum a NaN. -/
theorem tapPrefix_wet_nan {s : State} {t n : Nat} (ht : t < n) (hy : isNaN (tapOutput s t) = true) :
    isNaN (tapPrefix s n).wet = true := by
  induction n with
  | zero => omega
  | succ n ih =>
    rw [tapPrefix_wet_succ]
    rcases Nat.lt_or_ge t n with h | h
    · exact isNaN_f32Add_left (ih h)
    · have : t = n := by omega
      subst this
      exact isNaN_f32Add_right (isNaN_f32Mul_left hy)

/-! ## The sample step and the ports -/

/-- A sample step does not look at the command port. -/
theorem sampleStep_port_irrel (l r : F32) (s : State) (p : List Word) :
    sampleStep l r { s with port := p } = { sampleStep l r s with port := p } := rfl

/-- A sample step does not look at what waits. -/
theorem sampleStep_busy_irrel (l r : F32) (s : State) (b : Option Busy) :
    sampleStep l r { s with busy := b } = { sampleStep l r s with busy := b } := rfl

@[simp] theorem sampleOutputs_length (l r : F32) (s : State) : (sampleOutputs l r s).length = 2 := rfl

/-- A sample step is its writes, its outputs and its pointer advance, in this order (42_process_block.md R152). -/
theorem sampleStep_eq (l r : F32) (s : State) :
    advanceCursors (emitAll (sampleOutputs l r s) (sampleWrites l r s)) = sampleStep l r s := rfl

@[simp] theorem runFrames_nil (s : State) : runFrames [] s = s := rfl

@[simp] theorem runFrames_cons (f : F32 × F32) (fs : List (F32 × F32)) (s : State) :
    runFrames (f :: fs) s = runFrames fs (sampleStep f.1 f.2 s) := rfl

theorem runFrames_append (fs gs : List (F32 × F32)) (s : State) :
    runFrames (fs ++ gs) s = runFrames gs (runFrames fs s) := by
  simp [runFrames, List.foldl_append]

theorem runFrames_concat (fs : List (F32 × F32)) (f : F32 × F32) (s : State) :
    runFrames (fs ++ [f]) s = sampleStep f.1 f.2 (runFrames fs s) := by
  simp [runFrames_append]

/-- Sample steps do not look at the command port. -/
theorem runFrames_port_irrel (fs : List (F32 × F32)) (s : State) (p : List Word) :
    runFrames fs { s with port := p } = { runFrames fs s with port := p } := by
  induction fs generalizing s with
  | nil => rfl
  | cons f fs ih =>
    rw [runFrames_cons, runFrames_cons, sampleStep_port_irrel, ih]

/-- What every sample step keeps, a run of them keeps. -/
theorem runFrames_keeps {P : State → Prop} (hstep : ∀ l r s, P s → P (sampleStep l r s))
    (fs : List (F32 × F32)) {s : State} (h : P s) : P (runFrames fs s) := by
  induction fs generalizing s with
  | nil => exact h
  | cons f fs ih => exact ih (hstep f.1 f.2 s h)

/-! The fields a run of sample steps does not write (42_process_block.md R151, R152). -/

@[simp] theorem runFrames_sr (fs : List (F32 × F32)) (s : State) : (runFrames fs s).sr = s.sr :=
  runFrames_keeps (P := fun u => u.sr = s.sr) (fun _ _ _ h => (sampleStep_sr ..).trans h) fs rfl

@[simp] theorem runFrames_dt (fs : List (F32 × F32)) (s : State) : (runFrames fs s).dt = s.dt :=
  runFrames_keeps (P := fun u => u.dt = s.dt) (fun _ _ _ h => (sampleStep_dt ..).trans h) fs rfl

@[simp] theorem runFrames_fb (fs : List (F32 × F32)) (s : State) : (runFrames fs s).fb = s.fb :=
  runFrames_keeps (P := fun u => u.fb = s.fb) (fun _ _ _ h => (sampleStep_fb ..).trans h) fs rfl

@[simp] theorem runFrames_mx (fs : List (F32 × F32)) (s : State) : (runFrames fs s).mx = s.mx :=
  runFrames_keeps (P := fun u => u.mx = s.mx) (fun _ _ _ h => (sampleStep_mx ..).trans h) fs rfl

@[simp] theorem runFrames_vc (fs : List (F32 × F32)) (s : State) : (runFrames fs s).vc = s.vc :=
  runFrames_keeps (P := fun u => u.vc = s.vc) (fun _ _ _ h => (sampleStep_vc ..).trans h) fs rfl

@[simp] theorem runFrames_bd (fs : List (F32 × F32)) (s : State) : (runFrames fs s).bd = s.bd :=
  runFrames_keeps (P := fun u => u.bd = s.bd) (fun _ _ _ h => (sampleStep_bd ..).trans h) fs rfl

@[simp] theorem runFrames_alive (fs : List (F32 × F32)) (s : State) : (runFrames fs s).alive = s.alive :=
  runFrames_keeps (P := fun u => u.alive = s.alive) (fun _ _ _ h => (sampleStep_alive ..).trans h) fs rfl

@[simp] theorem runFrames_cp (fs : List (F32 × F32)) (s : State) : (runFrames fs s).cp = s.cp :=
  runFrames_keeps (P := fun u => u.cp = s.cp) (fun _ _ _ h => (sampleStep_cp ..).trans h) fs rfl

@[simp] theorem runFrames_faulted (fs : List (F32 × F32)) (s : State) : (runFrames fs s).faulted = s.faulted :=
  runFrames_keeps (P := fun u => u.faulted = s.faulted) (fun _ _ _ h => (sampleStep_faulted ..).trans h) fs rfl

@[simp] theorem runFrames_faultInfo (fs : List (F32 × F32)) (s : State) : (runFrames fs s).faultInfo = s.faultInfo :=
  runFrames_keeps (P := fun u => u.faultInfo = s.faultInfo) (fun _ _ _ h => (sampleStep_faultInfo ..).trans h) fs rfl

@[simp] theorem runFrames_port (fs : List (F32 × F32)) (s : State) : (runFrames fs s).port = s.port :=
  runFrames_keeps (P := fun u => u.port = s.port) (fun _ _ _ h => (sampleStep_port ..).trans h) fs rfl

@[simp] theorem runFrames_respCap (fs : List (F32 × F32)) (s : State) : (runFrames fs s).respCap = s.respCap :=
  runFrames_keeps (P := fun u => u.respCap = s.respCap) (fun _ _ _ h => (sampleStep_respCap ..).trans h) fs rfl

@[simp] theorem runFrames_busy (fs : List (F32 × F32)) (s : State) : (runFrames fs s).busy = s.busy :=
  runFrames_keeps (P := fun u => u.busy = s.busy) (fun _ _ _ h => (sampleStep_busy ..).trans h) fs rfl

@[simp] theorem runFrames_ringLen (fs : List (F32 × F32)) (s : State) : (runFrames fs s).ringLen = s.ringLen :=
  runFrames_keeps (P := fun u => u.ringLen = s.ringLen) (fun _ _ _ h => (sampleStep_ringLen ..).trans h) fs rfl

/-- The cursors after a run of sample steps (42_process_block.md R159). -/
theorem runFrames_cursors (fs : List (F32 × F32)) {s : State} (hw : s.wc.toNat < 192000) (hi : s.wi < s.ringLen) :
    (runFrames fs s).wc.toNat = (s.wc.toNat + fs.length) % 192000 ∧
      (runFrames fs s).wi = (s.wi + fs.length) % s.ringLen := by
  induction fs using List.reverseRecOn with
  | nil => simp [Nat.mod_eq_of_lt hw, Nat.mod_eq_of_lt hi]
  | append_singleton fs f ih =>
    obtain ⟨ih1, ih2⟩ := ih
    rw [runFrames_concat, sampleStep_wc, sampleStep_wi, nextWriteCursor_toNat, ih1, ih2, runFrames_ringLen]
    simp only [List.length_append, List.length_singleton]
    constructor
    · omega
    · rw [Nat.mod_add_mod, Nat.add_assoc]

/-- A sample step keeps every range and both canonical forms (10_state.md R39). -/
theorem sampleStep_inRange (l r : F32) {s : State} (h : s.InRange) : (sampleStep l r s).InRange where
  ringLen_pos := by simpa using h.ringLen_pos
  dt_range := by simpa using h.dt_range
  fb_range := by simpa using h.fb_range
  mx_range := by simpa using h.mx_range
  vc_range := by simpa using h.vc_range
  bd_range := by simpa using h.bd_range
  wc_range := by
    rw [sampleStep_wc, nextWriteCursor_toNat]
    exact Nat.mod_lt _ (by decide)
  wi_range := by
    rw [sampleStep_wi, sampleStep_ringLen]
    exact Nat.mod_lt _ h.ringLen_pos
  dm_wf := by
    rw [sampleStep_dm]
    exact wf_dmWrite h.dm_wf
  wm_wf := by
    rw [sampleStep_wm, sampleStep_ringLen, tapLoop_eq]
    exact tapPrefix_wm_wf h.vc_range.2 h.wi_range h.wm_wf

theorem runFrames_inRange (fs : List (F32 × F32)) {s : State} (h : s.InRange) : (runFrames fs s).InRange :=
  runFrames_keeps (fun l r _ => sampleStep_inRange l r) fs h

/-- Two response words a sample step, in order (42_process_block.md R150). -/
theorem runFrames_resp (fs : List (F32 × F32)) (s : State) :
    ∃ ws, (runFrames fs s).resp = s.resp ++ ws ∧ ws.length = 2 * fs.length := by
  induction fs using List.reverseRecOn with
  | nil => exact ⟨[], by simp, rfl⟩
  | append_singleton fs f ih =>
    obtain ⟨ws, h1, h2⟩ := ih
    refine ⟨ws ++ sampleOutputs f.1 f.2 (runFrames fs s), ?_, ?_⟩
    · rw [runFrames_concat, sampleStep_resp, h1, List.append_assoc]
    · simp [h2]; omega

/-! ## The block -/

@[simp] theorem portOfFrames_nil : portOfFrames [] = [] := rfl

@[simp] theorem portOfFrames_cons (f : F32 × F32) (fs : List (F32 × F32)) :
    portOfFrames (f :: fs) = f.1 :: f.2 :: portOfFrames fs := rfl

theorem portOfFrames_append (fs gs : List (F32 × F32)) :
    portOfFrames (fs ++ gs) = portOfFrames fs ++ portOfFrames gs := by
  simp [portOfFrames]

theorem portOfFrames_length (fs : List (F32 × F32)) : (portOfFrames fs).length = 2 * fs.length := by
  induction fs with
  | nil => rfl
  | cons f fs ih => simp [ih]; omega

/-- Any words begin with some whole frames; at most one word is left over. -/
theorem exists_frames (ws : List Word) : ∃ fs rest, ws = portOfFrames fs ++ rest ∧ rest.length < 2 := by
  match ws with
  | [] => exact ⟨[], [], rfl, by decide⟩
  | [w] => exact ⟨[], [w], rfl, by simp⟩
  | l :: r :: ws =>
    obtain ⟨fs, rest, h1, h2⟩ := exists_frames ws
    exact ⟨(l, r) :: fs, rest, by simp [h1], h2⟩

/-- Sample steps use up the room their outputs take. -/
theorem runFrames_room {fs : List (F32 × F32)} {s : State} {k : Nat} (h : s.hasRoom (2 * fs.length + k)) :
    (runFrames fs s).hasRoom k := by
  obtain ⟨ws, hr, hl⟩ := runFrames_resp fs s
  intro c e
  have := h c ((runFrames_respCap fs s).symm.trans e)
  rw [hr, List.length_append, hl]
  omega

/-- One sample step of a block: its outputs go out and the block goes on, or it waits before its pointer advance. -/
theorem runBlock_step (total left : Nat) {l r : F32} {rest : List Word} {s : State} (hp : s.port = l :: r :: rest) :
    runBlock total (left + 1) s =
      emitThen (sampleOutputs l r { s with port := rest }) (.sampleStep total left)
        (fun u => runBlock total left (advanceCursors u)) (sampleWrites l r { s with port := rest }) := by
  rw [runBlock, hp]

theorem runBlock_step_runs (total left : Nat) {l r : F32} {rest : List Word} {s : State} (hp : s.port = l :: r :: rest)
    (h : s.hasRoom 2) : runBlock total (left + 1) s = runBlock total left (sampleStep l r { s with port := rest }) :=
  (runBlock_step total left hp).trans (emitThen_runs (s := sampleWrites l r { s with port := rest }) h)

/-- The state of a block that waits in the sample step on the frame `f`, its writes done, for room for its outputs. -/
def waitingStep (total left c : Nat) (f : F32 × F32) (u : State) : State :=
  waitingOutput (c - u.resp.length) (sampleOutputs f.1 f.2 u) (.sampleStep total left) (sampleWrites f.1 f.2 u)

theorem runBlock_step_waits (total left c : Nat) {l r : F32} {rest : List Word} {s : State}
    (hp : s.port = l :: r :: rest) (hc : s.respCap = some c) (h : c - s.resp.length < 2) :
    runBlock total (left + 1) s = waitingStep total left c (l, r) { s with port := rest } :=
  (runBlock_step total left hp).trans (emitThen_waits (s := sampleWrites l r { s with port := rest }) hc h)

/-- A block that has no whole frame waits for one. -/
theorem runBlock_no_frame (total left : Nat) {s : State} (h : s.port.length < 2) :
    runBlock total (left + 1) s = { s with busy := some (.input total (left + 1)) } := by
  rw [runBlock]
  split
  · next e => rw [e] at h; exact absurd h (by simp)
  · rfl
  · rfl

/-- A block sets what waits by itself, whatever waited before. -/
theorem runBlock_busy_irrel (total left : Nat) (s : State) (b : Option Busy) :
    runBlock total left { s with busy := b } = runBlock total left s := by
  induction left generalizing s with
  | zero => rfl
  | succ left ih =>
    rcases exists_frames s.port with ⟨_ | ⟨f, fs⟩, rest, hp, hl⟩
    · have hlen : s.port.length < 2 := by rw [hp]; exact hl
      exact (runBlock_no_frame total left (s := { s with busy := b }) hlen).trans (runBlock_no_frame total left hlen).symm
    · rcases room_or_full s 2 with h | ⟨c, hc, h⟩
      · rw [runBlock_step_runs total left hp h, ← ih]
        exact runBlock_step_runs total left (s := { s with busy := b }) hp h
      · rw [runBlock_step_waits total left c hp hc h]
        exact runBlock_step_waits total left c (s := { s with busy := b }) hp hc h

/-- A run of sample steps inside a block whose outputs have room: the block goes on with the frames that are left. -/
theorem runBlock_frames (total left : Nat) (fs : List (F32 × F32)) (rest : List Word) (s : State)
    (hp : s.port = portOfFrames fs ++ rest) (hr : s.hasRoom (2 * fs.length)) :
    runBlock total (fs.length + left) s = runBlock total left (runFrames fs { s with port := rest }) := by
  induction fs generalizing s with
  | nil =>
    have hp' : s.port = rest := hp
    subst hp'
    rw [List.length_nil, Nat.zero_add]
    rfl
  | cons f fs ih =>
    have e : (f :: fs).length + left = (fs.length + left) + 1 := by simp; omega
    have hr' : s.hasRoom (2 * [f].length + 2 * fs.length) := hasRoom_le (by simp; omega) hr
    rw [e, runBlock_step_runs total _ (rest := portOfFrames fs ++ rest) hp (hasRoom_le (by simp) hr')]
    exact ih _ (by simp) (runFrames_room (fs := [f]) (s := { s with port := portOfFrames fs ++ rest }) hr')

/-- A block whose frames have all arrived and whose outputs have room completes (42_process_block.md R150). -/
theorem runBlock_complete (total : Nat) (fs : List (F32 × F32)) (rest : List Word) (s : State)
    (hp : s.port = portOfFrames fs ++ rest) (hr : s.hasRoom (2 * fs.length)) :
    runBlock total fs.length s = finishBlock total (runFrames fs { s with port := rest }) := by
  have := runBlock_frames total 0 fs rest s hp hr
  simpa [runBlock] using this

/-- A block that lacks frames waits with the earlier sample steps done (42_process_block.md R160). -/
theorem runBlock_starved (total left : Nat) (fs : List (F32 × F32)) (rest : List Word) (s : State)
    (hp : s.port = portOfFrames fs ++ rest) (hl : rest.length < 2) (hr : s.hasRoom (2 * fs.length)) :
    runBlock total (fs.length + (left + 1)) s =
      { runFrames fs { s with port := rest } with busy := some (.input total (left + 1)) } := by
  rw [runBlock_frames total (left + 1) fs rest s hp hr]
  refine runBlock_no_frame total left ?_
  rw [runFrames_port_irrel]
  exact hl

/-- A block whose next outputs have no room waits in that sample step (60_exceptions.md R224). -/
theorem runBlock_full (total left : Nat) (fs : List (F32 × F32)) (f : F32 × F32) (rest : List Word) (s : State) (c : Nat)
    (hp : s.port = portOfFrames fs ++ (f.1 :: f.2 :: rest)) (hr : s.hasRoom (2 * fs.length)) (hc : s.respCap = some c)
    (hfull : c - (s.resp.length + 2 * fs.length) < 2) :
    runBlock total (fs.length + (left + 1)) s =
      waitingStep total left c f (runFrames fs { s with port := rest }) := by
  rw [runBlock_frames total (left + 1) fs _ s hp hr, runFrames_port_irrel, runFrames_port_irrel fs s rest]
  obtain ⟨ws, hw, hl⟩ := runFrames_resp fs s
  have hcap := (runFrames_respCap fs s).trans hc
  refine runBlock_step_waits total left c (s := { runFrames fs s with port := f.1 :: f.2 :: rest }) rfl hcap ?_
  show c - (runFrames fs s).resp.length < 2
  rw [hw, List.length_append, hl]
  exact hfull

/-- What a block does, once and for all: some whole frames are taken, and it completes, or waits for the rest, or waits
for room for the outputs of the frame after them. -/
theorem runBlock_cases (total left : Nat) (s : State) :
    ∃ fs rest, s.hasRoom (2 * fs.length) ∧
      ((s.port = portOfFrames fs ++ rest ∧ fs.length = left ∧
          runBlock total left s = finishBlock total (runFrames fs { s with port := rest })) ∨
       (s.port = portOfFrames fs ++ rest ∧ fs.length < left ∧ rest.length < 2 ∧ runBlock total left s =
          { runFrames fs { s with port := rest } with busy := some (.input total (left - fs.length)) }) ∨
       (∃ f c, s.port = portOfFrames fs ++ (f.1 :: f.2 :: rest) ∧ fs.length < left ∧ s.respCap = some c ∧
          c - (s.resp.length + 2 * fs.length) < 2 ∧
          runBlock total left s =
            waitingStep total (left - fs.length - 1) c f (runFrames fs { s with port := rest }))) := by
  induction left generalizing s with
  | zero => exact ⟨[], s.port, hasRoom_zero s, .inl ⟨rfl, rfl, rfl⟩⟩
  | succ left ih =>
    rcases exists_frames s.port with ⟨_ | ⟨f, fs⟩, rest, hp, hl⟩
    · have h := runBlock_starved total left [] rest s hp hl (hasRoom_zero s)
      rw [List.length_nil, Nat.zero_add] at h
      exact ⟨[], rest, hasRoom_zero s, .inr (.inl ⟨hp, by simp, hl, h⟩)⟩
    · rcases room_or_full s 2 with hroom | ⟨c, hc, hfull⟩
      · obtain ⟨gs, rest', hr, h⟩ := ih (sampleStep f.1 f.2 { s with port := portOfFrames fs ++ rest })
        have hall : s.hasRoom (2 * (f :: gs).length) := by
          intro c hc
          have h1 := hr c hc
          have h2 := hroom c hc
          simp only [sampleStep_resp, List.length_append, sampleOutputs_length] at h1
          simp only [List.length_cons]
          omega
        refine ⟨f :: gs, rest', hall, ?_⟩
        have hrun : runFrames gs { sampleStep f.1 f.2 { s with port := portOfFrames fs ++ rest } with port := rest' } =
            runFrames (f :: gs) { s with port := rest' } := by
          rw [runFrames_cons, ← sampleStep_port_irrel]
        rw [hrun] at h
        rw [runBlock_step_runs total left (rest := portOfFrames fs ++ rest) hp hroom, hp]
        simp only [sampleStep_port, sampleStep_respCap, sampleStep_resp, List.length_append, sampleOutputs_length] at h
        simp only [portOfFrames_cons, List.cons_append, List.cons.injEq, true_and, List.length_cons,
          Nat.add_lt_add_iff_right, Nat.add_right_cancel_iff, Nat.add_sub_add_right]
        rcases h with ⟨h1, h2, h3⟩ | ⟨h1, h2, h3, h4⟩ | ⟨g, c, h1, h2, h3, h4, h5⟩
        · exact .inl ⟨h1, h2, h3⟩
        · exact .inr (.inl ⟨h1, h2, h3, h4⟩)
        · exact .inr (.inr ⟨g, c, h1, h2, h3, by omega, h5⟩)
      · have h := runBlock_full total left [] f (portOfFrames fs ++ rest) s c hp (hasRoom_zero s) hc hfull
        rw [List.length_nil, Nat.zero_add] at h
        exact ⟨[], portOfFrames fs ++ rest, hasRoom_zero s, .inr (.inr ⟨f, c, hp, by simp, hc, hfull, h⟩)⟩

end Sys2Proof.Machine
end

