-- ==== Sys2Proof/Laws/Step.lean ====
section
/-!
SUPPORT. What one step can do, said once: the law of `fetch` and the case analysis of `step`.
-/

namespace Sys2Proof.Machine

/-! ## Reading the head of the command port -/

theorem fetch_stuck {s : State} (h : s.faulted = true) : fetch s = .stuck := by
  simp [fetch, h]

theorem fetch_resume {s : State} {b : Busy} (h : s.faulted = false) (hb : s.busy = some b) :
    fetch s = .resume b := by
  simp [fetch, h, hb]

theorem fetch_run {s : State} {i : Instr} {rest : List Word} (h : s.faulted = false) (hb : s.busy = none)
    (hd : decode s.port = .ok (i, rest)) : fetch s = .run i := by
  simp [fetch, h, hb, hd]

theorem fetch_wait {s : State} (h : s.faulted = false) (hb : s.busy = none)
    (hd : decode s.port = .error .noCommandWord) : fetch s = .wait := by
  simp [fetch, h, hb, hd]

theorem fetch_illegal {s : State} {e : DecodeError} (h : s.faulted = false) (hb : s.busy = none)
    (hd : decode s.port = .error e) (he : e = .reservedBitsSet ∨ e = .unassignedOpcode) : fetch s = .illegal := by
  rcases he with he | he <;> simp [fetch, h, hb, hd, he]

theorem fetch_missing {s : State} {op : Opcode} (h : s.faulted = false) (hb : s.busy = none)
    (hd : decode s.port = .error (.operandsMissing op)) :
    fetch s = if needsInstance op && !s.alive then .noInstance else .wait := by
  simp [fetch, h, hb, hd]

/-- What one step can do, once and for all. -/
theorem step_cases {s t : State} (h : step s = .next t) :
    s.faulted = false ∧
      ((∃ b, s.busy = some b ∧ t = resumeBusy b s) ∨
       (s.busy = none ∧ t = s) ∨
       (s.busy = none ∧ t = skipIllegal s) ∨
       (s.busy = none ∧ s.alive = false ∧ t = raiseFault Config.faultNoInstance s) ∨
       (s.busy = none ∧ ∃ i rest, decode s.port = .ok (i, rest) ∧ exec i s = .next t)) := by
  cases hf : s.faulted with
  | true => simp [step, fetch_stuck hf] at h
  | false =>
    refine ⟨rfl, ?_⟩
    cases hb : s.busy with
    | some b =>
      rw [step, fetch_resume hf hb] at h
      exact .inl ⟨b, rfl, (Host.Outcome.next.inj h).symm⟩
    | none =>
      right
      cases hd : decode s.port with
      | ok r =>
        rw [step, fetch_run hf hb hd] at h
        exact .inr (.inr (.inr ⟨rfl, r.1, r.2, rfl, h⟩))
      | error e =>
        cases e with
        | noCommandWord =>
          rw [step, fetch_wait hf hb hd] at h
          exact .inl ⟨rfl, (Host.Outcome.next.inj h).symm⟩
        | reservedBitsSet =>
          rw [step, fetch_illegal hf hb hd (.inl rfl)] at h
          exact .inr (.inl ⟨rfl, (Host.Outcome.next.inj h).symm⟩)
        | unassignedOpcode =>
          rw [step, fetch_illegal hf hb hd (.inr rfl)] at h
          exact .inr (.inl ⟨rfl, (Host.Outcome.next.inj h).symm⟩)
        | operandsMissing op =>
          rw [step, fetch_missing hf hb hd] at h
          cases hn : (needsInstance op && !s.alive) with
          | true =>
            rw [hn] at h
            simp only [Bool.and_eq_true, Bool.not_eq_true'] at hn
            exact .inr (.inr (.inl ⟨rfl, hn.2, (Host.Outcome.next.inj h).symm⟩))
          | false =>
            rw [hn] at h
            exact .inl ⟨rfl, (Host.Outcome.next.inj h).symm⟩

end Sys2Proof.Machine
end

