-- ==== Sys2Proof/Tests/Slice0.lean ====
section
/-!
SUPPORT. Tests with results from the spec's own tables and vectors (95_test_vectors.md, 40_tap_geometry.md), and for each
obligation with hypotheses a concrete state and operands that meet them.
-/

namespace Sys2Proof.Tests

open Sys2Proof Sys2Proof.Machine

/-- An engine created at 1000 Hz with `BD = 1` in its next block, feedback 0.5 and the given mix, voices and words. -/
def engine (mx : F32) (vc : BitVec 5) (ws : List Word) : State :=
  { State.reset with
    sr := 0x447A0000, dt := 0x3F800000, fb := 0x3F000000, mx := mx, vc := vc, alive := true, port := ws }

/-- Power-on with words sent. -/
def powered (ws : List Word) : State := { State.reset with port := ws }

/-- The next state, if the step has one. -/
def result (s : State) : Option State :=
  match step s with
  | .next t => some t
  | .fault _ => none
  | .refused _ => none

/-- What one step changes of the parts a command answers with. -/
def answer (s : State) : Option (List Word × Nat) := (result s).map fun t => (t.resp, t.cp)

/-! ## Syntax and well-formedness -/

theorem test_illformed_voice_counts :
    (Instr.setVoiceCount (2 ^ 31)).wellFormed = false ∧ (Instr.setVoiceCount (-2 ^ 31 - 1)).wellFormed = false ∧
    (Instr.setVoiceCount (2 ^ 31 - 1)).wellFormed = true ∧ (Instr.setVoiceCount (-2 ^ 31)).wellFormed = true := by decide

theorem test_illformed_block_lengths :
    (Instr.processBlock (2 ^ 32) 1 1 1).wellFormed = false ∧ (Instr.processBlock 1 (2 ^ 32) 1 1).wellFormed = false ∧
    (Instr.processBlock 1 1 (2 ^ 32) 1).wellFormed = false ∧ (Instr.processBlock 1 1 1 (2 ^ 32)).wellFormed = false ∧
    (Instr.processBlock (2 ^ 32 - 1) (2 ^ 32 - 1) (2 ^ 32 - 1) (2 ^ 32 - 1)).wellFormed = true := by decide

theorem test_illformed_voice_indices :
    (Instr.getVoiceWaveform (2 ^ 32)).wellFormed = false ∧ (Instr.readVoiceRing (2 ^ 32)).wellFormed = false ∧
    (Instr.getVoiceWaveform (2 ^ 32 - 1)).wellFormed = true ∧ (Instr.readVoiceRing (2 ^ 32 - 1)).wellFormed = true := by
  decide

theorem test_illformed_lines :
    (Line.impulse 0).wellFormed = false ∧ (Line.impulse (2 ^ 32)).wellFormed = false ∧
    (Line.process (2 ^ 32)).wellFormed = false ∧ (Line.silence (2 ^ 32)).wellFormed = false ∧
    (Line.command (.setVoiceCount (2 ^ 31))).wellFormed = false ∧ (Line.impulse 1).wellFormed = true := by decide

/-! ## Decoding: each command's words from 30_encoding.md R71 to R73 and the listings of 95_test_vectors.md -/

theorem test_decode_create : decode [0x00000001, 0x472C4400] = .ok (.create 0x472C4400, []) := by rfl
theorem test_decode_destroy : decode [0x00000002] = .ok (.destroy, []) := by rfl
theorem test_decode_reset : decode [0x00000003] = .ok (.reset, []) := by rfl
theorem test_decode_set_sample_rate : decode [0x00000010, 0x43FA0000] = .ok (.setSampleRate 0x43FA0000, []) := by rfl
theorem test_decode_set_delay_time : decode [0x00000011, 0x459C4000] = .ok (.setDelayTime 0x459C4000, []) := by rfl
theorem test_decode_set_feedback : decode [0x00000012, 0x3FC00000] = .ok (.setFeedback 0x3FC00000, []) := by rfl
theorem test_decode_set_mix : decode [0x00000013, 0xBF000000] = .ok (.setMix 0xBF000000, []) := by rfl
theorem test_decode_set_voice_count : decode [0x00000014, 0xFFFFFFFB] = .ok (.setVoiceCount (-5), []) := by rfl
theorem test_decode_get_sample_rate : decode [0x00000020] = .ok (.getSampleRate, []) := by rfl
theorem test_decode_get_delay_time : decode [0x00000021] = .ok (.getDelayTime, []) := by rfl
theorem test_decode_get_feedback : decode [0x00000022] = .ok (.getFeedback, []) := by rfl
theorem test_decode_get_mix : decode [0x00000023] = .ok (.getMix, []) := by rfl
theorem test_decode_get_voice_count : decode [0x00000024] = .ok (.getVoiceCount, []) := by rfl
theorem test_decode_get_write_cursor : decode [0x00000025] = .ok (.getWriteCursor, []) := by rfl
theorem test_decode_process_block :
    decode [0x00000030, 3, 2, 5, 4, 0x3F800000] = .ok (.processBlock 3 2 5 4, [0x3F800000]) := by rfl
theorem test_decode_get_waveform_size : decode [0x00000040] = .ok (.getWaveformSize, []) := by rfl
theorem test_decode_get_waveform_index : decode [0x00000041] = .ok (.getWaveformIndex, []) := by rfl
theorem test_decode_get_voice_waveform :
    decode [0x00000042, 0xFFFFFFFF] = .ok (.getVoiceWaveform 4294967295, []) := by rfl
theorem test_decode_read_voice_ring : decode [0x00000043, 1] = .ok (.readVoiceRing 1, []) := by rfl

/-- 95_test_vectors.md section 2.1: the illegal words. -/
theorem test_decode_illegal :
    ([0x00000000, 0x00000004, 0x00000015, 0x00000026, 0x00000044, 0x000000FF].map decodeWord).all
      (fun r => match r with | .error .unassignedOpcode => true | _ => false) = true ∧
    ([0x00000110, 0x80000001, 0x3F800000].map decodeWord).all
      (fun r => match r with | .error .reservedBitsSet => true | _ => false) = true := by decide

/-- The `match` words of opcode_table.json, through the host's entry point. -/
theorem test_table_words :
    ([0x01, 0x02, 0x03, 0x10, 0x11, 0x12, 0x13, 0x14, 0x20, 0x21].map (decodeTableWord 32)) =
      [some (.create 0), some .destroy, some .reset, some (.setSampleRate 0), some (.setDelayTime 0),
        some (.setFeedback 0), some (.setMix 0), some (.setVoiceCount 0), some .getSampleRate, some .getDelayTime] ∧
    ([0x22, 0x23, 0x24, 0x25, 0x30, 0x40, 0x41, 0x42, 0x43, 0x110].map (decodeTableWord 32)) =
      [some .getFeedback, some .getMix, some .getVoiceCount, some .getWriteCursor, some (.processBlock 0 0 0 0),
        some .getWaveformSize, some .getWaveformIndex, some (.getVoiceWaveform 0), some (.readVoiceRing 0), none] := by
  decide

/-- The first step after power-on: CREATE and GET_WAVEFORM_SIZE run, RESET faults (vectors F1, F2). -/
theorem test_first_step :
    (result (State.reset.withFetchWord 32 0x01)).map (fun t => (t.alive, t.cp)) = some (true, 2) ∧
    (result (State.reset.withFetchWord 32 0x40)).map (fun t => (t.resp, t.cp)) = some ([8], 1) ∧
    (result (State.reset.withFetchWord 32 0x03)).map (fun t => (t.faulted, t.faultInfo)) = some (true, ⟨1, 0⟩) := by decide

/-- 20_memory.md R57: least significant byte first; R58: a partial word is no word yet. -/
theorem test_bytes :
    wordsOfBytes [0x11, 0x00, 0x00, 0x00, 0x00, 0x40, 0x9C, 0x45, 0x21] = ([0x00000011, 0x459C4000], [0x21]) ∧
    decodeBytes [0x11, 0x00, 0x00, 0x00, 0x00, 0x40, 0x9C, 0x45] = .ok (.setDelayTime 0x459C4000, []) := ⟨by decide, by rfl⟩

/-! ## The assembler: lines of 95_test_vectors.md section 3 and their words -/

/-- The words of a line of text. -/
def wordsOf (line : String) : Option (List Word) :=
  (parseLine line.toList).map fun l => (l.map assembleLine).getD []

theorem test_assemble_create : wordsOf "CREATE 44100.0" = some [0x00000001, 0x472C4400] := by decide
theorem test_assemble_mix : wordsOf "  SET_MIX -0.5   ; a comment" = some [0x00000013, 0xBF000000] := by decide
theorem test_assemble_voices : wordsOf "SET_VOICE_COUNT -5" = some [0x00000014, 0xFFFFFFFB] := by decide
theorem test_assemble_block : wordsOf "PROCESS_BLOCK 3, 2, 5, 4" = some [0x30, 3, 2, 5, 4] := by decide
theorem test_assemble_frame : wordsOf "FRAME 0.5, -0.5" = some [0x3F000000, 0xBF000000] := by decide
theorem test_assemble_impulse :
    wordsOf "IMPULSE 3" = some [0x30, 3, 3, 3, 3, 0x3F800000, 0x3F800000, 0, 0, 0, 0] := by decide
theorem test_assemble_raw : wordsOf ".word 0x00000110" = some [0x00000110] := by decide
theorem test_assemble_pattern : wordsOf "SET_DELAY_TIME #0x41B567E9" = some [0x00000011, 0x41B567E9] := by decide
theorem test_assemble_refuses :
    wordsOf "IMPULSE" = none ∧ wordsOf "SET_VOICE_COUNT 2147483648" = none ∧ wordsOf "HALT" = none := by decide
/-- Texts R81 and R82 do not give, refused by choice (log entry 22). -/
theorem test_assemble_refuses_unlisted :
    wordsOf "IMPULSE 0" = none ∧ wordsOf "SET_MIX #5" = none ∧ wordsOf "SET_VOICE_COUNT -0x5" = none ∧
    wordsOf "SET_MIX 5." = none ∧ wordsOf "SET_MIX .5" = none := by decide

/-! ## Arithmetic (00_scope.md R16, R17; vectors P-NEG0, P-OVF, P-SUBTIE, V1) -/

theorem test_add_overflow : f32Add 0 0x7F61B1E6 0x7F61B1E6 = 0x7F800000 := by decide
theorem test_mul_subnormal_tie : f32Mul 0 0x3F000000 0x00000001 = 0x00000000 := by decide
theorem test_add_signed_zeros : f32Add 0 0x80000000 0x00000000 = 0x00000000 := by decide
theorem test_div_rounds : f32Div 0 0x41B567E9 0x447A0000 = 0x3CB9C278 := by decide
theorem test_mul_rounds : f32Mul 0 0x3CB9C278 0x472C4400 = 0x447A0001 := by decide
theorem test_round_half_away :
    roundHalfAway 5 2 = 3 ∧ roundHalfAway (-5) 2 = -3 ∧ roundHalfAway 1 2 = 1 ∧ roundHalfAway 7 3 = 2 := by decide

/-! ## Tap geometry: the tables of 95_test_vectors.md section 2.2 and 40_tap_geometry.md R101 -/

theorem test_base_delay_finite :
    baseDelay 0 0x42C80000 0x472C4400 = 4410 ∧ baseDelay 0 0x43960000 0x472C4400 = 11999 ∧
    baseDelay 0 0x00000000 0x472C4400 = 1 ∧ baseDelay 0 0x3FC00000 0x447A0000 = 2 ∧
    baseDelay 0 0x40200000 0x447A0000 = 3 ∧ baseDelay 0 0x3F000000 0x447A0000 = 1 ∧
    baseDelay 0 0x41B567E9 0x472C4400 = 1000 ∧ baseDelay 0 0x43880000 0x472C4400 = 11995 ∧
    baseDelay 0 0x4379FD71 0x473B8000 = 11999 := by decide

theorem test_base_delay_rates :
    baseDelay 0 0x42C80000 0x00000000 = 1 ∧ baseDelay 0 0x42C80000 0xC72C4400 = 1 ∧
    baseDelay 0 0x41200000 0x7F800000 = 11999 ∧ baseDelay 0 0x41200000 0xFF800000 = 1 := by decide

/-- The two NaN arms of the table of section 2.2; the NaN itself is a free value. -/
theorem test_base_delay_nan : baseDelay 0 0x42C80000 0x7FC00000 = 1 ∧ baseDelay 0 0x00000000 0x7F800000 = 1 := by
  constructor <;>
  · unfold baseDelay baseDelayOfProduct
    simp only
    rw [if_pos]
    first
      | exact isNaN_f32Mul_right (by decide)
      | (have h : f32Div 0 0x00000000 Config.thousand = 0x00000000 := by decide
         rw [h]
         unfold f32Mul
         rw [if_pos (by decide)]
         exact isNaN_nanResult ..)

theorem test_tap_delays :
    (List.range 3).map (fun i => tapDelay i 3 1001) = [1001, 2335, 3670] ∧
    (List.range 4).map (fun i => tapDelay i 4 1000) = [1000, 2250, 3500, 4750] ∧
    (List.range 5).map (fun i => tapDelay i 5 7) = [7, 15, 23, 32, 40] ∧
    (List.range 16).map (fun i => tapDelay i 16 11336) =
      [11336, 23380, 35425, 47469, 59514, 71558, 83603, 95647, 107692, 119736, 131781, 143825, 155870, 167914, 179959] ++
      [191999] ∧
    tapDelay 15 16 11335 = 191986 ∧ tapDelay 0 1 7 = 7 := by decide

theorem test_tap_gains :
    tapGain 0 1 = 0x3F800000 ∧ tapGain 0 2 = 0x3F4CCCCD ∧ tapGain 1 2 = 0x3F19999A ∧ tapGain 3 4 = 0x3E969BB6 ∧
    tapGain 4 5 = 0x3E5C9B82 ∧ tapGain 6 7 = 0x3DF34568 ∧ tapGain 0 9 = 0x3F29CEB3 ∧ tapGain 12 13 = 0x3CABAFCD ∧
    tapGain 0 16 = 0x3F29562B ∧ tapGain 15 16 = 0x3C10D3BB := by decide

/-- 40_tap_geometry.md R102: every entry is in (0, 1], and the entries of a row strictly decrease. -/
theorem test_tap_gains_decrease :
    ∀ n ≤ 16, ∀ i < n, 0 < units (tapGain i n) ∧ units (tapGain i n) ≤ 2 ^ 149 ∧
      (i + 1 < n → units (tapGain (i + 1) n) < units (tapGain i n)) := by decide +kernel

/-- 40_tap_geometry.md R102: the squares of a row sum to 1 within `2 ^ -23`. -/
theorem test_tap_gain_energy :
    ∀ n < 16,
      |(List.range (n + 1)).foldl (fun acc i => acc + units (tapGain i (n + 1)) ^ 2) 0 - 2 ^ 298| ≤ 2 ^ 275 := by
  decide +kernel

/-! ## Engine control: vectors V8 and section 2.3 -/

theorem test_set_delay_time :
    (result (engine 0 1 [0x11, 0xC2C80000])).map (fun t => t.dt) = some 0x00000000 ∧
    (result (engine 0 1 [0x11, 0x459C4000])).map (fun t => t.dt) = some 0x44FA0000 ∧
    (result (engine 0 1 [0x11, 0x44FA0000])).map (fun t => t.dt) = some 0x44FA0000 ∧
    (result (engine 0 1 [0x11, 0x7F800000])).map (fun t => t.dt) = some 0x44FA0000 := by decide

theorem test_set_feedback :
    (result (engine 0 1 [0x12, 0x3FC00000])).map (fun t => t.fb) = some 0x3F800000 ∧
    (result (engine 0 1 [0x12, 0x3F800001])).map (fun t => t.fb) = some 0x3F800000 ∧
    (result (engine 0 1 [0x12, 0x00000001])).map (fun t => t.fb) = some 0x00000001 := by decide

theorem test_set_mix :
    (result (engine 0x3F000000 1 [0x13, 0xBF000000])).map (fun t => t.mx) = some 0x00000000 ∧
    (result (engine 0x3F000000 1 [0x13, 0x7FC00000])).map (fun t => t.mx) = some 0x3F000000 ∧
    (result (engine 0x3F000000 1 [0x13, 0x80000000])).map (fun t => t.mx) = some 0x80000000 ∧
    (result (engine 0x3F000000 1 [0x13, 0xFF800000])).map (fun t => t.mx) = some 0x00000000 := by decide

theorem test_set_voice_count :
    (result (engine 0 1 [0x14, 20])).map (fun t => t.vc) = some 16 ∧
    (result (engine 0 1 [0x14, 0])).map (fun t => t.vc) = some 1 ∧
    (result (engine 0 1 [0x14, 0x80000000])).map (fun t => t.vc) = some 1 ∧
    (result (engine 0 1 [0x14, 0x7FFFFFFF])).map (fun t => t.vc) = some 16 := by decide

theorem test_set_sample_rate :
    (result (engine 0 1 [0x10, 0x7FC00001])).map (fun t => (t.sr, t.cp)) = some (0x7FC00001, 2) := by decide

theorem test_get_sample_rate : answer (engine 0 1 [0x20]) = some ([0x447A0000], 1) := by decide
theorem test_get_delay_time : answer (engine 0 1 [0x21]) = some ([0x3F800000], 1) := by decide
theorem test_get_feedback : answer (engine 0 1 [0x22]) = some ([0x3F000000], 1) := by decide
theorem test_get_mix : answer (engine 0x3E800000 1 [0x23]) = some ([0x3E800000], 1) := by decide
theorem test_get_voice_count : answer (engine 0 16 [0x24]) = some ([0x00000010], 1) := by decide
theorem test_get_write_cursor :
    answer { engine 0 1 [0x25] with wc := 191999 } = some ([0x0002EDFF], 1) := by decide

/-- An engine that has run a little: cursors and both memories are not zero. -/
def used (ws : List Word) : State :=
  { engine 0x3F000000 16 ws with wc := 2, wi := 2, dm := [(0, 0x3F000000)], wm := [(0, 0x3F000000)] }

theorem test_reset :
    (result (used [0x03])).map (fun t => (t.wc, t.wi)) = some (0, 0) ∧
    (result (used [0x03])).map (fun t => (t.dm, t.wm)) = some ([], []) ∧
    (result (used [0x03])).map (fun t => (t.mx, t.vc, t.cp)) = some (0x3F000000, 16, 1) := by decide

/-! ## Lifecycle and faults: vectors V7, F2 to F7 -/

theorem test_create :
    (result (used [0x01, 0x472C4400])).map (fun t => (t.sr, t.dt)) = some (0x472C4400, 0x43960000) ∧
    (result (used [0x01, 0x472C4400])).map (fun t => (t.fb, t.mx, t.vc)) = some (0x3E99999A, 0x3F000000, 1) ∧
    (result (used [0x01, 0x472C4400])).map (fun t => (t.wc, t.dm, t.alive)) = some (0, [], true) := by decide

theorem test_destroy : (result (engine 0 1 [0x02])).map (fun t => (t.alive, t.cp, t.faulted)) = some (false, 1, false) := by
  decide

/-- Vector F3: no operand word is taken. -/
theorem test_fault_keeps_operands :
    (result (powered [0x30, 1, 1, 1, 1])).map (fun t => (t.faultInfo, t.cp, t.port)) = some (⟨1, 0⟩, 1, [1, 1, 1, 1]) := by
  decide

/-- Vector F7: an illegal word without an instance is ignored; after the fault nothing runs. -/
theorem test_illegal_then_stuck :
    (result (powered [0x110, 0x40])).map (fun t => (t.faulted, t.cp, t.port)) = some (false, 1, [0x40]) ∧
    result { powered [0x01, 0x3F800000] with faulted := true, faultInfo := ⟨1, 2⟩, cp := 3 } = none := by decide

/-! ## Process block: vectors of section 2.4 -/

/-- Vector P-MIX. -/
theorem test_process_block_mix :
    (result (engine 0x3E800000 1 [0x30, 3, 3, 3, 3, 0x3F800000, 0xBF800000, 0x3F000000, 0x3E800000, 0, 0])).map
        (fun t => (t.resp, t.dm, t.cp)) =
      some ([0x3F400000, 0xBF400000, 0x3EC00000, 0x3E400000, 0x3DC00000, 0x3DC00000],
        [(1, 0x3EC00000), (2, 0x3E400000)], 11) := by decide

/-- Vector P-LAST's first steps with two voices: tap 0 alone, then tap 1, and only the last tap feeds back. -/
theorem test_process_block_two_voices :
    (result { engine 0x3F800000 2 [0x30, 3, 3, 3, 3, 0x3F800000, 0x3F800000, 0, 0, 0, 0] with fb := 0x3F800000 }).map
        (fun t => (t.resp, t.dm, t.wi)) =
      some ([0, 0, 0x3F4CCCCD, 0x3F4CCCCD, 0x3F19999A, 0x3F19999A], [(0, 0x3F800000), (2, 0x3F800000)], 3) := by decide

/-! ## Waveform capture: vector WF-W8 -/

/-- The ring of vector WF-W8 in slot order, `WI = 3`. -/
def captured (ws : List Word) : State :=
  { engine 0x3F800000 1 ws with
    wi := 3
    wm := [(0, 0x3C000000), (16, 0x3B800000), (32, 0x3B000000), (48, 0x3E800000)] ++
      [(64, 0x3E000000), (80, 0x3D800000), (96, 0x3D000000), (112, 0x3C800000)] }

theorem test_get_waveform_size : answer (captured [0x40]) = some ([0x00000008], 1) := by decide
theorem test_get_waveform_index : answer (captured [0x41]) = some ([0x00000003], 1) := by decide
theorem test_get_voice_waveform :
    answer (captured [0x42, 0]) =
      some ([0x3E800000, 0x3E000000, 0x3D800000, 0x3D000000, 0x3C800000, 0x3C000000, 0x3B800000, 0x3B000000], 2) := by
  decide
theorem test_get_voice_waveform_out_of_range :
    answer (captured [0x42, 0xFFFFFFFF]) = some ([0, 0, 0, 0, 0, 0, 0, 0], 2) := by decide
theorem test_read_voice_ring :
    answer (captured [0x43, 0]) =
      some ([0x3C000000, 0x3B800000, 0x3B000000, 0x3E800000, 0x3E000000, 0x3D800000, 0x3D000000, 0x3C800000], 2) := by
  decide

/-! ## Host adaptor -/

/-- 44_lifecycle_and_host.md R203, R204: a null handle sends nothing; a live one sends the block and its frames. -/
theorem test_adaptor :
    adaptorWords true (.setMix false 0x3F000000) = [] ∧ adaptorReturn (.getVoiceCount false) [] = .word 0 ∧
    adaptorWords true (.process true (some [0x3F800000]) (some [0xBF800000]) true true 1) =
      [0x30, 1, 1, 1, 1, 0x3F800000, 0xBF800000] ∧
    adaptorWords true (.process true none (some [0]) true true 1) = [] ∧
    adaptorReturn (.processSlices true [0x3F800000] [0xBF800000] 1 1) [0x3F400000, 0xBF400000] =
      .outputs [0x3F400000] [0xBF400000] := by decide

/-- 44_lifecycle_and_host.md R202: CREATE goes to a block with `ALIVE = 0` only. -/
theorem test_adaptor_create :
    adaptorWords false (.create 0x472C4400) = [0x00000001, 0x472C4400] ∧ adaptorWords true (.create 0x472C4400) = [] := by
  decide

/-! ## Back-pressure (44_lifecycle_and_host.md R209 (c), 60_exceptions.md R224) -/

/-- `s` with a response port that holds one word. -/
def narrow (s : State) : State := { s with respCap := some 1 }

/-- The first frame of vector P-MIX: the left output goes out, the right one waits, and the cursors wait with it. -/
theorem test_block_waits_for_room :
    (result (narrow (engine 0x3E800000 1 [0x30, 1, 1, 1, 1, 0x3F800000, 0xBF800000]))).map
        (fun t => (t.resp, t.busy, t.cp, t.wc)) =
      some ([0x3F400000], some (.output [0xBF400000] (.sampleStep 1 0)), 0, 0) := by decide

/-- Once the left output is taken, the right one goes out and the block ends. -/
theorem test_block_goes_on :
    (result { narrow (engine 0x3E800000 1 []) with busy := some (.output [0xBF400000] (.sampleStep 1 0)) }).map
        (fun t => (t.resp, t.busy, t.cp, t.wc)) =
      some ([0xBF400000], none, 7, 1) := by decide

theorem test_getter_waits_for_room :
    (result { narrow (engine 0 1 [0x22, 0x23]) with resp := [7] }).map (fun t => (t.resp, t.busy, t.cp, t.port)) =
      some ([7], some (.output [0x3F000000] (.command 1)), 0, [0x23]) := by decide

/-! ## Witnesses: for each obligation with hypotheses, a state and operands that meet them all -/

/-- An engine in range, whatever words are on its port. -/
theorem engine_inv (ws : List Word) : (engine 0x3E800000 2 ws).Inv where
  ringLen_pos := (by decide : 1 ≤ 8)
  dt_range := (by decide : inRange Config.delayTimeMax 0x3F800000 = true)
  fb_range := (by decide : inRange Config.one 0x3F000000 = true)
  mx_range := (by decide : inRange Config.one 0x3E800000 = true)
  vc_range := (by decide : 1 ≤ (2 : BitVec 5).toNat ∧ (2 : BitVec 5).toNat ≤ 16)
  bd_range := (by decide : 1 ≤ (1 : BitVec 14).toNat ∧ (1 : BitVec 14).toNat ≤ 11999)
  wc_range := (by decide : (0 : BitVec 18).toNat < 192000)
  wi_range := (by decide : 0 < 8)
  dm_wf := rfl
  wm_wf := rfl
  fault_code := rfl
  fault_position := fun h => nomatch h
  fault_released := fun h => nomatch h
  busy_legal := fun _ h => nomatch h
  resp_room := fun _ h => nomatch h

theorem engine_range (ws : List Word) : (engine 0x3E800000 2 ws).InRange := (engine_inv ws).toInRange

/-- A power-on state other than `State.reset`: `W = 3`, sixteen voices, a nonzero word of each memory. -/
def otherPowerOn : State :=
  { State.reset with ringLen := 3, sr := 0x7FC00000, vc := 16, wc := 191999, wi := 2, dm := [(191999, 1)], wm := [(47, 1)] }

theorem otherPowerOn_powerOn : otherPowerOn.PowerOn where
  not_alive := rfl
  not_faulted := rfl
  cp_zero := rfl
  port_empty := rfl
  resp_empty := rfl
  idle := rfl
  inv :=
    { ringLen_pos := by decide
      dt_range := by decide
      fb_range := by decide
      mx_range := by decide
      vc_range := by decide
      bd_range := by decide
      wc_range := by decide
      wi_range := by decide
      dm_wf := by decide
      wm_wf := by decide
      fault_code := rfl
      fault_position := fun h => nomatch h
      fault_released := fun h => nomatch h
      busy_legal := fun _ h => nomatch h
      resp_room := fun _ h => nomatch h }

theorem witness_PowerOnIsIdle : ∃ s : State, s.PowerOn := ⟨_, otherPowerOn_powerOn⟩

theorem witness_EveryStepKeepsRanges : ∃ s t : State, s.Inv ∧ step s = .next t := ⟨_, _, engine_inv [0x03], rfl⟩

theorem witness_ReachableStatesAreInRange : ∃ s : State, Reachable s ∧ s.port = [0x40] :=
  ⟨_, .send _ [0x40] (.powerOn _ otherPowerOn_powerOn), rfl⟩

theorem witness_DecodeAfterEncode :
    (Instr.setVoiceCount (-2 ^ 31)).wellFormed = true ∧ (Instr.getVoiceWaveform (2 ^ 32 - 1)).wellFormed = true := by decide

theorem witness_EncodeAfterDecode : decode [0x14, 0x80000000, 7] = .ok (.setVoiceCount (-2147483648), [7]) := by rfl

theorem witness_BytesCarryWordsLittleEndian : ([0x01, 0x02, 0x03] : List Byte).length < 4 := by decide

theorem witness_PseudoCommandsExpand : 1 ≤ 1 := by decide

theorem witness_StepRunsTheDecodedCommand :
    ∃ s : State, s.faulted = false ∧ s.busy = none ∧ decode s.port = .ok (.setMix 0x3F000000, [0x23]) :=
  ⟨powered [0x13, 0x3F000000, 0x23], rfl, rfl, rfl⟩

theorem witness_IllegalWordIsIgnored :
    ∃ s : State, s.faulted = false ∧ s.busy = none ∧ s.port = [0x00000101] ∧ (0x00000101 : Word) ∉ Claims.legalWords :=
  ⟨powered [0x00000101], rfl, rfl, rfl, by decide⟩

/-- A command that faults with its operand words missing, and the two that do not fault. -/
theorem witness_CommandsWithoutInstanceFault :
    (∃ s : State, s.faulted = false ∧ s.busy = none ∧ s.alive = false ∧ s.port = [0x30] ∧
      (0x30 : Word) ∈ Claims.legalWords ∧ (0x30 : Word) ≠ 1 ∧ (0x30 : Word) ≠ 0x40) ∧
    (∃ s : State, s.faulted = false ∧ s.busy = none ∧ s.alive = false ∧ s.port = [0x01] ∧
      (0x01 : Word) ∈ Claims.legalWords) ∧
    ∃ s : State, s.faulted = false ∧ s.busy = none ∧ s.alive = false ∧ s.port = [0x40] ∧
      (0x40 : Word) ∈ Claims.legalWords :=
  ⟨⟨powered [0x30], rfl, rfl, rfl, rfl, by decide, by decide, by decide⟩,
    ⟨powered [0x01], rfl, rfl, rfl, rfl, by decide⟩, ⟨powered [0x40], rfl, rfl, rfl, rfl, by decide⟩⟩

theorem witness_FaultIsRecordedAndFinal :
    (∃ s t : State, step s = .next t ∧ t.faulted = true) ∧ ∃ s : State, s.faulted = true :=
  ⟨⟨powered [0x03], _, rfl, rfl⟩, ⟨{ State.reset with faulted := true }, rfl⟩⟩

theorem witness_OnlyFaultedStops : ∃ s : State, s.faulted = false := ⟨powered [], rfl⟩

/-- The waits: no word; a command without all its operands, with and without an instance; half a frame; a full response
port. -/
theorem witness_WaitingChangesNothing :
    (∃ s : State, s.faulted = false ∧ s.busy = none ∧ s.port = []) ∧
    (∃ s : State, s.faulted = false ∧ s.busy = none ∧ s.alive = true ∧
      decode s.port = .error (.operandsMissing .processBlock)) ∧
    (∃ s : State, s.faulted = false ∧ s.busy = none ∧ s.alive = false ∧ decode s.port = .error (.operandsMissing .create)) ∧
    (∃ s : State, s.faulted = false ∧ s.busy = some (.input 2 1) ∧ s.port.length = 1) ∧
    ∃ s : State, s.faulted = false ∧ s.busy = some (.output [0] (.command 1)) ∧ ¬ s.hasRoom 1 :=
  ⟨⟨powered [], rfl, rfl, rfl⟩, ⟨engine 0 1 [0x30, 1, 1, 1], rfl, rfl, rfl, rfl⟩, ⟨powered [0x01], rfl, rfl, rfl, rfl⟩,
    ⟨{ engine 0 1 [7] with busy := some (.input 2 1) }, rfl, rfl, rfl⟩,
    ⟨{ narrow (engine 0 1 []) with resp := [7], busy := some (.output [0] (.command 1)) }, rfl, rfl,
      fun h => absurd (h 1 rfl) (by decide)⟩⟩

theorem witness_PortsMoveOneWay : ∃ s t : State, step s = .next t ∧ t.port ≠ s.port ∧ t.resp ≠ s.resp :=
  ⟨engine 0 1 [0x23], _, rfl, by decide, by decide⟩

/-- A command with an instance, one that needs none, one that faults, a waiting block, and an illegal word. -/
theorem witness_CommandsAdvanceByTheirLength :
    (∃ s t : State, s.busy = none ∧ decode s.port = .ok (.getMix, []) ∧ step s = .next t ∧ s.alive = true ∧ t.busy = none) ∧
    (∃ s t : State, s.busy = none ∧ decode s.port = .ok (.getWaveformSize, []) ∧ step s = .next t ∧ s.alive = false ∧
      Claims.legalWithoutInstance .getWaveformSize ∧ t.busy = none) ∧
    (∃ s t : State, s.busy = none ∧ decode s.port = .ok (.setMix 0, []) ∧ step s = .next t ∧ s.alive = false ∧
      ¬ Claims.legalWithoutInstance (.setMix 0)) ∧
    (∃ s t : State, s.busy = some (.input 1 1) ∧ step s = .next t ∧ t.busy = none) ∧
    (∃ s t : State, s.busy = some (.input 1 1) ∧ step s = .next t ∧ t.busy ≠ none) ∧
    (∃ s t : State, s.busy = some (.output [7] (.command 2)) ∧ step s = .next t ∧ t.busy = none) ∧
    (∃ s t : State, s.busy = some (.output [7, 8] (.sampleStep 1 0)) ∧ step s = .next t ∧ t.busy ≠ none) ∧
    ∃ s t : State, s.busy = none ∧ s.port = [0x04] ∧ (0x04 : Word) ∉ Claims.legalWords ∧ step s = .next t :=
  ⟨⟨engine 0 1 [0x23], _, rfl, rfl, rfl, rfl, rfl⟩, ⟨powered [0x40], _, rfl, rfl, rfl, rfl, trivial, rfl⟩,
    ⟨powered [0x13, 0], _, rfl, rfl, rfl, rfl, id⟩, ⟨{ engine 0 1 [0, 0] with busy := some (.input 1 1) }, _, rfl, rfl, rfl⟩,
    ⟨{ engine 0 1 [0] with busy := some (.input 1 1) }, _, rfl, rfl, by decide⟩,
    ⟨{ engine 0 1 [] with busy := some (.output [7] (.command 2)) }, _, rfl, rfl, rfl⟩,
    ⟨{ narrow (engine 0 1 []) with busy := some (.output [7, 8] (.sampleStep 1 0)) }, _, rfl, rfl, by decide⟩, ⟨powered [0x04], _, rfl, rfl, by decide, rfl⟩⟩

theorem witness_CommandsWriteOnlyTheirRegisters :
    ∃ s t : State, exec (.setMix 0) s = .next t ∧ Instr.setMix 0 ≠ .destroy := ⟨engine 0 1 [], _, rfl, by decide⟩

theorem witness_CreateInitialises : ∃ s : State, s.faulted = false := ⟨powered [], rfl⟩

/-- Two states that differ in a parameter and in the delay line. -/
theorem witness_CreateDiscardsEarlierState :
    ∃ s s' t t' : State, s.port = s'.port ∧ s.resp = s'.resp ∧ s.cp = s'.cp ∧ s.faultInfo = s'.faultInfo ∧ s.busy = s'.busy ∧
      s.ringLen = s'.ringLen ∧ s.respCap = s'.respCap ∧ s.draw = s'.draw ∧ s.dm ≠ s'.dm ∧ s.mx ≠ s'.mx ∧
      exec (.create 0) s = .next t ∧ exec (.create 0) s' = .next t' :=
  ⟨powered [1, 0], { engine 0x3E800000 1 [1, 0] with dm := [(0, 1)] }, _, _, rfl, rfl, rfl, rfl, rfl, rfl, rfl, rfl,
    by decide, by decide, rfl, rfl⟩

theorem witness_DestroyReleasesTheInstance :
    (∃ s : State, s.faulted = false ∧ s.alive = true) ∧ ∃ s : State, s.faulted = false ∧ s.alive = false :=
  ⟨⟨engine 0 1 [], rfl, rfl⟩, ⟨powered [], rfl, rfl⟩⟩

theorem witness_CreateIsResetWithDefaults :
    ∃ s c r : State, s.alive = true ∧ exec (.create 0) s = .next c ∧ exec .reset s = .next r :=
  ⟨engine 0 1 [], _, _, rfl, rfl, rfl⟩

/-- A getter that waits for room, a block that starts and then waits, and a block in progress with `BD` as it is. -/
theorem witness_BaseDelayLatchIsUnobservable :
    (∃ (s t : State) (b : BitVec 14), (Claims.inBlock s.busy → b = s.bd) ∧ b ≠ s.bd ∧ s.busy ≠ none ∧
      step s = .next t) ∧
    (∃ (s t : State) (b : BitVec 14), (Claims.inBlock s.busy → b = s.bd) ∧ b ≠ s.bd ∧ step s = .next t ∧
      Claims.inBlock t.busy) ∧
    ∃ (s t : State) (b : BitVec 14), (Claims.inBlock s.busy → b = s.bd) ∧ Claims.inBlock s.busy ∧ step s = .next t :=
  ⟨⟨{ engine 0 1 [] with busy := some (.output [5] (.command 1)) }, _, 7, fun h => h.elim, by decide, by decide, rfl⟩,
    ⟨engine 0 1 [0x30, 1, 1, 1, 1], _, 7, fun h => h.elim, by decide, rfl, trivial⟩,
    ⟨{ engine 0 1 [] with busy := some (.input 1 1) }, _, _, fun _ => rfl, trivial, rfl⟩⟩

/-- The setters, the getters, RESET, and the size, index and capture reads are stated for both values of `ALIVE`. -/
theorem witness_alive_and_not :
    (∃ s : State, s.faulted = false ∧ s.alive = true) ∧ ∃ s : State, s.faulted = false ∧ s.alive = false :=
  ⟨⟨engine 0 1 [], rfl, rfl⟩, ⟨powered [], rfl, rfl⟩⟩

theorem witness_SetSampleRateStoresVerbatim :
    (∃ s : State, s.faulted = false ∧ s.alive = true) ∧ ∃ s : State, s.faulted = false ∧ s.alive = false :=
  witness_alive_and_not

/-- NaN; the least negative value; the least value above 2000; the bounds themselves, and `-0.0`. -/
theorem witness_SetDelayTimeClamps :
    ∃ s : State, (s.faulted = false ∧ s.alive = true) ∧
      (isNaN 0x7F800001 = true ∧ (isNaN 0x80000001 = false ∧ units 0x80000001 < 0) ∧
      (isNaN 0x44FA0001 = false ∧ (2000 : Int) * 2 ^ 149 < units 0x44FA0001) ∧
      (isNaN 0x44FA0000 = false ∧ 0 ≤ units 0x44FA0000 ∧ ¬ (2000 : Int) * 2 ^ 149 < units 0x44FA0000) ∧
      (isNaN 0x80000000 = false ∧ 0 ≤ units 0x80000000 ∧ ¬ (2000 : Int) * 2 ^ 149 < units 0x80000000)) :=
  ⟨engine 0 1 [], ⟨rfl, rfl⟩, by decide⟩

/-- NaN; the least negative value; the least value above 1; the bound 1 and `+0.0`. -/
theorem witness_SetFeedbackAndSetMixClamp :
    ∃ s : State, (s.faulted = false ∧ s.alive = true) ∧
      (isNaN 0xFFFFFFFF = true ∧ (isNaN 0x80000001 = false ∧ units 0x80000001 < 0) ∧
      (isNaN 0x3F800001 = false ∧ (1 : Int) * 2 ^ 149 < units 0x3F800001) ∧
      (isNaN 0x3F800000 = false ∧ 0 ≤ units 0x3F800000 ∧ ¬ (1 : Int) * 2 ^ 149 < units 0x3F800000) ∧
      (isNaN 0x00000000 = false ∧ 0 ≤ units 0x00000000 ∧ ¬ (1 : Int) * 2 ^ 149 < units 0x00000000)) :=
  ⟨engine 0 1 [], ⟨rfl, rfl⟩, by decide⟩

theorem witness_SetVoiceCountClamps :
    ∃ s : State, (s.faulted = false ∧ s.alive = true) ∧
      ((0 : Int) < 1 ∧ (16 : Int) < 17 ∧ ((1 : Int) ≤ 1 ∧ (1 : Int) ≤ 16) ∧ ((1 : Int) ≤ 16 ∧ (16 : Int) ≤ 16)) :=
  ⟨engine 0 1 [], ⟨rfl, rfl⟩, by decide⟩

/-- `Claims.Answers` is stated with room for the words and without, for one word and for the `W` words of a ring. -/
theorem witness_room_and_full :
    (∃ s : State, s.faulted = false ∧ s.alive = true ∧ s.hasRoom 8) ∧
    ∃ s : State, s.faulted = false ∧ s.alive = true ∧ s.respCap = some 1 ∧ 1 - s.resp.length < 1 ∧ 1 - s.resp.length < 8 :=
  ⟨⟨engine 0 1 [], rfl, rfl, fun _ h => nomatch h⟩,
    ⟨{ narrow (engine 0 1 []) with resp := [7] }, rfl, rfl, rfl, by decide, by decide⟩⟩

theorem witness_GettersReportTheirRegisters :
    ((∃ s : State, s.faulted = false ∧ s.alive = true ∧ s.hasRoom 8) ∧
      ∃ s : State, s.faulted = false ∧ s.alive = true ∧ s.respCap = some 1 ∧ 1 - s.resp.length < 1 ∧
        1 - s.resp.length < 8) ∧
    ∃ s : State, s.faulted = false ∧ s.alive = false :=
  ⟨witness_room_and_full, witness_alive_and_not.2⟩

theorem witness_ResetClearsAndKeepsParameters :
    (∃ s : State, s.faulted = false ∧ s.alive = true) ∧ ∃ s : State, s.faulted = false ∧ s.alive = false :=
  witness_alive_and_not

theorem witness_SettersLeaveTheDelayLine : ∃ s t : State, exec (.setVoiceCount 3) s = .next t := ⟨engine 0 1 [], _, rfl⟩

/-- Finite operands, the largest and the smallest; exact zero sums and differences; infinities of like and unlike sign. -/
theorem witness_AddAndSubRoundCorrectly :
    (isFinite 0x7F7FFFFF = true ∧ isFinite 0x80000001 = true) ∧
    (units 0x80000000 + units 0x80000000 = 0 ∧ units 0x00000001 - units 0x00000001 = 0) ∧
    (isInf 0x7F800000 = true ∧ isInf 0xFF800000 = true ∧ f32Neg 0xFF800000 ≠ f32Neg 0x7F800000) := by decide

/-- Finite operands; a zero product of unlike signs; an infinite operand; a division by zero and one by an infinity. -/
theorem witness_MulAndDivRoundCorrectly :
    (isFinite 0x7F7FFFFF = true ∧ isFinite 0x80000001 = true ∧ isZero 0x80000001 = false) ∧
    (isNaN (f32Mul 0 0x80000000 0x3F800000) = false ∧ isNaN (f32Mul 0 0xFF800000 0x3F800000) = false) ∧
    (isNaN (f32Div 0 0x3F800000 0x80000000) = false ∧ isZero 0x80000000 = true) ∧
    (isNaN (f32Div 0 0x3F800000 0xFF800000) = false ∧ isInf 0xFF800000 = true) := by decide

theorem witness_RoundHalfAwayIsNearest : 0 < 2 ∧ 2 * |roundHalfAway (-5) 2 * (2 : Nat) - (-5)| = 2 := by decide

/-- A finite product, and the two infinities; `test_base_delay_nan` has the NaN. -/
theorem witness_BaseDelayFollowsItsArms :
    isFinite (f32Mul 0 (f32Div 0 0x42C80000 0x447A0000) 0x472C4400) = true ∧
    (isInf (f32Mul 0 (f32Div 0 0x41200000 0x447A0000) 0x7F800000) = true ∧
      f32Neg (f32Mul 0 (f32Div 0 0x41200000 0x447A0000) 0x7F800000) = false) ∧
    (isInf (f32Mul 0 (f32Div 0 0x41200000 0x447A0000) 0xFF800000) = true ∧
      f32Neg (f32Mul 0 (f32Div 0 0x41200000 0x447A0000) 0xFF800000) = true) := by decide

theorem witness_BaseDelayFollowsItsArms_nan :
    isNaN (f32Mul 0 (f32Div 0 0x42C80000 0x447A0000) 0x7FC00000) = true := isNaN_f32Mul_right (by decide)

theorem witness_TapDelayFormulaAndRange :
    (15 < 16 ∧ 16 ≤ 16 ∧ 1 ≤ 11336 ∧ 11336 ≤ 11999) ∧ (0 < 1 ∧ 1 ≤ 16 ∧ 1 ≤ 1 ∧ 1 ≤ 11999) := by decide

theorem witness_TapDelaysAreSpaced :
    ((2 + 1 < 4 ∧ 4 ≤ 16 ∧ 1 ≤ 1000 ∧ 1000 ≤ 11999) ∧ ¬ (4 = 16 ∧ 2 + 1 = 15 ∧ 11336 ≤ 1000) ∧ 4 ∣ 1000) ∧
    ((14 + 1 < 16 ∧ 16 ≤ 16 ∧ 1 ≤ 11335 ∧ 11335 ≤ 11999) ∧ ¬ (16 = 16 ∧ 14 + 1 = 15 ∧ 11336 ≤ 11335)) ∧
    (14 + 1 < 16 ∧ 16 ≤ 16 ∧ 1 ≤ 11999 ∧ 11999 ≤ 11999) := by decide

theorem witness_TapGainIsNearestToRealGain : 15 < 16 ∧ 16 ≤ 16 ∧ isFinite 0x3C10D3BC = true := by decide

theorem witness_SampleStepFollowsItsRule : ∃ s : State, s.InRange ∧ s.vc.toNat = 2 := ⟨_, engine_range [], rfl⟩

/-- One frame whole, one extra word; a second frame whose outputs have room for one word, and for none; no instance. -/
theorem witness_ProcessBlockRunsItsFrames :
    (∃ s : State, s.faulted = false ∧ s.alive = true ∧ 5 ≤ s.port.length ∧
      s.port.drop 5 = portOfFrames [(0x3F800000, 0)] ++ [0x23] ∧ s.hasRoom 2 ∧
      [((0x3F800000 : F32), (0 : F32))].length = min (min 1 2) (min 3 4)) ∧
    (∀ c ∈ [2, 3], ∃ s : State, s.faulted = false ∧ s.alive = true ∧ 5 ≤ s.port.length ∧
      s.port.drop 5 = portOfFrames [(0x3F800000, 0)] ++ [0, 0] ∧ s.hasRoom 2 ∧
      [((0x3F800000 : F32), (0 : F32))].length < min (min 2 2) (min 2 2) ∧ s.respCap = some c ∧ s.resp.length ≤ c ∧
      c < s.resp.length + 2 * ([((0x3F800000 : F32), (0 : F32))].length + 1)) ∧
    ∃ s : State, s.faulted = false ∧ s.alive = false :=
  ⟨⟨engine 0 1 [0x30, 1, 2, 3, 4, 0x3F800000, 0, 0x23], rfl, rfl, by decide, rfl, fun _ h => (nomatch h), rfl⟩,
    fun c hc => by
      simp only [List.mem_cons, List.not_mem_nil, or_false] at hc
      rcases hc with rfl | rfl
      · exact ⟨{ engine 0 1 [0x30, 2, 2, 2, 2, 0x3F800000, 0, 0, 0] with respCap := some 2 }, rfl, rfl, by decide, rfl,
          fun d hd => by cases hd; decide, by decide, rfl, by decide, by decide⟩
      · exact ⟨{ engine 0 1 [0x30, 2, 2, 2, 2, 0x3F800000, 0, 0, 0] with respCap := some 3 }, rfl, rfl, by decide, rfl,
          fun d hd => by cases hd; decide, by decide, rfl, by decide, by decide⟩,
    ⟨powered [], rfl, rfl⟩⟩

theorem witness_EmptyBlockOnlyLatches :
    ∃ s : State, s.faulted = false ∧ s.alive = true ∧ s.busy = none ∧ (0 = 0 ∨ 4 = 0 ∨ 4 = 0 ∨ 4 = 0) :=
  ⟨engine 0 1 [], rfl, rfl, rfl, .inl rfl⟩

/-- A block of no frames completes; `witness_ProcessBlockFrame` has one that waits. -/
theorem witness_CursorsAdvanceByTheFrames :
    ∃ s t : State, s.InRange ∧ s.alive = true ∧ exec (.processBlock 1 1 1 1) s = .next t ∧ t.busy = none :=
  ⟨_, _, engine_range [0x30, 1, 1, 1, 1, 0, 0], rfl, rfl, by decide⟩

theorem witness_ProcessBlockFrame :
    ∃ s t : State, s.InRange ∧ s.alive = true ∧ exec (.processBlock 1 1 1 1) s = .next t ∧ t.busy ≠ none ∧
      min (min (min 1 1) (min 1 1)) ((s.port.length - 5) / 2) ≤ (191999 + 192000 - s.wc.toNat) % 192000 ∧
      min (min (min 1 1) (min 1 1)) ((s.port.length - 5) / 2) ≤ (7 + s.ringLen - s.wi) % s.ringLen :=
  ⟨_, _, engine_range [0x30, 1, 1, 1, 1], rfl, rfl, by decide, by decide, by decide⟩

/-- A block of two frames with one frame and a half on the port. -/
theorem witness_StarvedBlockWaits :
    ∃ s : State, s.faulted = false ∧ s.alive = true ∧ 5 ≤ s.port.length ∧
      s.port.drop 5 = portOfFrames [(0, 0)] ++ [0] ∧ ([0] : List Word).length < 2 ∧
      [((0 : F32), (0 : F32))].length < min (min 2 2) (min 2 2) ∧ s.hasRoom 2 :=
  ⟨engine 0 1 [0x30, 2, 2, 2, 2, 0, 0, 0], rfl, rfl, by decide, rfl, by decide, by decide, fun _ h => nomatch h⟩

theorem witness_WaitingBlockResumesUnchanged : ∃ s u : State, step s = .next u ∧ u.busy ≠ none :=
  ⟨engine 0 1 [0x30, 1, 1, 1, 1], _, rfl, by decide⟩

/-- With `BD = 1` and two voices the delays are 1 and 2: one frame is too few for tap 1 and enough for tap 0. -/
theorem witness_TapsReadTheWordWrittenEarlier :
    ∃ s : State, s.InRange ∧ 1 < s.vc.toNat ∧ [((0 : F32), (0 : F32))].length < tapDelay 1 s.vc.toNat s.bd.toNat ∧
      tapDelay 0 s.vc.toNat s.bd.toNat ≤ [((0 : F32), (0 : F32))].length :=
  ⟨_, engine_range [], by decide, by decide, by decide⟩

theorem witness_OnlyTheLastTapFeedsBack :
    ∃ (s : State) (dm' : Mem), s.InRange ∧ Memory.wf 192000 dm' = true ∧ dm' ≠ s.dm ∧
      memRead dm' (Claims.tapIndex s (s.vc.toNat - 1)) = memRead s.dm (Claims.tapIndex s (s.vc.toNat - 1)) :=
  ⟨_, [(191999, 0x3F800000)], engine_range [], by decide, by decide, by decide⟩

/-- A delay line whose last tap reads a NaN (tap 0 an infinity), with the mix and the feedback at zero. -/
theorem witness_NonFiniteSamplesSpread :
    isInf (f32Add 0 0x7F61B1E6 0x7F61B1E6) = true ∧
    ∃ s : State, s.InRange ∧ isNaN (Claims.tapWord s 1) = true ∧ isFinite (Claims.tapWord s 0) = false ∧
      isZero s.mx = true ∧ isZero s.fb = true := by
  refine ⟨by decide,
    { engine 0x00000000 2 [] with fb := 0x80000000, dm := [(191998, 0x7FC00000), (191999, 0x7F800000)] }, ?_,
    by decide, by decide, by decide, by decide⟩
  have h := engine_range []
  exact
    { ringLen_pos := h.ringLen_pos
      dt_range := h.dt_range
      fb_range := (by decide : inRange Config.one 0x80000000 = true)
      mx_range := (by decide : inRange Config.one 0x00000000 = true)
      vc_range := h.vc_range
      bd_range := h.bd_range
      wc_range := h.wc_range
      wi_range := h.wi_range
      dm_wf := by decide
      wm_wf := h.wm_wf }

theorem witness_DryAndWetPassThrough :
    (isFinite 0x3F800000 = true ∧ isFinite 0xBF800000 = true ∧ (0x3F800000 : F32) ≠ 0x80000000) ∧
    (isFinite 0x80000000 = true ∧ isFinite 0x00000000 = true) ∧
    (isNaN 0x7F800000 = false ∧ (0x7F800000 : F32) ≠ 0x80000000) ∧ (isNaN 0x00000000 = false ∧ (0 : F32) ≠ 0x80000000) := by
  decide

/-- Two different frames with the same `mono`. -/
theorem witness_OnlyMonoEntersTheDelayLine :
    ∃ s : State, s.InRange ∧
      f32Mul s.draw 0x3F000000 (f32Add s.draw 0x3F800000 0xBF800000) =
        f32Mul s.draw 0x3F000000 (f32Add s.draw 0xC0000000 0x40000000) := ⟨_, engine_range [], by decide⟩

theorem witness_CaptureDoesNotAffectAudio :
    ∃ s t t' : State, exec (.processBlock 0 0 0 0) s = .next t ∧
      exec (.processBlock 0 0 0 0) { s with wm := [(0, 1)], wi := 5 } = .next t' :=
  ⟨engine 0 1 [], _, _, rfl, rfl⟩

theorem witness_WaveformSizeAndIndexAreReported :
    (∃ s t : State, step s = .next t) ∧ (∃ s : State, s.faulted = false ∧ s.alive = false) ∧
    ∃ s : State, s.faulted = false ∧ s.alive = true ∧ s.ringLen < 2 ^ 32 ∧ s.wi < 2 ^ 32 :=
  ⟨⟨captured [0x41], _, rfl⟩, ⟨powered [], rfl, rfl⟩, ⟨captured [], rfl, rfl, by decide, by decide⟩⟩

/-- An active and an inactive ring; `witness_room_and_full` has room for its words and no room. -/
theorem witness_CaptureReadsAnswerTheRing :
    ∃ s : State, s.faulted = false ∧ s.alive = true ∧ 0 < s.vc.toNat ∧ ¬ 1 < s.vc.toNat :=
  ⟨captured [], rfl, rfl, by decide, by decide⟩

theorem witness_RotatedViewIsTheRawViewCutAtTheIndex :
    ∃ s t u : State, s.InRange ∧ s.alive = true ∧ s.busy = none ∧ exec (.getVoiceWaveform 0) s = .next t ∧
      exec (.readVoiceRing 0) s = .next u :=
  ⟨_, _, _, engine_range [], rfl, rfl, rfl, rfl⟩

theorem witness_InactiveRingsKeepTheirContents :
    ∃ s t : State, s.InRange ∧ exec (.processBlock 1 1 1 1) s = .next t ∧ s.vc.toNat ≤ 2 :=
  ⟨_, _, engine_range [0x30, 1, 1, 1, 1, 0, 0], rfl, by decide⟩

theorem witness_RotatedViewShowsTheLastOutputs :
    ∃ (s : State) (fs : List (F32 × F32)), s.InRange ∧ s.faulted = false ∧ s.alive = true ∧ 1 < s.vc.toNat ∧
      s.ringLen ≤ fs.length := ⟨_, List.replicate 8 (0, 0), engine_range [], rfl, rfl, by decide, by decide⟩

theorem witness_NullHandlesSendNothing :
    (none : Option (List F32)) = none ∨ (some [] : Option (List F32)) = none ∨ true = false ∨ true = false := .inl rfl

/-- A response port that holds one word. -/
theorem witness_InPlaceEqualsSeparateBuffers :
    ∃ (s : State) (fs : List (F32 × F32)), s.faulted = false ∧ s.port = [] ∧ s.resp = [] ∧
      s.busy = some (.input 2 fs.length) ∧ 0 < fs.length ∧ s.respCap = some 1 :=
  ⟨{ narrow (engine 0 1 []) with busy := some (.input 2 2) }, [(0x3F800000, 0), (0, 0)], rfl, rfl, rfl, rfl, by decide, rfl⟩

/-- A command that waits for room, one that does not; words to take; a waiting command and a waiting block, with room for
the rest and with room for less. -/
theorem witness_BackPressureOnlyDelays :
    (∃ s t : State, step s = .next t ∧ s.busy = some (.output [7] (.command 1))) ∧
    (∃ s t : State, step s = .next t ∧ s.busy = none ∧ t.busy = some (.output [0x3F000000] (.command 1))) ∧
    (∃ s : State, s.resp = [7] ∧ 1 ≤ s.resp.length) ∧
    (∃ s : State, s.faulted = false ∧ s.busy = some (.output [7, 8] (.sampleStep 1 0)) ∧ s.respCap = some 1 ∧
      1 - s.resp.length < 2) ∧
    (∃ s : State, s.faulted = false ∧ s.busy = some (.output [7] (.command 1)) ∧ s.hasRoom 1) ∧
    ∃ s : State, s.faulted = false ∧ s.busy = some (.output [7] (.sampleStep 1 0)) ∧ s.hasRoom 1 :=
  ⟨⟨{ engine 0 1 [] with busy := some (.output [7] (.command 1)) }, _, rfl, rfl⟩,
    ⟨{ narrow (engine 0 1 [0x22]) with resp := [7] }, _, rfl, rfl, rfl⟩,
    ⟨{ engine 0 1 [] with resp := [7] }, rfl, by decide⟩,
    ⟨{ narrow (engine 0 1 []) with busy := some (.output [7, 8] (.sampleStep 1 0)) }, rfl, rfl, rfl, by decide⟩,
    ⟨{ engine 0 1 [] with busy := some (.output [7] (.command 1)) }, rfl, rfl, fun _ h => nomatch h⟩,
    ⟨{ engine 0 1 [] with busy := some (.output [7] (.sampleStep 1 0)) }, rfl, rfl, fun _ h => nomatch h⟩⟩

end Sys2Proof.Tests
end

/-!
PROOFS. Binary32 arithmetic (00_scope.md R16, R17): the rounding law of `roundMag` as nearest value and overflow bound, each
operation as one equation, and from these the statements about sums, products, quotients, NaN results and `roundHalfAway`.
-/

namespace Sys2Proof.Machine

open Sys2Proof.Config (FloatOp)

/-! ## Values and signs -/

theorem natAbs_units (x : F32) : (units x).natAbs = magUnits (f32Mag x) := by
  unfold units
  split <;> simp

theorem units_pack (neg : Bool) {m : Nat} (h : m < 2 ^ 31) :
    units (pack neg m) = if neg then -(magUnits m : Int) else magUnits m := by
  rw [units, f32Neg_pack neg h, f32Mag_pack neg h]

theorem getLsbD_zero_pack (neg : Bool) {m : Nat} (h : m < 2 ^ 31) (heven : m % 2 = 0) :
    (pack neg m).getLsbD 0 = false := by
  have hbits : (pack neg m).toNat % 2 = 0 := by
    rw [pack_toNat neg h]
    split <;> omega
  simp [BitVec.getLsbD, hbits]

theorem f32Negate_eq_pack (x : F32) : f32Negate x = pack (!f32Neg x) (f32Mag x) := by
  apply f32_ext
  · have hbit : (0x80000000 : F32).msb = true := by decide
    rw [f32Neg_pack _ (f32Mag_lt x), f32Neg, f32Negate, BitVec.msb_xor, hbit, Bool.xor_true, f32Neg]
  · have hbit : (0x80000000 : F32).toNat % 2 ^ 31 = 0 := by decide
    rw [f32Mag_pack _ (f32Mag_lt x), f32Mag, f32Negate, BitVec.toNat_xor, Nat.xor_mod_two_pow, hbit, Nat.xor_zero, f32Mag]

theorem f32Neg_f32Negate (x : F32) : f32Neg (f32Negate x) = !f32Neg x := by
  rw [f32Negate_eq_pack, f32Neg_pack _ (f32Mag_lt x)]

theorem f32Mag_f32Negate (x : F32) : f32Mag (f32Negate x) = f32Mag x := by
  rw [f32Negate_eq_pack, f32Mag_pack _ (f32Mag_lt x)]

theorem units_f32Negate (x : F32) : units (f32Negate x) = -units x := by
  rw [units, units, f32Neg_f32Negate, f32Mag_f32Negate]
  cases f32Neg x <;> simp

/-- The sign of a nonzero product of two values. -/
theorem decide_units_mul_neg {a b : F32} (h : units a * units b ≠ 0) :
    decide (units a * units b < 0) = (f32Neg a != f32Neg b) := by
  have hpos : 0 < magUnits (f32Mag a) * magUnits (f32Mag b) := by
    rw [← natAbs_units, ← natAbs_units, ← Int.natAbs_mul]
    exact Int.natAbs_pos.mpr h
  have hpos' : (0 : Int) < magUnits (f32Mag a) * magUnits (f32Mag b) := by exact_mod_cast hpos
  unfold units
  cases f32Neg a <;> cases f32Neg b <;> simp [hpos', hpos'.le]

/-! ## Rounding to nearest and overflow (00_scope.md R16) -/

/-- The largest finite value, the overflow bound and the value of the infinity's pattern, in half units in the last place
of the largest finite value. -/
theorem overflowUnits_between (den : Nat) :
    magUnits (infMag - 1) * den = (2 ^ 25 - 2) * (2 ^ 252 * den) ∧
    overflowUnits * den = (2 ^ 25 - 1) * (2 ^ 252 * den) ∧
    magUnits infMag * den = 2 ^ 25 * (2 ^ 252 * den) := by
  have hlargest : magUnits (infMag - 1) = (2 ^ 25 - 2) * 2 ^ 252 := by decide
  have hinf : magUnits infMag = 2 ^ 25 * 2 ^ 252 := by decide
  rw [hlargest, hinf, overflowUnits]
  exact ⟨Nat.mul_assoc .., Nat.mul_assoc .., Nat.mul_assoc ..⟩

theorem magUnits_mul_le {p q : Nat} (den : Nat) (h : p ≤ q) : magUnits p * den ≤ magUnits q * den :=
  Nat.mul_le_mul_right den (magUnits_strictMono.monotone h)

/-- `roundMag_between` with the result as an end `r` of the interval from `p` to `p + 1`: the nearer end, on a tie the even
one. -/
theorem roundMag_nearer_end (num : Nat) {den : Nat} (hden : 0 < den) :
    ∃ p r, magUnits p * den ≤ num ∧ num < magUnits (p + 1) * den ∧ roundMag num den = min r infMag ∧
      (r = p ∧ 2 * num ≤ magUnits p * den + magUnits (p + 1) * den ∨
        r = p + 1 ∧ magUnits p * den + magUnits (p + 1) * den ≤ 2 * num) ∧
      (2 * num = magUnits p * den + magUnits (p + 1) * den → r % 2 = 0) := by
  obtain ⟨p, hlo, hhi, hround⟩ := roundMag_between num hden
  refine ⟨p, _, hlo, hhi, hround, ?_⟩
  split_ifs <;> omega

/-- From the overflow bound on, a magnitude rounds to the infinity. -/
theorem roundMag_of_overflow {num den : Nat} (hden : 0 < den) (h : overflowUnits * den ≤ num) :
    roundMag num den = infMag := by
  obtain ⟨p, r, -, hhi, hround, hend, htie⟩ := roundMag_nearer_end num hden
  obtain ⟨hlargest, hbound, hinf⟩ := overflowUnits_between den
  have hp : infMag - 1 ≤ p := by
    by_contra hlt
    have := magUnits_mul_le den (p := p + 1) (q := infMag - 1) (by omega)
    omega
  rw [hround, min_eq_right_iff]
  rcases hp.eq_or_lt with rfl | hp
  · have hodd : (infMag - 1) % 2 = 1 := by decide
    rw [Nat.sub_add_cancel (by decide)] at hhi hend htie
    omega
  · omega

/-- Below the overflow bound a magnitude rounds to a finite value. -/
theorem roundMag_lt_infMag {num den : Nat} (hden : 0 < den) (h : num < overflowUnits * den) :
    roundMag num den < infMag := by
  obtain ⟨p, r, hlo, -, hround, hend, -⟩ := roundMag_nearer_end num hden
  obtain ⟨hlargest, hbound, hinf⟩ := overflowUnits_between den
  have hp : p < infMag := by
    by_contra hge
    have := magUnits_mul_le den (p := infMag) (q := p) (by omega)
    omega
  rw [hround, min_lt_iff, or_iff_left (lt_irrefl _)]
  rcases (Nat.le_sub_one_of_lt hp).eq_or_lt with rfl | hp
  · rw [Nat.sub_add_cancel (by decide)] at hend
    omega
  · omega

/-- Of the two ends of an interval around `n`, the nearer one `y` is as near to `n` as anything outside the interval is, and
only in the middle is another as near. -/
theorem abs_sub_nearer_end_le {lo hi n x y : Int} (hlo : lo ≤ n) (hhi : n < hi)
    (hend : y = lo ∧ 2 * n ≤ lo + hi ∨ y = hi ∧ lo + hi ≤ 2 * n) (hx : x ≤ lo ∨ hi ≤ x) :
    |y - n| ≤ |x - n| ∧ (|y - n| = |x - n| → x ≠ y → 2 * n = lo + hi) := by
  simp only [abs_eq_max_neg]
  omega

/-- Below the overflow bound no pattern's value is nearer than the rounded one, and when another value is as near, the
rounded pattern is even. -/
theorem roundMag_nearest {num den : Nat} (hden : 0 < den) (h : num < overflowUnits * den) (q : Nat) :
    |(magUnits (roundMag num den) : Int) * den - num| ≤ |(magUnits q : Int) * den - num| ∧
    (|(magUnits (roundMag num den) : Int) * den - num| = |(magUnits q : Int) * den - num| →
      magUnits q ≠ magUnits (roundMag num den) → roundMag num den % 2 = 0) := by
  obtain ⟨p, r, hlo, hhi, hround, hend, htie⟩ := roundMag_nearer_end num hden
  have hfin := roundMag_lt_infMag hden h
  rw [hround, min_lt_iff, or_iff_left (lt_irrefl _)] at hfin
  rw [hround, min_eq_left hfin.le]
  have hq : magUnits q * den ≤ magUnits p * den ∨ magUnits (p + 1) * den ≤ magUnits q * den :=
    (Nat.lt_or_ge p q).symm.imp (magUnits_mul_le den) (magUnits_mul_le den)
  have hr : magUnits r * den = magUnits p * den ∧ 2 * num ≤ magUnits p * den + magUnits (p + 1) * den ∨
      magUnits r * den = magUnits (p + 1) * den ∧ magUnits p * den + magUnits (p + 1) * den ≤ 2 * num :=
    hend.imp (And.imp_left (by rintro rfl; rfl)) (And.imp_left (by rintro rfl; rfl))
  have hne : magUnits q ≠ magUnits r → magUnits q * den ≠ magUnits r * den :=
    fun hne heq => hne (Nat.eq_of_mul_eq_mul_right hden heq)
  zify at *
  obtain ⟨hle, heq⟩ := abs_sub_nearer_end_le hlo hhi hr hq
  exact ⟨hle, fun he hqr => htie (heq he (hne hqr))⟩

/-- The same against values of either sign: a negative value is farther than zero. -/
theorem roundMag_nearest_signed {num den : Nat} (hden : 0 < den) (h : num < overflowUnits * den) {u : Int} {q : Nat}
    (hu : u.natAbs = magUnits q) :
    |(magUnits (roundMag num den) : Int) * den - num| ≤ |u * den - num| ∧
    (|(magUnits (roundMag num den) : Int) * den - num| = |u * den - num| →
      u ≠ magUnits (roundMag num den) → roundMag num den % 2 = 0) := by
  rcases le_or_gt 0 u with hpos | hneg
  · obtain rfl : u = magUnits q := by omega
    exact_mod_cast roundMag_nearest hden h q
  · have hzero := (roundMag_nearest hden h 0).1
    rw [(magUnits_zero_iff 0).mpr rfl, Nat.cast_zero, zero_mul, zero_sub, abs_neg, Nat.abs_cast] at hzero
    have hfar : u * den < 0 := mul_neg_of_neg_of_pos hneg (by exact_mod_cast hden)
    have hlt : (num : Int) < |u * den - num| := lt_abs.mpr (.inr (by omega))
    exact ⟨hzero.trans hlt.le, fun he => absurd he (hzero.trans_lt hlt).ne⟩

/-- The rounded magnitude with either sign is the value nearest to the number of that sign. -/
theorem nearestEven_pack (neg : Bool) {num den : Nat} (hden : 0 < den) (h : num < overflowUnits * den) :
    NearestEven (pack neg (roundMag num den)) (if neg then -(num : Int) else num) den := by
  refine ⟨isFinite_pack (roundMag_lt_infMag hden h), fun z _ => ?_⟩
  rw [units_pack neg (roundMag_lt num den)]
  have heven := getLsbD_zero_pack neg (roundMag_lt num den)
  cases neg with
  | false =>
    obtain ⟨hle, htie⟩ := roundMag_nearest_signed hden h (natAbs_units z)
    exact ⟨hle, fun he hne => heven (htie he hne)⟩
  | true =>
    obtain ⟨hle, htie⟩ := roundMag_nearest_signed hden h ((Int.natAbs_neg _).trans (natAbs_units z))
    have hflip (v : Int) : |v * den - -(num : Int)| = |-v * den - num| := by
      rw [← abs_neg]
      congr 1
      ring
    simp only [if_true, hflip, neg_neg]
    exact ⟨hle, fun he hne => heven (htie he fun hu => hne (by omega))⟩

/-- Rounding the magnitude of `num / den` and giving it the sign of `num` rounds correctly; a zero may have either sign. -/
theorem correctlyRounded_pack {neg : Bool} {num : Int} {den : Nat} (hden : 0 < den)
    (hneg : num ≠ 0 → decide (num < 0) = neg) : CorrectlyRounded (pack neg (roundMag num.natAbs den)) num den := by
  unfold CorrectlyRounded
  split_ifs with h
  · have hnum : (if neg then -(num.natAbs : Int) else num.natAbs) = num := by
      rcases eq_or_ne num 0 with rfl | h0
      · simp
      · rw [← hneg h0]
        simp only [decide_eq_true_eq]
        split_ifs <;> omega
    simpa only [hnum] using nearestEven_pack neg hden h
  · have hinf := roundMag_of_overflow hden (Nat.le_of_not_lt h)
    have h0 : num ≠ 0 := by
      rintro rfl
      exact h (Nat.mul_pos (by decide) hden)
    rw [hinf, isInf_iff, f32Mag_pack _ (by decide), f32Neg_pack _ (by decide), hneg h0]
    exact ⟨rfl, rfl⟩

/-! ## The operations as one equation each (00_scope.md R16) -/

/-- A result guarded by the validity check `c` is a NaN exactly when `c` says so, if the guarded value never is one. -/
theorem isNaN_ite_nanResult {c : Bool} {op : FloatOp} {d : Nat} {a b x : F32} (hx : c = false → isNaN x = false) :
    isNaN (if c then nanResult op d a b else x) = c := by
  cases c with
  | true => exact isNaN_nanResult op d a b
  | false => exact hx rfl

theorem lt_of_le_infMag {m : Nat} (h : m ≤ infMag) : m < 2 ^ 31 := h.trans_lt (by decide)

theorem isNaN_pack {neg : Bool} {m : Nat} (h : m ≤ infMag) : isNaN (pack neg m) = false := by
  rw [isNaN_false_iff, f32Mag_pack neg (lt_of_le_infMag h)]
  exact h

/-- The sum of two finite values as one rounding, with the sign of an exact zero. -/
theorem addOrdered_of_finite {a b : F32} (ha : isFinite a = true) (hb : isFinite b = true) :
    addOrdered a b = pack (if units a + units b = 0 then f32Neg a && f32Neg b else decide (units a + units b < 0))
      (roundMag (units a + units b).natAbs 1) := by
  have hinfa := not_isInf_of_isFinite ha
  have hinfb := not_isInf_of_isFinite hb
  simp only [addOrdered, hinfa, hinfb, Bool.false_eq_true, if_false]
  split_ifs with h0
  · rw [h0, Int.natAbs_zero, roundMag_zero Nat.one_pos]
  · rfl

theorem isNaN_addOrdered {a b : F32} (ha : isNaN a = false) (hb : isNaN b = false) : isNaN (addOrdered a b) = false := by
  simp only [addOrdered]
  split_ifs
  · exact ha
  · exact hb
  · exact isNaN_pack (Nat.zero_le _)
  · exact isNaN_pack (roundMag_le _ _)

/-- The magnitude bits of a product that is no NaN. -/
def mulMag (a b : F32) : Nat :=
  if isInf a || isInf b then infMag else roundMag (magUnits (f32Mag a) * magUnits (f32Mag b)) (2 ^ 149)

/-- The magnitude bits of a quotient that is no NaN. -/
def divMag (a b : F32) : Nat :=
  if isInf a || isZero b then infMag
  else if isInf b then 0
  else roundMag (magUnits (f32Mag a) * 2 ^ 149) (magUnits (f32Mag b))

theorem mulMag_le (a b : F32) : mulMag a b ≤ infMag := by
  unfold mulMag
  split_ifs
  · exact le_rfl
  · exact roundMag_le _ _

theorem divMag_le (a b : F32) : divMag a b ≤ infMag := by
  unfold divMag
  split_ifs
  · exact le_rfl
  · exact Nat.zero_le _
  · exact roundMag_le _ _

theorem f32Mul_eq (d : Nat) (a b : F32) :
    f32Mul d a b =
      if isNaN a || isNaN b || (isInf a && isZero b) || (isZero a && isInf b) then nanResult .mul d a b
      else pack (f32Neg a != f32Neg b) (mulMag a b) := by
  unfold f32Mul mulMag
  split_ifs <;> rfl

theorem f32Div_eq (d : Nat) (a b : F32) :
    f32Div d a b =
      if isNaN a || isNaN b || (isInf a && isInf b) || (isZero a && isZero b) then nanResult .div d a b
      else pack (f32Neg a != f32Neg b) (divMag a b) := by
  unfold f32Div divMag
  split_ifs <;> rfl

/-! ## When a result is a NaN (log entry 20) -/

theorem isNaN_f32Negate (x : F32) : isNaN (f32Negate x) = isNaN x := by
  rw [isNaN, isNaN, f32Mag_f32Negate]

theorem isInf_f32Negate (x : F32) : isInf (f32Negate x) = isInf x := by
  rw [isInf, isInf, f32Mag_f32Negate]

theorem isFinite_f32Negate (x : F32) : isFinite (f32Negate x) = isFinite x := by
  rw [isFinite, isFinite, f32Mag_f32Negate]

theorem isNaN_f32Add (d : Nat) (a b : F32) :
    isNaN (f32Add d a b) = (isNaN a || isNaN b || (isInf a && isInf b && (f32Neg a != f32Neg b))) := by
  refine isNaN_ite_nanResult fun h => ?_
  simp only [Bool.or_eq_false_iff] at h
  obtain ⟨⟨ha, hb⟩, -⟩ := h
  exact isNaN_addOrdered ha hb

theorem isNaN_f32Sub (d : Nat) (a b : F32) :
    isNaN (f32Sub d a b) = (isNaN a || isNaN b || (isInf a && isInf b && (f32Neg a == f32Neg b))) := by
  refine isNaN_ite_nanResult fun h => ?_
  simp only [Bool.or_eq_false_iff] at h
  obtain ⟨⟨ha, hb⟩, -⟩ := h
  exact isNaN_addOrdered ha ((isNaN_f32Negate b).trans hb)

/-- A difference is the sum with the negated operand, except that the two draw different NaN patterns. -/
theorem isNaN_f32Sub_eq_f32Add (d : Nat) (a b : F32) : isNaN (f32Sub d a b) = isNaN (f32Add d a (f32Negate b)) := by
  rw [isNaN_f32Sub, isNaN_f32Add, isNaN_f32Negate, isInf_f32Negate, f32Neg_f32Negate]
  cases f32Neg a <;> cases f32Neg b <;> rfl

theorem isNaN_f32Mul (d : Nat) (a b : F32) :
    isNaN (f32Mul d a b) = (isNaN a || isNaN b || (isInf a && isZero b) || (isZero a && isInf b)) := by
  rw [f32Mul_eq]
  exact isNaN_ite_nanResult fun _ => isNaN_pack (mulMag_le a b)

theorem isNaN_f32Div (d : Nat) (a b : F32) :
    isNaN (f32Div d a b) = (isNaN a || isNaN b || (isInf a && isInf b) || (isZero a && isZero b)) := by
  rw [f32Div_eq]
  exact isNaN_ite_nanResult fun _ => isNaN_pack (divMag_le a b)

theorem f32Mul_of_not_isNaN {d : Nat} {a b : F32} (h : isNaN (f32Mul d a b) = false) :
    f32Mul d a b = pack (f32Neg a != f32Neg b) (mulMag a b) := by
  rw [isNaN_f32Mul] at h
  rw [f32Mul_eq, if_neg (by rw [h]; decide)]

theorem f32Div_of_not_isNaN {d : Nat} {a b : F32} (h : isNaN (f32Div d a b) = false) :
    f32Div d a b = pack (f32Neg a != f32Neg b) (divMag a b) := by
  rw [isNaN_f32Div] at h
  rw [f32Div_eq, if_neg (by rw [h]; decide)]

theorem f32Add_of_not_isNaN {d : Nat} {a b : F32} (h : isNaN (f32Add d a b) = false) :
    f32Add d a b = addOrdered a b := by
  rw [isNaN_f32Add] at h
  rw [f32Add, if_neg (by rw [h]; decide)]

theorem f32Sub_eq_f32Add {d : Nat} {a b : F32} (h : isNaN (f32Add d a (f32Negate b)) = false) :
    f32Sub d a b = f32Add d a (f32Negate b) := by
  have hsub := (isNaN_f32Sub_eq_f32Add d a b).trans h
  rw [isNaN_f32Sub] at hsub
  rw [f32Add_of_not_isNaN h, f32Sub, if_neg (by rw [hsub]; decide)]

/-! ## Sums -/

theorem not_isNaN_of_isInf {x : F32} (h : isInf x = true) : isNaN x = false :=
  (isNaN_false_iff x).mpr ((isInf_iff x).mp h).le

theorem isNaN_f32Add_of_finite {d : Nat} {a b : F32} (ha : isFinite a = true) (hb : isFinite b = true) :
    isNaN (f32Add d a b) = false := by
  rw [isNaN_f32Add, not_isNaN_of_isFinite ha, not_isNaN_of_isFinite hb, not_isInf_of_isFinite ha]
  rfl

theorem correctlyRounded_f32Add {d : Nat} {a b : F32} (ha : isFinite a = true) (hb : isFinite b = true) :
    CorrectlyRounded (f32Add d a b) (units a + units b) 1 := by
  rw [f32Add_of_not_isNaN (isNaN_f32Add_of_finite ha hb), addOrdered_of_finite ha hb]
  exact correctlyRounded_pack Nat.one_pos fun h0 => (if_neg h0).symm

theorem f32Add_of_exact_zero {d : Nat} {a b : F32} (ha : isFinite a = true) (hb : isFinite b = true)
    (h0 : units a + units b = 0) : f32Add d a b = pack (f32Neg a && f32Neg b) 0 := by
  rw [f32Add_of_not_isNaN (isNaN_f32Add_of_finite ha hb), addOrdered_of_finite ha hb, if_pos h0, h0, Int.natAbs_zero,
    roundMag_zero Nat.one_pos]

theorem f32Add_inf_left {d : Nat} {a b : F32} (ha : isInf a = true)
    (hb : isFinite b = true ∨ (isInf b = true ∧ f32Neg b = f32Neg a)) : f32Add d a b = a := by
  have hvalid : isNaN (f32Add d a b) = false := by
    rw [isNaN_f32Add, not_isNaN_of_isInf ha]
    rcases hb with hb | ⟨hb, hsign⟩
    · simp [not_isNaN_of_isFinite hb, not_isInf_of_isFinite hb]
    · simp [not_isNaN_of_isInf hb, hsign]
  rw [f32Add_of_not_isNaN hvalid, addOrdered, if_pos ha]

theorem f32Add_inf_right {d : Nat} {a b : F32} (ha : isFinite a = true) (hb : isInf b = true) : f32Add d a b = b := by
  have hinf := not_isInf_of_isFinite ha
  have hvalid : isNaN (f32Add d a b) = false := by
    simp [isNaN_f32Add, not_isNaN_of_isFinite ha, not_isNaN_of_isInf hb, hinf]
  rw [f32Add_of_not_isNaN hvalid, addOrdered, if_neg (by rw [hinf]; decide), if_pos hb]

/-! ## Differences -/

theorem isFinite_f32Negate_of {x : F32} (h : isFinite x = true) : isFinite (f32Negate x) = true :=
  (isFinite_f32Negate x).trans h

theorem f32Sub_of_finite {d : Nat} {a b : F32} (ha : isFinite a = true) (hb : isFinite b = true) :
    f32Sub d a b = f32Add d a (f32Negate b) :=
  f32Sub_eq_f32Add (isNaN_f32Add_of_finite ha (isFinite_f32Negate_of hb))

theorem correctlyRounded_f32Sub {d : Nat} {a b : F32} (ha : isFinite a = true) (hb : isFinite b = true) :
    CorrectlyRounded (f32Sub d a b) (units a - units b) 1 := by
  rw [f32Sub_of_finite ha hb, sub_eq_add_neg, ← units_f32Negate]
  exact correctlyRounded_f32Add ha (isFinite_f32Negate_of hb)

theorem f32Sub_of_exact_zero {d : Nat} {a b : F32} (ha : isFinite a = true) (hb : isFinite b = true)
    (h0 : units a - units b = 0) : f32Sub d a b = pack (f32Neg a && !f32Neg b) 0 := by
  rw [sub_eq_add_neg, ← units_f32Negate] at h0
  rw [f32Sub_of_finite ha hb, f32Add_of_exact_zero ha (isFinite_f32Negate_of hb) h0, f32Neg_f32Negate]

theorem f32Sub_inf_left {d : Nat} {a b : F32} (ha : isInf a = true)
    (hb : isFinite b = true ∨ (isInf b = true ∧ f32Neg b ≠ f32Neg a)) : f32Sub d a b = a := by
  have hadd : f32Add d a (f32Negate b) = a := by
    refine f32Add_inf_left ha ?_
    rw [isFinite_f32Negate, isInf_f32Negate, f32Neg_f32Negate]
    exact hb.imp_right (And.imp_right Bool.not_eq.mpr)
  rw [f32Sub_eq_f32Add (by rw [hadd]; exact not_isNaN_of_isInf ha), hadd]

theorem f32Sub_inf_right {d : Nat} {a b : F32} (ha : isFinite a = true) (hb : isInf b = true) :
    f32Sub d a b = f32Negate b := by
  have hinf : isInf (f32Negate b) = true := (isInf_f32Negate b).trans hb
  have hadd : f32Add d a (f32Negate b) = f32Negate b := f32Add_inf_right ha hinf
  rw [f32Sub_eq_f32Add (by rw [hadd]; exact not_isNaN_of_isInf hinf), hadd]

/-! ## Products and quotients -/

theorem correctlyRounded_f32Mul {d : Nat} {a b : F32} (ha : isFinite a = true) (hb : isFinite b = true) :
    CorrectlyRounded (f32Mul d a b) (units a * units b) (2 ^ 149) := by
  have hinfa := not_isInf_of_isFinite ha
  have hinfb := not_isInf_of_isFinite hb
  have hvalid : isNaN (f32Mul d a b) = false := by
    simp [isNaN_f32Mul, not_isNaN_of_isFinite ha, not_isNaN_of_isFinite hb, hinfa, hinfb]
  have hmag : mulMag a b = roundMag (units a * units b).natAbs (2 ^ 149) := by
    simp [mulMag, hinfa, hinfb, Int.natAbs_mul, natAbs_units]
  rw [f32Mul_of_not_isNaN hvalid, hmag]
  exact correctlyRounded_pack (Nat.two_pow_pos 149) decide_units_mul_neg

/-- The sign of a nonzero quotient, its numerator written with the sign of the divisor. -/
theorem decide_units_div_neg {a b : F32} (h : units a * 2 ^ 149 * (units b).sign ≠ 0) :
    decide (units a * 2 ^ 149 * (units b).sign < 0) = (f32Neg a != f32Neg b) := by
  obtain ⟨ha, hb⟩ := mul_ne_zero_iff.mp h
  replace ha := left_ne_zero_of_mul ha
  replace hb := mt Int.sign_eq_zero_iff_zero.mpr hb
  rw [← decide_units_mul_neg (mul_ne_zero ha hb), decide_eq_decide, mul_neg_iff,
    mul_neg_iff (b := units b), Int.sign_neg_iff, Int.sign_pos_iff]
  omega

theorem correctlyRounded_f32Div {d : Nat} {a b : F32} (ha : isFinite a = true) (hb : isFinite b = true)
    (hzero : isZero b = false) :
    CorrectlyRounded (f32Div d a b) (units a * 2 ^ 149 * (units b).sign) (units b).natAbs := by
  have hinfa := not_isInf_of_isFinite ha
  have hinfb := not_isInf_of_isFinite hb
  have hub : units b ≠ 0 := by
    rw [ne_eq, units_eq_zero_iff, ← isZero_iff, hzero]
    decide
  have hvalid : isNaN (f32Div d a b) = false := by
    simp [isNaN_f32Div, not_isNaN_of_isFinite ha, not_isNaN_of_isFinite hb, hinfa, hzero]
  have hmag : divMag a b = roundMag (units a * 2 ^ 149 * (units b).sign).natAbs (units b).natAbs := by
    rw [Int.natAbs_mul, Int.natAbs_mul, Int.natAbs_sign_of_ne_zero hub, natAbs_units, natAbs_units]
    simp [divMag, hinfa, hinfb, hzero]
  rw [f32Div_of_not_isNaN hvalid, hmag]
  exact correctlyRounded_pack (Int.natAbs_pos.mpr hub) decide_units_div_neg

theorem isInf_pack {neg : Bool} {m : Nat} (h : m < 2 ^ 31) : isInf (pack neg m) = decide (m = infMag) := by
  rw [isInf, f32Mag_pack neg h]

theorem f32Neg_f32Mul {d : Nat} {a b : F32} (h : isNaN (f32Mul d a b) = false) :
    f32Neg (f32Mul d a b) = (f32Neg a != f32Neg b) := by
  rw [f32Mul_of_not_isNaN h, f32Neg_pack _ (lt_of_le_infMag (mulMag_le a b))]

theorem f32Neg_f32Div {d : Nat} {a b : F32} (h : isNaN (f32Div d a b) = false) :
    f32Neg (f32Div d a b) = (f32Neg a != f32Neg b) := by
  rw [f32Div_of_not_isNaN h, f32Neg_pack _ (lt_of_le_infMag (divMag_le a b))]

/-- A product with an infinite factor. -/
theorem isInf_f32Mul {d : Nat} {a b : F32} (h : isNaN (f32Mul d a b) = false) (hinf : isInf a = true ∨ isInf b = true) :
    isInf (f32Mul d a b) = true := by
  have hmag : mulMag a b = infMag := if_pos ((Bool.or_eq_true _ _).mpr hinf)
  rw [f32Mul_of_not_isNaN h, hmag, isInf_pack (by decide)]
  exact decide_eq_true rfl

/-- A quotient of an infinite dividend or by zero. -/
theorem isInf_f32Div {d : Nat} {a b : F32} (h : isNaN (f32Div d a b) = false) (hinf : isInf a = true ∨ isZero b = true) :
    isInf (f32Div d a b) = true := by
  have hmag : divMag a b = infMag := if_pos ((Bool.or_eq_true _ _).mpr hinf)
  rw [f32Div_of_not_isNaN h, hmag, isInf_pack (by decide)]
  exact decide_eq_true rfl

/-- A quotient by an infinite divisor. -/
theorem isZero_f32Div {d : Nat} {a b : F32} (h : isNaN (f32Div d a b) = false) (hinf : isInf b = true) :
    isZero (f32Div d a b) = true := by
  have ha : isInf a = false := by
    simp only [isNaN_f32Div, hinf, Bool.and_true, Bool.or_eq_false_iff] at h
    exact h.1.2
  have hb : isZero b = false := by
    rw [isZero, (isInf_iff b).mp hinf]
    decide
  have hmag : divMag a b = 0 := by simp [divMag, ha, hb, hinf]
  rw [f32Div_of_not_isNaN h, hmag, isZero_iff, f32Mag_pack _ (by decide)]

/-! ## `round_half_away` (00_scope.md R17) -/

/-- The magnitude `(2 N + d) / (2 d)` is within half of `N / d`, and on a tie above it. -/
theorem roundHalfAway_magnitude (N : Nat) {d : Nat} (hd : 0 < d) :
    2 * N < 2 * ((2 * N + d) / (2 * d) * d) + d ∧ 2 * ((2 * N + d) / (2 * d) * d) ≤ 2 * N + d := by
  have hdiv := Nat.div_add_mod (2 * N + d) (2 * d)
  have hmod := Nat.mod_lt (2 * N + d) (y := 2 * d) (by omega)
  rw [Nat.mul_assoc, Nat.mul_comm d] at hdiv
  omega

end Sys2Proof.Machine

namespace Sys2Proof.Proofs

open Sys2Proof.Machine

/-- Settles O34: an operation's result is a NaN pattern when its validity check fails, and otherwise one whose magnitude bits
are at most the infinity's. -/
theorem nanResultsAreExactlyTheInvalidOnes : Obligations.NaNResultsAreExactlyTheInvalidOnes := by
  intro d a b
  simp only [isNaN_f32Add, isNaN_f32Sub, isNaN_f32Mul, isNaN_f32Div, Bool.or_eq_true, Bool.and_eq_true, bne_iff_ne,
    beq_iff_eq, or_assoc, and_assoc, and_self]

/-- Settles O35, from the bounds on the magnitude and the sign `round_half_away` copies. -/
theorem roundHalfAwayIsNearest : Obligations.RoundHalfAwayIsNearest := by
  intro n d hd
  obtain ⟨hlt, hle⟩ := roundHalfAway_magnitude n.natAbs hd
  unfold roundHalfAway
  generalize (2 * n.natAbs + d) / (2 * d) = m at hlt hle
  have hneg : -(m : Int) * d = -(m * d) := neg_mul ..
  zify at hlt hle
  simp only [apply_ite abs, abs_neg, Nat.abs_cast, ite_self]
  split_ifs with h
  · rw [hneg]
    simp only [abs_eq_max_neg] at *
    omega
  · simp only [abs_eq_max_neg] at *
    omega

/-- Settles O32: a sum is one rounding of the exact sum and an infinite operand passes through; a difference is the sum with
the negated operand. -/
theorem addAndSubRoundCorrectly : Obligations.AddAndSubRoundCorrectly := by
  intro d a b
  refine ⟨fun ha hb => ⟨correctlyRounded_f32Add ha hb, correctlyRounded_f32Sub ha hb, fun h0 => ?_, fun h0 => ?_⟩,
    f32Add_inf_left, f32Sub_inf_left, fun ha hb => ⟨f32Add_inf_right ha hb, f32Sub_inf_right ha hb⟩⟩
  · rw [f32Add_of_exact_zero ha hb h0]
    cases f32Neg a <;> cases f32Neg b <;> rfl
  · rw [f32Sub_of_exact_zero ha hb h0]
    cases f32Neg a <;> cases f32Neg b <;> rfl

/-- Settles O33: both operations round the exact magnitude and multiply the signs. -/
theorem mulAndDivRoundCorrectly : Obligations.MulAndDivRoundCorrectly := by
  intro d a b
  exact ⟨fun ha hb => ⟨correctlyRounded_f32Mul ha hb, correctlyRounded_f32Div ha hb⟩,
    fun h => ⟨f32Neg_f32Mul h, isInf_f32Mul h⟩,
    fun h => ⟨f32Neg_f32Div h, isInf_f32Div h, isZero_f32Div h⟩⟩

end Sys2Proof.Proofs

/-!
PROOFS. The state of the block (10_state.md): the ranges every step keeps, the ports, the access table of R37, and the base
delay latch outside a block.
-/

namespace Sys2Proof.Machine

open Sys2Proof.Claims (inBlock)

/-! ## The values a command or DESTROY leaves in a register (10_state.md R23 to R29) -/

theorem inRange_delayTimeMax : inRange Config.delayTimeMax Config.delayTimeMax = true := by decide

theorem inRange_one : inRange Config.one Config.one = true := by decide

theorem inRange_iff (hi x : F32) : inRange hi x = true ↔ isNaN x = false ∧ 0 ≤ units x ∧ units x ≤ units hi := by
  simp [inRange, and_assoc]

/-- An interval that holds its upper end holds `+0.0`. -/
theorem inRange_zero {hi : F32} (h : inRange hi hi = true) : inRange hi 0 = true := by
  have hzero : isNaN 0 = false ∧ units 0 = 0 := by decide
  obtain ⟨-, hpos, -⟩ := (inRange_iff hi hi).mp h
  exact (inRange_iff hi 0).mpr ⟨hzero.1, hzero.2.ge, hzero.2.trans_le hpos⟩

theorem inRange_clampFloat {hi old : F32} (v : F32) (h : inRange hi hi = true) (hold : inRange hi old = true) :
    inRange hi (clampFloat hi old v) = true := by
  unfold clampFloat
  split
  · exact hold
  · next hnan =>
    split
    · exact inRange_zero h
    · next hlow =>
      split
      · exact h
      · next hhigh => exact (inRange_iff hi v).mpr ⟨by simpa using hnan, not_lt.mp hlow, not_lt.mp hhigh⟩

theorem inRange_freeInRange {hi : F32} (n : Nat) (h : inRange hi hi = true) : inRange hi (freeInRange hi n) = true := by
  unfold freeInRange
  dsimp only
  split
  · next hx => exact hx
  · exact inRange_zero h

theorem clampVoices_range (n : Int) : 1 ≤ clampVoices n ∧ clampVoices n ≤ 16 := by
  simp only [clampVoices, Config.maxVoices]
  omega

/-! ## The ranges a command keeps (10_state.md R39) -/

theorem freshInstance_inRange (rate : F32) {s : State} (h : s.InRange) : (freshInstance rate s).InRange where
  ringLen_pos := h.ringLen_pos
  dt_range := (by decide : inRange Config.delayTimeMax Config.defaultDelayTime = true)
  fb_range := (by decide : inRange Config.one Config.defaultFeedback = true)
  mx_range := (by decide : inRange Config.one Config.defaultMix = true)
  vc_range := ⟨le_rfl, by simp⟩
  bd_range := h.bd_range
  wc_range := by simp
  wi_range := h.ringLen_pos
  dm_wf := wf_nil _
  wm_wf := wf_nil _

theorem releasedInstance_inRange {s : State} (h : s.InRange) : (releasedInstance s).InRange where
  ringLen_pos := h.ringLen_pos
  dt_range := inRange_freeInRange _ inRange_delayTimeMax
  fb_range := inRange_freeInRange _ inRange_one
  mx_range := inRange_freeInRange _ inRange_one
  vc_range := by
    rw [releasedInstance_vc, BitVec.toNat_ofNat]
    omega
  bd_range := by
    rw [releasedInstance_bd, BitVec.toNat_ofNat]
    omega
  wc_range := by
    rw [releasedInstance_wc, BitVec.toNat_ofNat]
    omega
  wi_range := Nat.mod_lt _ h.ringLen_pos
  dm_wf := wf_memOfCells _ _
  wm_wf := wf_memOfCells _ _

theorem startBlock_inRange {s : State} (h : s.InRange) : (startBlock s).InRange :=
  { h with
    bd_range := by
      rw [startBlock_bd_toNat]
      exact baseDelay_range _ _ _ }

/-- The writes of a sample step keep the ranges: they are those of the whole sample step, whose cursors are still to come. -/
theorem sampleWrites_inRange (l r : F32) {s : State} (h : s.InRange) : (sampleWrites l r s).InRange :=
  { h with
    dm_wf := (sampleStep_inRange l r h).dm_wf
    wm_wf := (sampleStep_inRange l r h).wm_wf }

theorem advanceCursors_inRange {s : State} (h : s.InRange) : (advanceCursors s).InRange :=
  { h with
    wc_range := by
      rw [advanceCursors_wc, nextWriteCursor_toNat]
      exact Nat.mod_lt _ (by decide)
    wi_range := Nat.mod_lt _ h.ringLen_pos }

/-! The ports and what waits have no range, so that `{ h with }` carries every range over. -/

theorem complete_inRange (k : Nat) {s : State} (h : s.InRange) : (complete k s).InRange := { h with }

theorem emitAll_inRange (ws : List Word) {s : State} (h : s.InRange) : (emitAll ws s).InRange := { h with }

theorem waitingOutput_inRange (k : Nat) (ws : List Word) (after : After) {s : State} (h : s.InRange) :
    (waitingOutput k ws after s).InRange := { h with }

/-! ## What a state that has not faulted keeps -/

/-- `State.Inv` of a state that has not faulted, but for what waits: each part of a command keeps it, and `busy` is settled
only when the command waits or ends. -/
structure State.Running (s : State) : Prop where
  range : s.InRange
  not_faulted : s.faulted = false
  no_code : s.faultInfo.code = 0
  resp_room : ∀ c, s.respCap = some c → 1 ≤ c ∧ s.resp.length ≤ c

theorem State.Inv.running {s : State} (h : s.Inv) (hf : s.faulted = false) : s.Running :=
  ⟨h.toInRange, hf, by simpa [hf] using h.fault_code, h.resp_room⟩

theorem State.Running.inv {s : State} (h : s.Running) (hb : ∀ b, s.busy = some b → b.Legal s.alive) : s.Inv :=
  { h.range with
    fault_code := by simp [h.not_faulted, h.no_code]
    fault_position := fun hf => absurd hf (by simp [h.not_faulted])
    fault_released := fun hf => absurd hf (by simp [h.not_faulted])
    busy_legal := hb
    resp_room := h.resp_room }

theorem State.Running.inv_of_idle {s : State} (h : s.Running) (hb : s.busy = none) : s.Inv :=
  h.inv fun b e => by simp [hb] at e

/-- What may follow response words that wait: `Busy.Legal` of `.output` without its words. -/
def After.Legal (alive : Bool) : After → Prop
  | .sampleStep total left => alive = true ∧ left < total ∧ total < 2 ^ 32
  | .command length => 1 ≤ length ∧ length ≤ 2

theorem legal_output_iff (alive : Bool) (ws : List Word) (after : After) :
    (Busy.output ws after).Legal alive ↔ ws ≠ [] ∧ after.Legal alive := by
  cases after <;> rfl

theorem emitAll_running {ws : List Word} {s : State} (h : s.Running) (hr : s.hasRoom ws.length) :
    (emitAll ws s).Running :=
  { h with
    range := emitAll_inRange ws h.range
    resp_room := fun c hc => by
      have := h.resp_room c hc
      have := hr c hc
      rw [emitAll_resp, List.length_append]
      omega }

theorem waitingOutput_running (ws : List Word) (after : After) {s : State} {c : Nat} (h : s.Running)
    (hc : s.respCap = some c) : (waitingOutput (c - s.resp.length) ws after s).Running :=
  { h with
    range := waitingOutput_inRange _ ws after h.range
    resp_room := fun d hd => by
      obtain rfl : c = d := Option.some.inj (hc.symm.trans hd)
      have := h.resp_room c hc
      rw [waitingOutput_resp, List.length_append, List.length_take]
      omega }

/-- A command that emits keeps the invariant when what follows the words does and may wait. -/
theorem emitThen_inv {ws : List Word} {after : After} {next : State → State} {s : State} (h : s.Running)
    (ha : after.Legal s.alive) (hnext : (emitAll ws s).Running → (next (emitAll ws s)).Inv) :
    (emitThen ws after next s).Inv := by
  rcases emitThen_cases ws after next s with ⟨hr, e⟩ | ⟨c, hc, hlt, e⟩
  · rw [e]
    exact hnext (emitAll_running h hr)
  · rw [e]
    refine (waitingOutput_running ws after h hc).inv ?_
    rintro b ⟨⟩
    exact (legal_output_iff _ _ _).mpr ⟨by simpa using hlt, ha⟩

theorem complete_inv (k : Nat) {s : State} (h : s.Running) (hb : s.busy = none) : (complete k s).Inv :=
  State.Running.inv_of_idle { h with range := complete_inRange k h.range } hb

theorem respond_inv {k : Nat} (ws : List Word) {s : State} (h : s.Running) (hb : s.busy = none) (hk : 1 ≤ k ∧ k ≤ 2) :
    (respond k ws s).Inv :=
  emitThen_inv (s := { s with port := s.port.drop k }) { h with range := { h.range with } } hk fun hu =>
    State.Running.inv_of_idle { hu with range := { hu.range with } } hb

/-! ## A block -/

/-- Each sample step of a block keeps the ranges, and a wait before or inside one has legal counts. -/
theorem runBlock_inv {total left : Nat} {s : State} (h : s.Running) (ha : s.alive = true) (hle : left ≤ total)
    (ht : total < 2 ^ 32) : (runBlock total left s).Inv := by
  induction left generalizing s with
  | zero => exact State.Running.inv_of_idle { h with range := { h.range with } } rfl
  | succ left ih =>
    unfold runBlock
    split
    · exact emitThen_inv { h with range := sampleWrites_inRange _ _ { h.range with } } ⟨ha, hle, ht⟩ fun hu =>
        ih { hu with range := advanceCursors_inRange hu.range } ha (Nat.le_of_succ_le hle)
    all_goals
      refine State.Running.inv { h with range := { h.range with } } ?_
      rintro b ⟨⟩
      exact ⟨ha, left.succ_pos, hle, ht⟩

theorem goOn_inv {after : After} {s : State} (h : s.Running) (ha : after.Legal s.alive) : (goOn after s).Inv := by
  cases after with
  | command length => exact State.Running.inv_of_idle { h with range := { h.range with } } rfl
  | sampleStep total left =>
    obtain ⟨halive, hlt, ht⟩ := ha
    exact runBlock_inv { h with range := advanceCursors_inRange h.range } halive hlt.le ht

theorem resumeBusy_inv {b : Busy} {s : State} (h : s.Running) (hb : b.Legal s.alive) : (resumeBusy b s).Inv := by
  cases b with
  | input total left =>
    obtain ⟨halive, -, hle, ht⟩ := hb
    exact runBlock_inv h halive hle ht
  | output ws after =>
    obtain ⟨-, ha⟩ := (legal_output_iff _ _ _).mp hb
    exact emitThen_inv h ha fun hu => goOn_inv hu ha

/-! ## Decoded commands are well formed (30_encoding.md R72) -/

theorem isU32_toNat (w : Word) : isU32 w.toNat := w.isLt

theorem isI32_toInt (w : Word) : isI32 w.toInt := ⟨BitVec.le_toInt w, BitVec.toInt_lt⟩

/-- A decoded command is well formed: each operand is an operand word. -/
theorem wellFormed_of_decodeOperands {op : Opcode} {ws rest : List Word} {i : Instr}
    (h : decodeOperands op ws = some (i, rest)) : i.wellFormed = true := by
  unfold decodeOperands at h
  split at h <;> cases h
  -- SET_VOICE_COUNT, the one signed operand
  case h_6 n => exact decide_eq_true (isI32_toInt n)
  all_goals simp only [Instr.wellFormed, isU32_toNat, and_self, decide_true]

theorem wellFormed_of_decode {ws rest : List Word} {i : Instr} (h : decode ws = .ok (i, rest)) : i.wellFormed = true := by
  unfold decode at h
  split at h
  · cases h
  · split at h
    · cases h
    · next op _ =>
      split at h
      · next r hr =>
        cases h
        exact wellFormed_of_decodeOperands hr
      · cases h

/-! ## A command, a fault and a step -/

theorem commandEffect_inv {i : Instr} {s : State} (h : s.Running) (hb : s.busy = none) (hi : i.wellFormed = true)
    (ha : needsInstance i.opcode = true → s.alive = true) : (commandEffect i s).Inv := by
  cases i with
  | create rate => exact complete_inv 2 { h with range := freshInstance_inRange rate h.range } hb
  | destroy => exact complete_inv 1 { h with range := releasedInstance_inRange h.range } hb
  | reset =>
    exact complete_inv 1
      { h with range := { h.range with
          wc_range := by simp
          wi_range := h.range.ringLen_pos
          dm_wf := wf_nil _
          wm_wf := wf_nil _ } } hb
  | setSampleRate hz => exact complete_inv 2 { h with range := { h.range with } } hb
  | setDelayTime ms =>
    exact complete_inv 2
      { h with range := { h.range with
          dt_range := inRange_clampFloat ms inRange_delayTimeMax h.range.dt_range } } hb
  | setFeedback v =>
    exact complete_inv 2
      { h with range := { h.range with fb_range := inRange_clampFloat v inRange_one h.range.fb_range } } hb
  | setMix v =>
    exact complete_inv 2
      { h with range := { h.range with mx_range := inRange_clampFloat v inRange_one h.range.mx_range } } hb
  | setVoiceCount n =>
    exact complete_inv 2
      { h with range := { h.range with
          vc_range := by
            have := clampVoices_range n
            rw [BitVec.toNat_ofNat]
            omega } } hb
  | getSampleRate | getDelayTime | getFeedback | getMix | getVoiceCount | getWriteCursor | getWaveformSize
  | getWaveformIndex | getVoiceWaveform | readVoiceRing => exact respond_inv _ h hb (by decide)
  | processBlock nli nri nlo nro =>
    obtain ⟨hli, -⟩ := of_decide_eq_true hi
    have hn : blockFrames nli nri nlo nro < 2 ^ 32 := by
      simp only [blockFrames]
      omega
    exact runBlock_inv { h with range := startBlock_inRange h.range } (ha rfl) le_rfl hn

theorem raiseFault_inv {s : State} (h : s.Inv) (ha : s.alive = false) : (raiseFault Config.faultNoInstance s).Inv :=
  { h with
    fault_code := rfl
    fault_position := fun _ => rfl
    fault_released := fun _ => ha }

theorem exec_inv {i : Instr} {s t : State} (h : s.Inv) (hb : s.busy = none) (hi : i.wellFormed = true)
    (e : exec i s = .next t) : t.Inv := by
  obtain ⟨hf, ⟨ha, rfl⟩ | ⟨-, ha, rfl⟩⟩ := exec_next e
  · exact commandEffect_inv (h.running hf) hb hi ha
  · exact raiseFault_inv h ha

theorem step_inv {s t : State} (h : s.Inv) (e : step s = .next t) : t.Inv := by
  obtain ⟨hf, ⟨b, hb, rfl⟩ | ⟨-, rfl⟩ | ⟨hb, rfl⟩ | ⟨-, ha, rfl⟩ | ⟨hb, i, rest, hd, he⟩⟩ := step_cases e
  · exact resumeBusy_inv (h.running hf) (h.busy_legal b hb)
  · exact h
  · exact complete_inv 1 (h.running hf) hb
  · exact raiseFault_inv h ha
  · exact exec_inv h hb (wellFormed_of_decode hd) he

theorem send_inv (ws : List Word) {s : State} (h : s.Inv) : (s.send ws).Inv := { h with }

theorem drain_inv (k : Nat) {s : State} (h : s.Inv) : (s.drain k).Inv :=
  { h with
    resp_room := fun c hc => by
      have := h.resp_room c hc
      rw [drain_resp, List.length_drop]
      omega }

/-! ## The ports move one way -/

/-- `cp` has not decreased, words have left the command port only at its head, and responses have only been appended. -/
def State.PortsAdvance (s t : State) : Prop := s.cp ≤ t.cp ∧ t.port <:+ s.port ∧ s.resp <+: t.resp

theorem State.PortsAdvance.trans {s t u : State} : s.PortsAdvance t → t.PortsAdvance u → s.PortsAdvance u :=
  fun ⟨hcp, hport, hresp⟩ ⟨hcp', hport', hresp'⟩ => ⟨hcp.trans hcp', hport'.trans hport, hresp.trans hresp'⟩

theorem State.PortsAdvance.refl (s : State) : s.PortsAdvance s := ⟨le_rfl, List.suffix_rfl, List.prefix_rfl⟩

theorem complete_portsAdvance (k : Nat) (s : State) : s.PortsAdvance (complete k s) :=
  ⟨Nat.le_add_right .., List.drop_suffix .., List.prefix_rfl⟩

/-- The end of a command whose words are taken: `cp` alone advances. -/
theorem addCp_portsAdvance (k : Nat) (s : State) : s.PortsAdvance { s with cp := s.cp + k } :=
  ⟨Nat.le_add_right .., List.suffix_rfl, List.prefix_rfl⟩

theorem emitThen_portsAdvance {ws : List Word} {after : After} {next : State → State}
    (hnext : ∀ u : State, u.PortsAdvance (next u)) (s : State) : s.PortsAdvance (emitThen ws after next s) := by
  have hemit (out : List Word) : s.PortsAdvance (emitAll out s) := ⟨le_rfl, List.suffix_rfl, List.prefix_append ..⟩
  rcases emitThen_cases ws after next s with ⟨-, e⟩ | ⟨c, -, -, e⟩
  · rw [e]
    exact (hemit ws).trans (hnext _)
  · rw [e]
    exact hemit _

theorem respond_portsAdvance (k : Nat) (ws : List Word) (s : State) : s.PortsAdvance (respond k ws s) := by
  obtain ⟨hcp, hport, hresp⟩ : State.PortsAdvance { s with port := s.port.drop k } (respond k ws s) :=
    emitThen_portsAdvance (addCp_portsAdvance k) _
  exact ⟨hcp, hport.trans (List.drop_suffix ..), hresp⟩

theorem runBlock_portsAdvance (total left : Nat) (s : State) : s.PortsAdvance (runBlock total left s) := by
  induction left generalizing s with
  | zero => exact addCp_portsAdvance _ s
  | succ left ih =>
    unfold runBlock
    split
    · next l r rest hp =>
      have hframe : s.PortsAdvance (sampleWrites l r { s with port := rest }) :=
        ⟨le_rfl, ⟨[l, r], hp.symm⟩, List.prefix_rfl⟩
      exact hframe.trans (emitThen_portsAdvance (fun u => ih (advanceCursors u)) _)
    all_goals exact .refl s

theorem goOn_portsAdvance (after : After) (s : State) : s.PortsAdvance (goOn after s) := by
  cases after with
  | command length => exact addCp_portsAdvance length s
  | sampleStep total left => exact runBlock_portsAdvance total left (advanceCursors s)

theorem resumeBusy_portsAdvance (b : Busy) (s : State) : s.PortsAdvance (resumeBusy b s) := by
  cases b with
  | input total left => exact runBlock_portsAdvance total left s
  | output ws after => exact emitThen_portsAdvance (goOn_portsAdvance after) s

theorem commandEffect_portsAdvance (i : Instr) (s : State) : s.PortsAdvance (commandEffect i s) := by
  cases i with
  | destroy | reset => exact complete_portsAdvance 1 s
  | create | setSampleRate | setDelayTime | setFeedback | setMix | setVoiceCount => exact complete_portsAdvance 2 s
  | getSampleRate | getDelayTime | getFeedback | getMix | getVoiceCount | getWriteCursor | getWaveformSize
  | getWaveformIndex | getVoiceWaveform | readVoiceRing => exact respond_portsAdvance _ _ s
  | processBlock nli nri nlo nro =>
    have hstart : s.PortsAdvance (startBlock s) := ⟨le_rfl, List.drop_suffix .., List.prefix_rfl⟩
    exact hstart.trans (runBlock_portsAdvance _ _ _)

/-- An illegal word and a command word that faults are one word taken. -/
theorem step_portsAdvance {s t : State} (e : step s = .next t) : s.PortsAdvance t := by
  obtain ⟨-, ⟨b, -, rfl⟩ | ⟨-, rfl⟩ | ⟨-, rfl⟩ | ⟨-, -, rfl⟩ | ⟨-, i, rest, -, he⟩⟩ := step_cases e
  · exact resumeBusy_portsAdvance b s
  · exact .refl _
  · exact complete_portsAdvance 1 s
  · exact complete_portsAdvance 1 s
  · obtain ⟨-, ⟨-, rfl⟩ | ⟨-, -, rfl⟩⟩ := exec_next he
    · exact commandEffect_portsAdvance i s
    · exact complete_portsAdvance 1 s

/-! ## The access table (10_state.md R37) -/

/-- What a block writes no part of (42_process_block.md R151, R152): the parameters, the latch, the marks and the fault
record, `W` and the capacity of the response port. -/
structure State.BlockFrame (s t : State) : Prop where
  sr : t.sr = s.sr
  dt : t.dt = s.dt
  fb : t.fb = s.fb
  mx : t.mx = s.mx
  vc : t.vc = s.vc
  bd : t.bd = s.bd
  alive : t.alive = s.alive
  faulted : t.faulted = s.faulted
  faultInfo : t.faultInfo = s.faultInfo
  respCap : t.respCap = s.respCap
  ringLen : t.ringLen = s.ringLen

theorem runBlock_frame (total left : Nat) (s : State) : s.BlockFrame (runBlock total left s) := by
  obtain ⟨fs, rest, -, ⟨-, -, e⟩ | ⟨-, -, -, e⟩ | ⟨f, c, -, -, -, -, e⟩⟩ := runBlock_cases total left s
  all_goals
    rw [e]
    constructor <;> simp [waitingStep]

@[simp] theorem runBlock_sr (total left : Nat) (s : State) : (runBlock total left s).sr = s.sr :=
  (runBlock_frame total left s).sr

@[simp] theorem runBlock_dt (total left : Nat) (s : State) : (runBlock total left s).dt = s.dt :=
  (runBlock_frame total left s).dt

@[simp] theorem runBlock_fb (total left : Nat) (s : State) : (runBlock total left s).fb = s.fb :=
  (runBlock_frame total left s).fb

@[simp] theorem runBlock_mx (total left : Nat) (s : State) : (runBlock total left s).mx = s.mx :=
  (runBlock_frame total left s).mx

@[simp] theorem runBlock_vc (total left : Nat) (s : State) : (runBlock total left s).vc = s.vc :=
  (runBlock_frame total left s).vc

@[simp] theorem runBlock_bd (total left : Nat) (s : State) : (runBlock total left s).bd = s.bd :=
  (runBlock_frame total left s).bd

@[simp] theorem runBlock_alive (total left : Nat) (s : State) : (runBlock total left s).alive = s.alive :=
  (runBlock_frame total left s).alive

@[simp] theorem runBlock_respCap (total left : Nat) (s : State) : (runBlock total left s).respCap = s.respCap :=
  (runBlock_frame total left s).respCap

@[simp] theorem runBlock_ringLen (total left : Nat) (s : State) : (runBlock total left s).ringLen = s.ringLen :=
  (runBlock_frame total left s).ringLen

/-! ## The base delay latch outside a block (10_state.md R27) -/

/-- `emit` does not look at `BD`. -/
theorem emitThen_bd_irrel {ws : List Word} {after : After} {next : State → State} {b : BitVec 14}
    (hnext : ∀ u : State, next { u with bd := b } = { next u with bd := b }) (s : State) :
    emitThen ws after next { s with bd := b } = { emitThen ws after next s with bd := b } := by
  rcases room_or_full s ws.length with h | ⟨c, hc, h⟩
  · rw [emitThen_runs h]
    exact (emitThen_runs (s := { s with bd := b }) h).trans (hnext (emitAll ws s))
  · rw [emitThen_waits hc h]
    exact emitThen_waits (s := { s with bd := b }) hc h

theorem respond_bd_irrel (k : Nat) (ws : List Word) (s : State) (b : BitVec 14) :
    respond k ws { s with bd := b } = { respond k ws s with bd := b } :=
  emitThen_bd_irrel (fun _ => rfl) { s with port := s.port.drop k }

/-- A command that answers is in no block while its words wait. -/
theorem respond_not_inBlock {k : Nat} {ws : List Word} {s : State} (h : ¬ inBlock s.busy) :
    ¬ inBlock (respond k ws s).busy := by
  rcases respond_cases k ws s with ⟨-, e⟩ | ⟨c, -, -, e⟩
  · rwa [e]
  · rw [e]
    exact id

/-- `t'` is `t` but for `BD`, and in `BD` too while a block is in progress. -/
def State.SameOutsideLatch (t t' : State) : Prop :=
  ∃ b : BitVec 14, t' = { t with bd := b } ∧ (inBlock t.busy → b = t.bd)

theorem State.SameOutsideLatch.of_not_inBlock {t t' : State} (b : BitVec 14) (ht : ¬ inBlock t.busy)
    (h : t' = { t with bd := b }) : t.SameOutsideLatch t' :=
  ⟨b, h, fun hin => absurd hin ht⟩

theorem State.SameOutsideLatch.refl (t : State) : t.SameOutsideLatch t := ⟨t.bd, rfl, fun _ => rfl⟩

/-- PROCESS_BLOCK and DESTROY write `BD` without reading it, and no other command reads it or writes it. -/
theorem commandEffect_sameOutsideLatch (i : Instr) {s : State} (b : BitVec 14) (h : ¬ inBlock s.busy) :
    (commandEffect i s).SameOutsideLatch (commandEffect i { s with bd := b }) := by
  cases i with
  | processBlock | destroy => exact .refl _
  | create | reset | setSampleRate | setDelayTime | setFeedback | setMix | setVoiceCount => exact .of_not_inBlock b h rfl
  | getSampleRate | getDelayTime | getFeedback | getMix | getVoiceCount | getWriteCursor | getWaveformSize
  | getWaveformIndex | getVoiceWaveform | readVoiceRing =>
    exact .of_not_inBlock b (respond_not_inBlock h) (respond_bd_irrel _ _ s b)

theorem exec_sameOutsideLatch {i : Instr} {s t : State} (b : BitVec 14) (h : ¬ inBlock s.busy) (e : exec i s = .next t) :
    ∃ t', exec i { s with bd := b } = .next t' ∧ t.SameOutsideLatch t' := by
  obtain ⟨hf, ⟨ha, rfl⟩ | ⟨hn, ha, rfl⟩⟩ := exec_next e
  · exact ⟨_, exec_runs (s := { s with bd := b }) hf ha, commandEffect_sameOutsideLatch i b h⟩
  · exact ⟨_, exec_raises (s := { s with bd := b }) hf hn ha, .of_not_inBlock b h rfl⟩

/-- A command that waits outside a block goes on without looking at `BD`. -/
theorem resumeBusy_sameOutsideLatch {w : Busy} {s : State} (b : BitVec 14) (h : ¬ inBlock (some w)) :
    (resumeBusy w s).SameOutsideLatch (resumeBusy w { s with bd := b }) := by
  rcases w with _ | ⟨ws, length | _⟩
  case output.command =>
    have hbusy : ¬ inBlock (resumeBusy (.output ws (.command length)) s).busy := by
      rcases emitThen_cases ws (.command length) (goOn (.command length)) s with ⟨-, e⟩ | ⟨c, -, -, e⟩
      all_goals
        rw [resumeBusy, e]
        exact id
    exact .of_not_inBlock b hbusy (emitThen_bd_irrel (fun _ => rfl) s)
  all_goals exact absurd trivial h

/-- Reading the port and the marks, the block does not look at `BD`. -/
theorem fetch_bd_irrel (s : State) (b : BitVec 14) : fetch { s with bd := b } = fetch s := rfl

theorem busy_of_fetch_resume {s : State} {w : Busy} (h : fetch s = .resume w) : s.busy = some w := by
  unfold fetch at h
  split at h
  · cases h
  · split at h
    · next hb => exact hb.trans (congrArg some (Fetched.resume.inj h))
    · split at h
      -- operand words are missing
      case h_5 => split at h <;> cases h
      all_goals cases h

theorem step_sameOutsideLatch {s t : State} (b : BitVec 14) (h : ¬ inBlock s.busy) (e : step s = .next t) :
    ∃ t', step { s with bd := b } = .next t' ∧ t.SameOutsideLatch t' := by
  unfold step at e ⊢
  rw [fetch_bd_irrel]
  generalize hfetch : fetch s = f at e ⊢
  cases f with
  | stuck => cases e
  | resume w =>
    cases e
    exact ⟨_, rfl, resumeBusy_sameOutsideLatch b (busy_of_fetch_resume hfetch ▸ h)⟩
  | wait | illegal | noInstance =>
    cases e
    exact ⟨_, rfl, .of_not_inBlock b h rfl⟩
  | run i => exact exec_sameOutsideLatch b h e

end Sys2Proof.Machine

namespace Sys2Proof.Proofs

open Sys2Proof.Machine

/-- Settles O3: each thing a step can do keeps the invariant. -/
theorem everyStepKeepsRanges : Obligations.EveryStepKeepsRanges := fun _ _ => step_inv

/-- Settles O4, by induction on the run. -/
theorem reachableStatesAreInRange : Obligations.ReachableStatesAreInRange := by
  intro s h
  induction h with
  | powerOn s h => exact h.inv
  | step s t _ e ih => exact step_inv ih e
  | send s ws _ ih => exact send_inv ws ih
  | drain s k _ ih => exact drain_inv k ih

/-- Settles O17: each thing a step can do advances the ports. -/
theorem portsMoveOneWay : Obligations.PortsMoveOneWay := by
  intro s t e
  obtain ⟨hcp, hport, ws, hresp⟩ := step_portsAdvance e
  exact ⟨hcp, ⟨_, List.suffix_iff_eq_drop.mp hport⟩, ws, hresp.symm⟩

/-- Settles O19, command by command: a command that raises the fault writes none of these, a getter leaves them alone, and a
block writes the memories and the cursors. -/
theorem commandsWriteOnlyTheirRegisters : Obligations.CommandsWriteOnlyTheirRegisters := by
  intro i s t e hdestroy
  obtain ⟨-, ⟨-, rfl⟩ | ⟨-, -, rfl⟩⟩ := exec_next e
  · cases i with
    | destroy => exact absurd rfl hdestroy
    | create | reset | setSampleRate | setDelayTime | setFeedback | setMix | setVoiceCount => simp [commandEffect]
    | getSampleRate | getDelayTime | getFeedback | getMix | getVoiceCount | getWriteCursor | getWaveformSize
    | getWaveformIndex | getVoiceWaveform | readVoiceRing => simp [commandEffect]
    | processBlock => simp [commandEffect]
  · simp

/-- Settles O24: inside a block the two states are one; outside, no step reads `BD`. -/
theorem baseDelayLatchIsUnobservable : Obligations.BaseDelayLatchIsUnobservable := by
  intro s t b hb e
  by_cases hin : Claims.inBlock s.busy
  · obtain rfl := hb hin
    exact ⟨t.bd, e, fun _ => rfl⟩
  · obtain ⟨-, e', b', rfl, hb'⟩ := step_sameOutsideLatch b hin e
    exact ⟨b', e', hb'⟩

end Sys2Proof.Proofs

/-!
PROOFS. The byte transport (20_memory.md R57, R58) and the dispatch of a decoded command (R61).
-/

namespace Sys2Proof

/-! ## Words and bytes (20_memory.md R57) -/

theorem bytesOfWord_eq (w : Word) :
    bytesOfWord w =
      [BitVec.ofNat 8 w.toNat, BitVec.ofNat 8 (w.toNat / 256), BitVec.ofNat 8 (w.toNat / 65536),
        BitVec.ofNat 8 (w.toNat / 16777216)] := by
  simp only [bytesOfWord, BitVec.extractLsb', Nat.shiftRight_eq_div_pow, Nat.reducePow, Nat.div_one]

theorem wordOfBytes_extractLsb' (w : Word) :
    wordOfBytes (w.extractLsb' 0 8) (w.extractLsb' 8 8) (w.extractLsb' 16 8) (w.extractLsb' 24 8) = w := by
  unfold wordOfBytes
  rw [BitVec.extractLsb'_append_extractLsb'_eq_extractLsb' (by rfl),
    BitVec.extractLsb'_append_extractLsb'_eq_extractLsb' (by rfl),
    BitVec.extractLsb'_append_extractLsb'_eq_extractLsb' (by rfl)]
  exact BitVec.extractLsb'_eq_self

theorem wordsOfBytes_bytesOfWord_append (w : Word) (bs : List Byte) :
    wordsOfBytes (bytesOfWord w ++ bs) = (w :: (wordsOfBytes bs).1, (wordsOfBytes bs).2) := by
  conv_rhs => rw [← wordOfBytes_extractLsb' w]
  rfl

/-- Fewer than four bytes are no word yet (20_memory.md R58). -/
theorem wordsOfBytes_of_length_lt {bs : List Byte} (h : bs.length < 4) : wordsOfBytes bs = ([], bs) := by
  match bs, h with
  | [], _ | [_], _ | [_, _], _ | [_, _, _], _ => rfl

theorem bytesOfWords_cons (w : Word) (ws : List Word) : bytesOfWords (w :: ws) = bytesOfWord w ++ bytesOfWords ws :=
  List.flatMap_cons

theorem wordsOfBytes_bytesOfWords_append (ws : List Word) {tail : List Byte} (h : tail.length < 4) :
    wordsOfBytes (bytesOfWords ws ++ tail) = (ws, tail) := by
  induction ws with
  | nil => exact wordsOfBytes_of_length_lt h
  | cons w ws ih =>
    rw [bytesOfWords_cons, List.append_assoc, wordsOfBytes_bytesOfWord_append, ih]

end Sys2Proof

namespace Sys2Proof.Machine

/-- Neither stuck nor waiting in a command, the block runs the command at the head of its port (20_memory.md R61). -/
theorem step_run {s : State} {i : Instr} {rest : List Word} (hf : s.faulted = false) (hb : s.busy = none)
    (hd : decode s.port = .ok (i, rest)) : step s = exec i s := by
  rw [step, fetch_run hf hb hd]

end Sys2Proof.Machine

namespace Sys2Proof.Proofs

open Sys2Proof.Machine

/-- Settles O9: a word's bytes put together again are the word, so by induction on the words the reader takes each of them and
stops at the partial word. -/
theorem bytesCarryWordsLittleEndian : Obligations.BytesCarryWordsLittleEndian :=
  ⟨bytesOfWord_eq, fun ws _ => wordsOfBytes_bytesOfWords_append ws⟩

/-- Settles O11: `fetch` answers such a state with the decoded command. -/
theorem stepRunsTheDecodedCommand : Obligations.StepRunsTheDecodedCommand := fun _ _ _ => step_run

end Sys2Proof.Proofs

/-!
PROOFS. The command encoding (30_encoding.md R71 to R74): which word is which opcode, and what is decoded is exactly what is
encoded. Then the illegal word (R75), the lengths of the commands (R78) and the pseudo-commands (R82).
-/

namespace Sys2Proof

open Sys2Proof.Claims (legalWords legalOpcs)

/-! ## The command word (30_encoding.md R71, R73) -/

theorem mem_opcodeList (op : Opcode) : op ∈ opcodeList := by
  cases op <;> decide

/-- No two operations share an opcode, so the first one the table is searched for is the only one. -/
theorem find?_opcodeList_opcodeBits (op : Opcode) :
    opcodeList.find? (fun o => opcodeBits o == opcodeBits op) = some op := by
  cases op <;> rfl

theorem find?_opcodeList_eq_some_iff (b : BitVec 8) (op : Opcode) :
    opcodeList.find? (fun o => opcodeBits o == b) = some op ↔ opcodeBits op = b := by
  constructor
  · intro h
    simpa using List.find?_some h
  · rintro rfl
    exact find?_opcodeList_opcodeBits op

theorem setWidth_eq_zero_append (b : BitVec 8) : b.setWidth 32 = (0 : BitVec 24) ++ b :=
  BitVec.setWidth_eq_append (by decide)

/-- A word whose reserved bits are 0 is its `OPC` field, zero-extended. -/
theorem eq_setWidth_iff (w : Word) (b : BitVec 8) : w = b.setWidth 32 ↔ rsvdField w = 0 ∧ opcField w = b := by
  rw [setWidth_eq_zero_append]
  constructor
  · rintro rfl
    exact ⟨BitVec.extractLsb'_append_eq_left, BitVec.extractLsb'_append_eq_right⟩
  · rintro ⟨hr, ho⟩
    rw [← hr, ← ho]
    exact (BitVec.extractLsb'_append_extractLsb' (w := 24) (len := 8)).symm

/-- The one word that is decoded as an operation is its command word. -/
theorem decodeWord_eq_ok_iff (w : Word) (op : Opcode) : decodeWord w = .ok op ↔ w = commandWord op := by
  rw [commandWord, eq_setWidth_iff, eq_comm (a := opcField w), ← find?_opcodeList_eq_some_iff]
  unfold decodeWord
  split
  · next hr =>
    split
    · next o ho => simp only [hr, ho, true_and, Except.ok.injEq, Option.some.injEq]
    · next ho => simp only [ho, and_false, reduceCtorEq]
  · next hr => simp only [hr, false_and, reduceCtorEq]

/-- A word that names no operation is illegal, for one of the two reasons of 30_encoding.md R74. -/
theorem decodeWord_error {w : Word} {e : DecodeError} (h : decodeWord w = .error e) :
    e = .reservedBitsSet ∨ e = .unassignedOpcode := by
  unfold decodeWord at h
  split at h
  · split at h
    · cases h
    · exact .inr (Except.error.inj h).symm
  · exact .inl (Except.error.inj h).symm

/-! ## The legal words (30_encoding.md R74) -/

theorem legalWords_eq : legalWords = opcodeList.map commandWord := rfl

theorem legalOpcs_eq : legalOpcs = opcodeList.map opcodeBits := rfl

theorem legal_iff_mem_legalWords (w : Word) : (∃ op, decodeWord w = .ok op) ↔ w ∈ legalWords := by
  simp only [decodeWord_eq_ok_iff, legalWords_eq, List.mem_map, mem_opcodeList, true_and, eq_comm (a := w)]

theorem legal_iff_fields (w : Word) : (∃ op, decodeWord w = .ok op) ↔ rsvdField w = 0 ∧ opcField w ∈ legalOpcs := by
  simp only [decodeWord_eq_ok_iff, commandWord, eq_setWidth_iff, legalOpcs_eq, List.mem_map, mem_opcodeList, true_and,
    exists_and_left, eq_comm (a := opcField w)]

theorem decode_illegal {w : Word} (rest : List Word) (hw : w ∉ legalWords) :
    ∃ e, decode (w :: rest) = .error e ∧ (e = .reservedBitsSet ∨ e = .unassignedOpcode) := by
  cases hd : decodeWord w with
  | ok op => exact absurd ((legal_iff_mem_legalWords w).mp ⟨op, hd⟩) hw
  | error e => exact ⟨e, by rw [decode, hd], decodeWord_error hd⟩

/-! ## The operand words (30_encoding.md R72, R73) -/

open Laws.Framing in
/-- Every command is framed by its opcode: the laws of the single commands, together. -/
theorem framing : ∀ i : Instr, Statement i
  | .create sr => create sr
  | .destroy => destroy
  | .reset => reset
  | .setSampleRate hz => setSampleRate hz
  | .setDelayTime ms => setDelayTime ms
  | .setFeedback v => setFeedback v
  | .setMix v => setMix v
  | .setVoiceCount n => setVoiceCount n
  | .getSampleRate => getSampleRate
  | .getDelayTime => getDelayTime
  | .getFeedback => getFeedback
  | .getMix => getMix
  | .getVoiceCount => getVoiceCount
  | .getWriteCursor => getWriteCursor
  | .processBlock nli nri nlo nro => processBlock nli nri nlo nro
  | .getWaveformSize => getWaveformSize
  | .getWaveformIndex => getWaveformIndex
  | .getVoiceWaveform k => getVoiceWaveform k
  | .readVoiceRing k => readVoiceRing k

theorem decodeOperands_operandWords {i : Instr} (rest : List Word) (h : i.wellFormed = true) :
    decodeOperands i.opcode (i.operandWords ++ rest) = some (i, rest) :=
  (framing i h).2 rest

/-- A command read from words names the operation it was read for, and its operand words are those it was read from. -/
theorem decodeOperands_eq_some {op : Opcode} {ws rest : List Word} {i : Instr}
    (h : decodeOperands op ws = some (i, rest)) : op = i.opcode ∧ ws = i.operandWords ++ rest := by
  unfold decodeOperands at h
  split at h <;> cases h
  all_goals simp [Instr.opcode, Instr.operandWords]

/-- A command is read from a legal word and the words after it. -/
theorem decode_eq_ok {ws : List Word} {r : Instr × List Word} (h : decode ws = .ok r) :
    ∃ w ops op, ws = w :: ops ∧ decodeWord w = .ok op ∧ decodeOperands op ops = some r := by
  unfold decode at h
  split at h
  · cases h
  · next w ops =>
    split at h
    · cases h
    · next op hw =>
      split at h
      · next r' hops =>
        cases h
        exact ⟨w, ops, op, rfl, hw, hops⟩
      · cases h

/-- What is decoded is exactly what is encoded: the words of a well-formed command, and those after them. -/
theorem decode_eq_ok_iff (ws rest : List Word) (i : Instr) :
    decode ws = .ok (i, rest) ↔ i.wellFormed = true ∧ ws = encode i ++ rest := by
  constructor
  · intro h
    refine ⟨Machine.wellFormed_of_decode h, ?_⟩
    obtain ⟨w, ops, op, rfl, hw, hops⟩ := decode_eq_ok h
    obtain ⟨rfl, rfl⟩ := decodeOperands_eq_some hops
    rw [(decodeWord_eq_ok_iff w _).mp hw, encode, List.cons_append]
  · rintro ⟨hi, rfl⟩
    have hw : decodeWord (commandWord i.opcode) = .ok i.opcode := (decodeWord_eq_ok_iff _ _).mpr rfl
    rw [encode, List.cons_append, decode, hw]
    simp only [decodeOperands_operandWords rest hi]

end Sys2Proof

namespace Sys2Proof.Machine

open Sys2Proof.Claims (legalWords legalWithoutInstance commandLength waitingLength)

/-! ## The illegal word (30_encoding.md R75) -/

theorem step_illegal {s : State} {w : Word} {rest : List Word} (hf : s.faulted = false) (hb : s.busy = none)
    (hp : s.port = w :: rest) (hw : w ∉ legalWords) : step s = .next (skipIllegal s) := by
  obtain ⟨e, hd, he⟩ := decode_illegal rest hw
  rw [step, fetch_illegal hf hb (hp ▸ hd) he]

/-! ## The length of a command (30_encoding.md R78) -/

theorem legalWithoutInstance_iff (i : Instr) : legalWithoutInstance i ↔ needsInstance i.opcode = false := by
  cases i with
  | create | getWaveformSize => exact ⟨fun _ => rfl, fun _ => trivial⟩
  | destroy | reset | setSampleRate | setDelayTime | setFeedback | setMix | setVoiceCount | getSampleRate | getDelayTime
  | getFeedback | getMix | getVoiceCount | getWriteCursor | processBlock | getWaveformIndex | getVoiceWaveform
  | readVoiceRing => exact ⟨False.elim, Bool.noConfusion⟩

/-- A command whose length is `k` has run from `s` to `t`: it has ended and `cp` has advanced by `k`, or it waits and `cp`
has not moved yet. -/
def State.AdvancesBy (k : Nat) (s t : State) : Prop := (t.busy = none → t.cp = s.cp + k) ∧ (t.busy ≠ none → t.cp = s.cp)

theorem State.AdvancesBy.of_done {k : Nat} {s t : State} (hb : t.busy = none) (hcp : t.cp = s.cp + k) : s.AdvancesBy k t :=
  ⟨fun _ => hcp, fun h => absurd hb h⟩

theorem State.AdvancesBy.of_waits {k : Nat} {s t : State} (hb : t.busy ≠ none) (hcp : t.cp = s.cp) : s.AdvancesBy k t :=
  ⟨fun h => absurd h hb, fun _ => hcp⟩

theorem waitingOutput_advancesBy (length k : Nat) (ws : List Word) (after : After) (s : State) :
    s.AdvancesBy length (waitingOutput k ws after s) :=
  .of_waits (Option.some_ne_none _) rfl

/-- What follows an `emit` decides how far it advances `cp`. -/
theorem emitThen_advancesBy {k : Nat} {ws : List Word} {after : After} {next : State → State} {s : State}
    (h : s.AdvancesBy k (next (emitAll ws s))) : s.AdvancesBy k (emitThen ws after next s) := by
  rcases emitThen_cases ws after next s with ⟨-, e⟩ | ⟨c, -, -, e⟩
  · rwa [e]
  · rw [e]
    exact waitingOutput_advancesBy ..

theorem respond_advancesBy (k : Nat) (ws : List Word) {s : State} (hb : s.busy = none) :
    s.AdvancesBy k (respond k ws s) :=
  emitThen_advancesBy (s := { s with port := s.port.drop k }) (.of_done hb rfl)

theorem runBlock_advancesBy (total left : Nat) (s : State) : s.AdvancesBy (5 + 2 * total) (runBlock total left s) := by
  obtain ⟨fs, rest, -, ⟨-, -, e⟩ | ⟨-, -, -, e⟩ | ⟨f, c, -, -, -, -, e⟩⟩ := runBlock_cases total left s
  · rw [e]
    exact .of_done rfl (by simp)
  · rw [e]
    exact .of_waits (Option.some_ne_none _) (by simp)
  · rw [e]
    exact .of_waits (Option.some_ne_none _) (by simp [waitingStep])

/-- A block that ends has taken its input frames, two words each (42_process_block.md R150). -/
theorem runBlock_port_of_done {total left : Nat} {s : State} (h : (runBlock total left s).busy = none) :
    (runBlock total left s).port = s.port.drop (2 * left) := by
  obtain ⟨fs, rest, -, ⟨hp, rfl, e⟩ | ⟨-, -, -, e⟩ | ⟨f, c, -, -, -, -, e⟩⟩ := runBlock_cases total left s
  · rw [e, hp, ← portOfFrames_length, List.drop_left]
    simp
  · rw [e] at h
    cases h
  · rw [e] at h
    cases h

theorem goOn_advancesBy (ws : List Word) (after : After) (s : State) :
    s.AdvancesBy (waitingLength (.output ws after)) (goOn after s) := by
  cases after with
  | command length => exact .of_done rfl rfl
  | sampleStep total left => exact runBlock_advancesBy total left (advanceCursors s)

theorem resumeBusy_advancesBy (b : Busy) (s : State) : s.AdvancesBy (waitingLength b) (resumeBusy b s) := by
  cases b with
  | input total left => exact runBlock_advancesBy total left s
  | output ws after => exact emitThen_advancesBy (goOn_advancesBy ws after (emitAll ws s))

theorem commandEffect_advancesBy (i : Instr) {s : State} (hb : s.busy = none) :
    s.AdvancesBy (commandLength i) (commandEffect i s) := by
  cases i with
  | create | destroy | reset | setSampleRate | setDelayTime | setFeedback | setMix | setVoiceCount => exact .of_done hb rfl
  | getSampleRate | getDelayTime | getFeedback | getMix | getVoiceCount | getWriteCursor | getWaveformSize
  | getWaveformIndex | getVoiceWaveform | readVoiceRing => exact respond_advancesBy _ _ hb
  | processBlock => exact runBlock_advancesBy _ _ (startBlock s)

/-- A command that ends has taken its words; one that answers has taken them even while its answer waits. -/
theorem commandEffect_port_of_done {i : Instr} {s : State} (h : (commandEffect i s).busy = none) :
    (commandEffect i s).port = s.port.drop (commandLength i) := by
  cases i with
  | create | destroy | reset | setSampleRate | setDelayTime | setFeedback | setMix | setVoiceCount => rfl
  | getSampleRate | getDelayTime | getFeedback | getMix | getVoiceCount | getWriteCursor | getWaveformSize
  | getWaveformIndex | getVoiceWaveform | readVoiceRing => exact respond_port ..
  | processBlock =>
    have hport := runBlock_port_of_done h
    rwa [startBlock_port, List.drop_drop] at hport

/-! ## Pseudo-commands (30_encoding.md R82) -/

theorem f32OfDecimal_zero : f32OfDecimal false 0 1 = 0 := by decide

theorem f32OfDecimal_one : f32OfDecimal false 10 1 = Config.one := by decide

/-- Lines `FRAME 0.0, 0.0` are silent frames. -/
theorem assemble_zero_frames (n : Nat) :
    assemble (List.replicate n (.frame (.decimal false 0 1) (.decimal false 0 1))) = silentFrames n := by
  rw [assemble, List.flatMap_replicate, assembleLine, f32OfLiteral, f32OfDecimal_zero, silentFrames]

theorem assemble_cons (l : Line) (ls : List Line) : assemble (l :: ls) = assembleLine l ++ assemble ls := List.flatMap_cons

end Sys2Proof.Machine

namespace Sys2Proof.Proofs

open Sys2Proof.Machine

/-- Settles O5: an encoding is a legal command word and operand words that are read back. -/
theorem decodeAfterEncode : Obligations.DecodeAfterEncode := fun i rest hi => (decode_eq_ok_iff _ rest i).mpr ⟨hi, rfl⟩

/-- Settles O6: a legal word is the command word of its operation, and its operands are read from their own words. -/
theorem encodeAfterDecode : Obligations.EncodeAfterDecode := fun ws rest i => (decode_eq_ok_iff ws rest i).mp

/-- Settles O7: the command words of the 19 operations are all the legal words, by their fields and as a list. -/
theorem nineteenLegalWords : Obligations.NineteenLegalWords := fun w =>
  ⟨legal_iff_fields w, legal_iff_mem_legalWords w, rfl, by decide⟩

/-- Settles O8: five are the words of well-formed commands and what follows them, and three are no command. -/
theorem sampleWordsDecode : Obligations.SampleWordsDecode := by
  refine ⟨?_, ?_, ?_, ?_, ?_, rfl, rfl, rfl⟩
  all_goals exact (decode_eq_ok_iff ..).mpr (by decide)

/-- Settles O10: line by line, with `0.0` and `1.0` read as their patterns. -/
theorem pseudoCommandsExpand : Obligations.PseudoCommandsExpand := by
  intro n
  refine ⟨?_, ?_, fun _ => ?_, fun _ => rfl⟩
  · exact (List.append_nil _).symm
  · rw [assemble_cons, assemble_zero_frames]
    rfl
  · rw [assemble_cons, assemble_cons, assemble_zero_frames, assembleLine, assembleLine, assembleLine, f32OfLiteral,
      f32OfDecimal_one, List.append_assoc]

/-- Settles O12: the word is neither decoded as a command nor waited for. -/
theorem illegalWordIsIgnored : Obligations.IllegalWordIsIgnored := by
  intro s w rest hf hb hp hw
  rw [step_illegal hf hb hp hw, skipIllegal, complete, hp, List.drop_one, List.tail_cons]

/-- Settles O18: the command that starts, the command that goes on after a wait, and the illegal word. -/
theorem commandsAdvanceByTheirLength : Obligations.CommandsAdvanceByTheirLength := by
  refine ⟨fun s t i rest hb hd e => ?_, fun s t b hb e => ?_, fun s t w rest hb hp hw e => ?_⟩
  · have hf := (step_cases e).1
    rw [step_run hf hb hd] at e
    refine ⟨fun hlegal hdone => ?_, fun ha hillegal => ?_⟩
    · have ha : needsInstance i.opcode = true → s.alive = true := fun hn =>
        hlegal.resolve_right fun h => absurd hn (by simp [(legalWithoutInstance_iff i).mp h])
      cases (exec_runs hf ha).symm.trans e
      exact ⟨(commandEffect_advancesBy i hb).1 hdone, commandEffect_port_of_done hdone⟩
    · have hn : needsInstance i.opcode = true := by simpa [legalWithoutInstance_iff] using hillegal
      cases (exec_raises hf hn ha).symm.trans e
      exact ⟨rfl, rfl⟩
  · rw [step, fetch_resume (step_cases e).1 hb] at e
    cases e
    exact resumeBusy_advancesBy b s
  · cases (step_illegal (step_cases e).1 hb hp hw).symm.trans e
    exact ⟨rfl, by rw [skipIllegal_port, hp, List.drop_one, List.tail_cons]⟩

end Sys2Proof.Proofs

/-!
PROOFS. Tap geometry (40_tap_geometry.md): the arms of `BaseDelay`, the sum `TapDelay` clamps and its steps, and the gain table
as the binary32 values nearest to the real gain law.
-/

namespace Sys2Proof.Machine

/-! ## Base delay (40_tap_geometry.md R103) -/

theorem baseDelayOfProduct_nan {p : F32} (h : isNaN p = true) : baseDelayOfProduct p = 1 := if_pos h

theorem baseDelayOfProduct_inf {p : F32} (h : isInf p = true) :
    baseDelayOfProduct p = if f32Neg p then 1 else 11999 := by
  simp [baseDelayOfProduct, not_isNaN_of_isInf h, h]

/-- The clamp leaves a natural number, so reading it as one loses nothing. -/
theorem baseDelayOfProduct_finite {p : F32} (h : isFinite p = true) :
    (baseDelayOfProduct p : Int) = max 1 (min (roundHalfAway (units p) (2 ^ 149)) 11999) := by
  have hpos : 0 ≤ max 1 (min (roundHalfAway (units p) (2 ^ 149)) 11999) := le_max_of_le_left zero_le_one
  rw [baseDelayOfProduct, not_isNaN_of_isFinite h, not_isInf_of_isFinite h]
  exact Int.toNat_of_nonneg hpos

/-! ## Tap delay (40_tap_geometry.md R104 to R106) -/

/-- The sum whose minimum with the capacity less one is `TapDelay(i, n, b)` (40_tap_geometry.md R104). -/
def tapSum (n b i : Nat) : Nat := b * (i + 1) + b * i / n

/-- For one voice only tap 0 exists, and its quotient is 0 as well. -/
theorem tapOffset_eq {i n : Nat} (b : Nat) (hi : i < n) : (if 1 < n then b * i / n else 0) = b * i / n := by
  split_ifs with hn
  · rfl
  · obtain rfl : i = 0 := by omega
    simp

theorem tapDelay_eq_min_tapSum {i n : Nat} (b : Nat) (hi : i < n) : tapDelay i n b = min (tapSum n b i) 191999 := by
  rw [tapDelay, tapOffset_eq b hi]
  rfl

/-- Up to tap 14 the sum stays below the clamp, whatever the voice count. -/
theorem tapSum_lt {i n b : Nat} (hi : i < n) (hi' : i ≤ 14) (hb : 1 ≤ b) (hb' : b ≤ 11999) : tapSum n b i < 191999 := by
  have hquot : b * i / n < b := Nat.div_lt_of_lt_mul (by rw [Nat.mul_comm n]; exact Nat.mul_lt_mul_of_pos_left hi hb)
  have hprod : b * (i + 1) ≤ b * 15 := Nat.mul_le_mul_left b (by omega)
  rw [tapSum]
  omega

/-- Where the `min` of R104 takes effect (40_tap_geometry.md R105). -/
theorem clamp_lt_tapSum_iff {i n b : Nat} (hi : i < n) (hn : n ≤ 16) (hb : 1 ≤ b) (hb' : b ≤ 11999) :
    191999 < tapSum n b i ↔ n = 16 ∧ i = 15 ∧ 11336 ≤ b := by
  rcases Nat.lt_or_ge 14 i with hlast | hlow
  · obtain ⟨rfl, rfl⟩ : n = 16 ∧ i = 15 := by omega
    rw [tapSum]
    omega
  · have := tapSum_lt hi hlow hb hb'
    omega

/-- The ceiling of `b / n` is one above the floor unless `n` divides `b`. -/
theorem ceil_div_of_not_dvd {n b : Nat} (hn : 0 < n) (h : ¬ n ∣ b) : (b + n - 1) / n = b / n + 1 := by
  obtain _ | a := b
  · exact absurd (Nat.dvd_zero n) h
  · rw [Nat.succ_div_of_not_dvd h, Nat.add_right_comm, Nat.add_sub_cancel, Nat.add_div_right a hn]

/-- The quotients of neighbouring taps differ by the floor of `b / n`, or, when the remainders carry, by the ceiling; when `n`
divides `b` nothing carries. -/
theorem mul_succ_div_cases {n : Nat} (b i : Nat) (hn : 0 < n) :
    b * (i + 1) / n = b * i / n + b / n ∨ ¬ n ∣ b ∧ b * (i + 1) / n = b * i / n + (b + n - 1) / n := by
  rw [Nat.mul_succ]
  by_cases hdvd : n ∣ b
  · exact .inl (Nat.add_div_of_dvd_left hdvd)
  · rw [Nat.add_div hn, ceil_div_of_not_dvd hn hdvd]
    split_ifs
    · exact .inr ⟨hdvd, Nat.add_assoc ..⟩
    · exact .inl rfl

/-- The step of the sums (40_tap_geometry.md R106) is `b` plus the floor of `b / n`, or the ceiling. -/
theorem tapSum_succ_cases {n : Nat} (b i : Nat) (hn : 0 < n) :
    tapSum n b (i + 1) = tapSum n b i + b + b / n ∨
      ¬ n ∣ b ∧ tapSum n b (i + 1) = tapSum n b i + b + (b + n - 1) / n := by
  have hprod : b * (i + 1 + 1) = b * (i + 1) + b := Nat.mul_succ ..
  simp only [tapSum]
  exact (mul_succ_div_cases b i hn).imp (by omega) (And.imp_right (by omega))

theorem tapSum_succ_of_dvd {n b : Nat} (i : Nat) (hn : 0 < n) (h : n ∣ b) :
    tapSum n b (i + 1) = tapSum n b i + b * (n + 1) / n := by
  rcases tapSum_succ_cases b i hn with hstep | ⟨hdvd, -⟩
  · rw [hstep, Nat.mul_succ, Nat.add_div_of_dvd_left h, Nat.mul_div_cancel b hn, Nat.add_assoc]
  · exact absurd h hdvd

theorem mul_div_le_mul_succ_div (n b i : Nat) : b * i / n ≤ b * (i + 1) / n :=
  Nat.div_le_div_right (Nat.mul_le_mul_left b (Nat.le_succ i))

theorem tapSum_succ (n b i : Nat) : tapSum n b (i + 1) = tapSum n b i + (b + b * (i + 1) / n - b * i / n) := by
  have hprod : b * (i + 1 + 1) = b * (i + 1) + b := Nat.mul_succ ..
  have hmono := mul_div_le_mul_succ_div n b i
  simp only [tapSum]
  omega

theorem tapSum_lt_succ (n i : Nat) {b : Nat} (hb : 1 ≤ b) : tapSum n b i < tapSum n b (i + 1) :=
  Nat.add_lt_add_of_lt_of_le (Nat.mul_lt_mul_of_pos_left (Nat.lt_succ_self _) hb) (mul_div_le_mul_succ_div n b i)

/-! ## Tap gains (40_tap_geometry.md R100, R101) -/

/-- The real `gain(i)` of `n` voices (40_tap_geometry.md R100). -/
noncomputable def realGain (i n : Nat) : ℝ := (3 / 4 : ℝ) ^ i / Real.sqrt (∑ k ∈ Finset.range n, (3 / 4 : ℝ) ^ (2 * k))

/-- The numerator of the square of the real gain. -/
def gainSqNum (i n : Nat) : Nat := 7 * 9 ^ i * 16 ^ n

/-- The denominator of the square of the real gain. -/
def gainSqDen (i n : Nat) : Nat := 16 ^ (i + 1) * (16 ^ n - 9 ^ n)

/-- The square of the real gain is a ratio of whole numbers: the sum is a geometric series of ratio `9 / 16`. -/
theorem realGain_sq_mul (i : Nat) {n : Nat} (hn : 0 < n) : realGain i n ^ 2 * gainSqDen i n = gainSqNum i n := by
  have hsq (k : Nat) : (3 / 4 : ℝ) ^ (2 * k) = (9 / 16) ^ k := by
    rw [pow_mul]
    norm_num
  have hlt : (9 : ℝ) ^ n < 16 ^ n := pow_lt_pow_left₀ (by norm_num) (by norm_num) hn.ne'
  have hpos : 0 < (16 : ℝ) ^ n - 9 ^ n := sub_pos.mpr hlt
  have hsum : ∑ k ∈ Finset.range n, (3 / 4 : ℝ) ^ (2 * k) = 16 * (16 ^ n - 9 ^ n) / (7 * 16 ^ n) := by
    simp only [hsq]
    rw [geom_sum_eq (by norm_num), div_pow]
    field_simp
    ring
  have hle : 9 ^ n ≤ 16 ^ n := Nat.pow_le_pow_left (by decide) n
  rw [realGain, div_pow, Real.sq_sqrt (by rw [hsum]; positivity), hsum, ← pow_mul, Nat.mul_comm i, hsq, div_pow, gainSqDen,
    gainSqNum, pow_succ]
  push_cast [Nat.cast_sub hle]
  field_simp

theorem realGain_nonneg (i n : Nat) : 0 ≤ realGain i n := by
  unfold realGain
  positivity

/-- A whole number below `s` times the real gain, by the squares. -/
theorem lt_mul_realGain {i n m s : Nat} (hn : 0 < n) (h : m ^ 2 * gainSqDen i n < s ^ 2 * gainSqNum i n) :
    (m : ℝ) < s * realGain i n := by
  have h' : (m : ℝ) ^ 2 * gainSqDen i n < s ^ 2 * gainSqNum i n := by exact_mod_cast h
  rw [← realGain_sq_mul i hn, ← mul_assoc, ← mul_pow] at h'
  exact lt_of_pow_lt_pow_left₀ 2 (mul_nonneg s.cast_nonneg (realGain_nonneg i n))
    (lt_of_mul_lt_mul_right h' (Nat.cast_nonneg _))

/-- A whole number above `s` times the real gain, by the squares. -/
theorem mul_realGain_lt {i n m s : Nat} (hn : 0 < n) (h : s ^ 2 * gainSqNum i n < m ^ 2 * gainSqDen i n) :
    s * realGain i n < m := by
  have h' : (s : ℝ) ^ 2 * gainSqNum i n < m ^ 2 * gainSqDen i n := by exact_mod_cast h
  rw [← realGain_sq_mul i hn, ← mul_assoc, ← mul_pow] at h'
  exact lt_of_pow_lt_pow_left₀ 2 m.cast_nonneg (lt_of_mul_lt_mul_right h' (Nat.cast_nonneg _))

/-- The table's check, in whole numbers: each entry `p` is positive and finite, and the real gain lies strictly between the
midpoints of its value and those of the patterns `p - 1` and `p + 1`. -/
theorem gainTable_between : ∀ n ≤ 16, ∀ i < n,
    let p := f32Mag (tapGain i n)
    f32Neg (tapGain i n) = false ∧ 0 < p ∧ p < infMag ∧
    (magUnits (p - 1) + magUnits p) ^ 2 * gainSqDen i n < (2 ^ 150) ^ 2 * gainSqNum i n ∧
    (2 ^ 150) ^ 2 * gainSqNum i n < (magUnits p + magUnits (p + 1)) ^ 2 * gainSqDen i n := by
  decide

theorem units_of_not_neg {x : F32} (h : f32Neg x = false) : units x = magUnits (f32Mag x) := by simp [units, h]

theorem units_nonpos_of_neg {x : F32} (h : f32Neg x = true) : units x ≤ 0 := by simp [units, h]

/-- A value other than the one of the positive pattern `p` is at most that of the pattern below or at least that of the
pattern above. -/
theorem units_outside_neighbours {p : Nat} {z : F32} (hne : units z ≠ magUnits p) :
    units z ≤ magUnits (p - 1) ∨ (magUnits (p + 1) : Int) ≤ units z := by
  cases hz : f32Neg z with
  | true => exact .inl ((units_nonpos_of_neg hz).trans (Int.natCast_nonneg _))
  | false =>
    rw [units_of_not_neg hz] at hne ⊢
    have hmag : f32Mag z ≠ p := fun h => hne (by rw [h])
    rw [Nat.cast_le, Nat.cast_le, magUnits_strictMono.le_iff_le, magUnits_strictMono.le_iff_le]
    omega

/-- Strictly between the midpoints of `u` with its two neighbours `a` and `b`, a number is nearer to `u` than to any `t` outside
the neighbours. -/
theorem abs_sub_lt_of_between_midpoints {a u b t r : ℝ} (ha : a < u) (hb : u < b) (hlo : a + u < 2 * r)
    (hhi : 2 * r < u + b) (ht : t ≤ a ∨ b ≤ t) : |u - r| < |t - r| := by
  rcases ht with ht | ht
  · rw [abs_sub_comm t, abs_of_pos (by linarith : 0 < r - t), abs_lt]
    constructor <;> linarith
  · rw [abs_of_pos (by linarith : 0 < t - r), abs_lt]
    constructor <;> linarith

/-- Every number of units outside the neighbours of pattern `p` is farther from the real gain than the value of `p`, when the
real gain lies between the midpoints. -/
theorem abs_div_sub_realGain_lt {i n p : Nat} {t : Int} (hn : 0 < n) (hp : 0 < p)
    (hlo : (magUnits (p - 1) + magUnits p) ^ 2 * gainSqDen i n < (2 ^ 150) ^ 2 * gainSqNum i n)
    (hhi : (2 ^ 150) ^ 2 * gainSqNum i n < (magUnits p + magUnits (p + 1)) ^ 2 * gainSqDen i n)
    (ht : t ≤ magUnits (p - 1) ∨ magUnits (p + 1) ≤ t) :
    |(magUnits p : ℝ) / 2 ^ 149 - realGain i n| < |(t : ℝ) / 2 ^ 149 - realGain i n| := by
  have hscale : (0 : ℝ) < 2 ^ 149 := by positivity
  have hbelow := lt_mul_realGain hn hlo
  have habove := mul_realGain_lt hn hhi
  push_cast at hbelow habove
  have hstep : magUnits (p - 1) < magUnits p := magUnits_strictMono (Nat.sub_one_lt_of_lt hp)
  apply abs_sub_lt_of_between_midpoints (a := magUnits (p - 1) / 2 ^ 149) (b := magUnits (p + 1) / 2 ^ 149)
  · exact div_lt_div_of_pos_right (by exact_mod_cast hstep) hscale
  · exact div_lt_div_of_pos_right (by exact_mod_cast magUnits_lt_succ p) hscale
  · rw [← add_div, div_lt_iff₀ hscale]
    linarith
  · rw [← add_div, lt_div_iff₀ hscale]
    linarith
  · rw [div_le_div_iff_of_pos_right hscale, div_le_div_iff_of_pos_right hscale]
    exact_mod_cast ht

end Sys2Proof.Machine

namespace Sys2Proof.Proofs

open Sys2Proof.Machine

/-- Settles O36, arm by arm. -/
theorem baseDelayFollowsItsArms : Obligations.BaseDelayFollowsItsArms := fun d dt sr =>
  ⟨baseDelayOfProduct_nan, fun hinf hneg => (baseDelayOfProduct_inf hinf).trans (by rw [hneg]; rfl),
    fun hinf hneg => (baseDelayOfProduct_inf hinf).trans (by rw [hneg]; rfl), baseDelayOfProduct_finite,
    baseDelay_range d dt sr⟩

/-- Settles O37: the sum passes the clamp for the last of sixteen taps only. -/
theorem tapDelayFormulaAndRange : Obligations.TapDelayFormulaAndRange := by
  intro i n b hi hn hb hb'
  obtain ⟨hlow, hhigh⟩ := tapDelay_range (i := i) (n := n) hb hb'
  refine ⟨rfl, hlow, hhigh, hb.trans hlow, ?_⟩
  rw [tapOffset_eq b hi]
  exact clamp_lt_tapSum_iff hi hn hb hb'

/-- Settles O38: the steps are those of the sums, which the `min` leaves as they are but for the last of sixteen taps; and no
tap but the last can be at the clamp. -/
theorem tapDelaysAreSpaced : Obligations.TapDelaysAreSpaced := by
  intro i n b hi hn hb hb' sum
  have hn0 : 0 < n := by omega
  have hlt : tapSum n b i < 191999 := tapSum_lt (by omega) (by omega) hb hb'
  have hcases := (tapSum_succ_cases b i hn0).imp_right And.right
  rw [tapDelay_eq_min_tapSum b hi, tapDelay_eq_min_tapSum b (Nat.lt_of_succ_lt hi), min_eq_left hlt.le]
  refine ⟨fun hfree => ?_, hcases, tapSum_succ_of_dvd i hn0, lt_min (tapSum_lt_succ n i hb) hlt⟩
  rw [← clamp_lt_tapSum_iff hi hn hb hb', not_lt] at hfree
  rw [min_eq_left hfree]
  exact ⟨tapSum_succ n b i, hcases, tapSum_succ_of_dvd i hn0⟩

/-- Settles O39: the real gain lies strictly between the midpoints of the entry with its two neighbours. -/
theorem tapGainIsNearestToRealGain : Obligations.TapGainIsNearestToRealGain := by
  intro i n hi hn
  obtain ⟨hneg, hpos, hfin, hlo, hhi⟩ := gainTable_between n hn i hi
  refine ⟨(isFinite_iff _).mpr hfin, fun z _ hne => ?_⟩
  rw [units_of_not_neg hneg] at hne ⊢
  rw [Int.cast_natCast]
  exact abs_div_sub_realGain_lt (Nat.zero_lt_of_lt hi) hpos hlo hhi (units_outside_neighbours hne)

end Sys2Proof.Proofs

/-!
PROOFS. Engine control (41_engine_control.md): the arms of the two clamps, what a getter answers, and from these what each
setter, each getter and RESET leave.
-/

namespace Sys2Proof.Machine

open Sys2Proof.Claims (noInstanceState above Answers)

/-! ## The clamps (41_engine_control.md R121 to R124) -/

theorem units_delayTimeMax : units Config.delayTimeMax = 2000 * 2 ^ 149 := by decide

theorem units_one : units Config.one = 1 * 2 ^ 149 := by decide

theorem clampFloat_nan {hi old v : F32} (h : isNaN v = true) : clampFloat hi old v = old := if_pos h

theorem clampFloat_below {hi old v : F32} (hv : isNaN v = false) (h : units v < 0) : clampFloat hi old v = 0 := by
  simp [clampFloat, hv, h]

/-- No value is both below 0 and above a bound that is not. -/
theorem clampFloat_above {hi old v : F32} (hhi : 0 ≤ units hi) (hv : isNaN v = false) (h : units hi < units v) :
    clampFloat hi old v = hi := by
  simp [clampFloat, hv, h, (hhi.trans_lt h).not_gt]

theorem clampFloat_within {hi old v : F32} (hv : isNaN v = false) (h0 : 0 ≤ units v) (h : units v ≤ units hi) :
    clampFloat hi old v = v := by
  simp [clampFloat, hv, h0.not_gt, h.not_gt]

/-- The four arms of a float setter whose bound is the natural number `n`. -/
theorem clampFloat_arms {hi : F32} {n : Nat} (hhi : units hi = n * 2 ^ 149) (old v : F32) :
    (isNaN v = true → clampFloat hi old v = old) ∧
    (isNaN v = false → units v < 0 → clampFloat hi old v = 0) ∧
    (isNaN v = false → above n v → clampFloat hi old v = hi) ∧
    (isNaN v = false → 0 ≤ units v → ¬ above n v → clampFloat hi old v = v) := by
  have hpos : 0 ≤ units hi := hhi ▸ by positivity
  rw [above, ← hhi, not_lt]
  exact ⟨clampFloat_nan, clampFloat_below, clampFloat_above hpos, clampFloat_within⟩

/-- The clamp leaves a natural number, so reading it as one loses nothing. -/
theorem clampVoices_cast (n : Int) : (clampVoices n : Int) = max 1 (min n 16) :=
  Int.toNat_of_nonneg (le_max_of_le_left zero_le_one)

/-- `VC` is wide enough for every clamped count. -/
theorem toNat_ofNat_clampVoices (n : Int) : (BitVec.ofNat 5 (clampVoices n)).toNat = clampVoices n := by
  have := clampVoices_range n
  rw [BitVec.toNat_ofNat]
  omega

/-! ## The answer of a getter, and the fault (41_engine_control.md R125 to R129, R133) -/

/-- A command whose effect is `respond` answers its words, with room for them or without. -/
theorem answers_of_effect {i : Instr} {k : Nat} {ws : List Word} {s : State} (hf : s.faulted = false)
    (ha : s.alive = true) (he : commandEffect i s = respond k ws s) : Answers i k ws s := by
  have hrun : exec i s = .next (respond k ws s) := he ▸ exec_runs hf fun _ => ha
  rw [Answers, hrun]
  exact ⟨fun hroom => congrArg _ (emitThen_runs (s := { s with port := s.port.drop k }) hroom),
    fun c hc hfull => congrArg _ (emitThen_waits (s := { s with port := s.port.drop k }) hc hfull)⟩

theorem exec_noInstance {i : Instr} {s : State} (hf : s.faulted = false) (hn : needsInstance i.opcode = true)
    (ha : s.alive = false) : exec i s = .next (noInstanceState s) :=
  exec_raises hf hn ha

end Sys2Proof.Machine

namespace Sys2Proof.Proofs

open Sys2Proof.Machine

/-- Settles O25: the command leaves its effect when `ALIVE` is 1 and raises the fault when it is 0. -/
theorem setSampleRateStoresVerbatim : Obligations.SetSampleRateStoresVerbatim := fun _ _ hf =>
  ⟨fun ha => exec_runs hf fun _ => ha, exec_noInstance hf rfl⟩

/-- Settles O26: the arms of the clamp at 2000. -/
theorem setDelayTimeClamps : Obligations.SetDelayTimeClamps := fun s ms hf =>
  ⟨fun ha => ⟨_, exec_runs hf fun _ => ha, clampFloat_arms units_delayTimeMax s.dt ms⟩, exec_noInstance hf rfl⟩

/-- Settles O27: the arms of the clamp at 1, for either register. -/
theorem setFeedbackAndSetMixClamp : Obligations.SetFeedbackAndSetMixClamp := fun s x hf =>
  ⟨fun ha =>
    ⟨⟨_, exec_runs hf fun _ => ha, clampFloat_arms units_one s.fb x⟩,
      _, exec_runs hf fun _ => ha, clampFloat_arms units_one s.mx x⟩,
    fun ha => ⟨exec_noInstance hf rfl ha, exec_noInstance hf rfl ha⟩⟩

/-- Settles O28: the operand word is read by `toInt`, and `VC` holds the clamped count whole. -/
theorem setVoiceCountClamps : Obligations.SetVoiceCountClamps := by
  refine ⟨fun _ _ => rfl, fun s n hf => ⟨fun ha => ⟨_, exec_runs hf fun _ => ha, ?_⟩, exec_noInstance hf rfl⟩⟩
  have hclamp := clampVoices_cast n
  rw [toNat_ofNat_clampVoices]
  omega

/-- Settles O29: each getter's effect is to answer its register, the two narrow ones zero-extended. -/
theorem gettersReportTheirRegisters : Obligations.GettersReportTheirRegisters := by
  refine fun s hf => ⟨fun ha => ?_, fun ha => ?_⟩
  · have answers {i : Instr} {w : Word} : commandEffect i s = respond 1 [w] s → Claims.Answers i 1 [w] s :=
      answers_of_effect hf ha
    exact ⟨answers rfl, answers rfl, answers rfl, answers rfl,
      ⟨_, BitVec.toNat_setWidth_of_le (by decide), answers rfl⟩,
      _, BitVec.toNat_setWidth_of_le (by decide), answers rfl⟩
  · refine fun i hi => exec_noInstance hf ?_ ha
    revert i
    decide

/-- Settles O30: the effect of RESET is the statement's state, and its memories hold no entry. -/
theorem resetClearsAndKeepsParameters : Obligations.ResetClearsAndKeepsParameters := fun s hf =>
  ⟨fun ha => ⟨commandEffect .reset s, exec_runs hf fun _ => ha, rfl, memRead_nil, memRead_nil,
    exec_runs hf fun _ => ha⟩, exec_noInstance hf rfl⟩

/-- The access table (10_state.md R37) gives the delay line to CREATE, DESTROY, RESET and PROCESS_BLOCK alone. -/
theorem exec_keeps_delayLine {i : Instr} {s t : State} (e : exec i s = .next t) (hdestroy : i ≠ .destroy)
    (hcreate : ∀ x, i ≠ .create x) (hreset : i ≠ .reset) (hblock : ∀ a b c d, i ≠ .processBlock a b c d) :
    t.wc = s.wc ∧ t.wi = s.wi ∧ (∀ a, memRead t.dm a = memRead s.dm a) ∧ ∀ a, memRead t.wm a = memRead s.wm a := by
  obtain ⟨-, -, -, -, -, -, -, hline, -⟩ := commandsWriteOnlyTheirRegisters i s t e hdestroy
  exact hline hcreate hreset hblock

/-- Settles O31: no setter is one of the four commands that write the delay line. -/
theorem settersLeaveTheDelayLine : Obligations.SettersLeaveTheDelayLine := by
  intro s t x n i hi e
  simp only [List.mem_cons, List.not_mem_nil, or_false] at hi
  obtain rfl | rfl | rfl | rfl | rfl := hi
  all_goals exact exec_keeps_delayLine e nofun nofun nofun nofun

end Sys2Proof.Proofs

/-!
PROOFS. The sample step (42_process_block.md R152 to R158): the statements' own words for the tap outputs, the wet sum and
the written word, and what a frame, a delay line and a value that is not finite do to them.
-/

namespace Sys2Proof.Machine

open Sys2Proof.Claims (tapIndex tapWord wetSum writtenWord channelOut)

/-! ## The tap loop in the statements' words (42_process_block.md R154, R155, R157) -/

theorem tapIndex_eq_readIndex (s : State) (t : Nat) :
    tapIndex s t = readIndex s.wc.toNat (tapDelay t s.vc.toNat s.bd.toNat) := rfl

theorem tapDelay_range_of_inRange {s : State} (h : s.InRange) (t : Nat) :
    1 ≤ tapDelay t s.vc.toNat s.bd.toNat ∧ tapDelay t s.vc.toNat s.bd.toNat ≤ 191999 := by
  obtain ⟨hlo, hhi⟩ := h.bd_range
  obtain ⟨hdlo, hdhi⟩ := tapDelay_range (i := t) (n := s.vc.toNat) hlo hhi
  exact ⟨hlo.trans hdlo, hdhi⟩

theorem tapIndex_mod {s : State} (h : s.InRange) (t : Nat) :
    tapIndex s t = (s.wc.toNat + 192000 - tapDelay t s.vc.toNat s.bd.toNat) % 192000 :=
  readIndex_mod h.wc_range (Nat.le_succ_of_le (tapDelay_range_of_inRange h t).2)

theorem tapIndex_lt {s : State} (h : s.InRange) (t : Nat) : tapIndex s t < 192000 := by
  rw [tapIndex_mod h]
  exact Nat.mod_lt _ (by decide)

/-- A read index is in range, so that taking it modulo the capacity does nothing. -/
theorem tapOutput_eq_tapWord {s : State} (h : s.InRange) (t : Nat) : tapOutput s t = tapWord s t := by
  rw [tapOutput, dmRead, ← tapIndex_eq_readIndex, Nat.mod_eq_of_lt (tapIndex_lt h t), tapWord]

/-- The wet sum is one of the three things the tap loop carries, and it does not depend on the others. -/
theorem tapLoop_wet {s : State} (h : s.InRange) : (tapLoop s).wet = wetSum s := by
  refine (List.foldl_hom TapSums.wet fun acc t => ?_).symm
  rw [tapStep, tapOutput_eq_tapWord h]

theorem tapLoop_last {s : State} (h : s.InRange) : (tapLoop s).last = tapWord s (s.vc.toNat - 1) := by
  obtain ⟨n, hn⟩ := Nat.exists_eq_add_of_le' h.vc_range.1
  rw [tapLoop_eq, hn, tapPrefix_last, tapOutput_eq_tapWord h, Nat.add_sub_cancel]

theorem sampleOutputs_eq_channelOut (l r : F32) {s : State} (h : s.InRange) :
    sampleOutputs l r s = [channelOut s l, channelOut s r] := by
  rw [sampleOutputs, tapLoop_wet h]
  rfl

theorem delayLineWord_eq_writtenWord (l r : F32) {s : State} (h : s.InRange) :
    delayLineWord s.draw s.fb (monoInput s.draw l r) (tapLoop s).last = writtenWord s l r := by
  rw [tapLoop_last h]
  rfl

/-! ## What a sample step writes (42_process_block.md R156, R157) -/

theorem memRead_dmWrite {m : Mem} {i a : Nat} {v : Word} (hm : Memory.wf 192000 m = true) (hi : i < 192000) :
    memRead (dmWrite m i v) a = if a = i then v else memRead m a := by
  rw [dmWrite, Config.maxDelaySamples, Nat.mod_eq_of_lt hi, memRead_memWrite hm]

theorem memRead_sampleStep_dm (l r : F32) {s : State} (h : s.InRange) (a : Nat) :
    memRead (sampleStep l r s).dm a = if a = s.wc.toNat then writtenWord s l r else memRead s.dm a := by
  rw [sampleStep_dm, delayLineWord_eq_writtenWord l r h, memRead_dmWrite h.dm_wf h.wc_range]

theorem memRead_sampleStep_wm (l r : F32) {s : State} (h : s.InRange) {k j : Nat} (hk : k < 16) :
    memRead (sampleStep l r s).wm (ringIndex k j) =
      if k < s.vc.toNat ∧ j = s.wi then tapWord s k else memRead s.wm (ringIndex k j) := by
  rw [sampleStep_wm, tapLoop_eq, tapPrefix_wm_read h.vc_range.2 h.wi_range h.wm_wf hk, tapOutput_eq_tapWord h]

theorem sampleStep_frame (l r : F32) (s : State) :
    sampleStep l r s = { s with
      dm := (sampleStep l r s).dm
      wm := (sampleStep l r s).wm
      resp := (sampleStep l r s).resp
      wc := (sampleStep l r s).wc
      wi := (sampleStep l r s).wi
      draw := (sampleStep l r s).draw } := rfl

/-- What a sample step writes depends on its input frame through `mono` alone (42_process_block.md R153). -/
theorem sampleWrites_congr {s : State} {l r l' r' : F32} (h : monoInput s.draw l r = monoInput s.draw l' r') :
    sampleWrites l' r' s = sampleWrites l r s := by
  rw [sampleWrites, sampleWrites, h]

/-- What is emitted at the end of a sample step is seen in the responses alone. -/
theorem advanceCursors_emitAll_congr (ws ws' : List Word) (s : State) :
    advanceCursors (emitAll ws' s) =
      { advanceCursors (emitAll ws s) with resp := (advanceCursors (emitAll ws' s)).resp } := rfl

theorem sampleStep_congr {s : State} {l r l' r' : F32} (h : monoInput s.draw l r = monoInput s.draw l' r') :
    sampleStep l' r' s = { sampleStep l r s with resp := (sampleStep l' r' s).resp } := by
  rw [← sampleStep_eq, ← sampleStep_eq, sampleWrites_congr h]
  exact advanceCursors_emitAll_congr _ _ _

/-! ## Values that are not finite (42_process_block.md R162) -/

theorem isFinite_false_iff (x : F32) : isFinite x = false ↔ isNaN x = true ∨ isInf x = true := by
  simp only [isFinite, isNaN, isInf, decide_eq_true_eq, decide_eq_false_iff_not]
  omega

theorem not_isFinite_of_isNaN {x : F32} (h : isNaN x = true) : isFinite x = false := (isFinite_false_iff x).mpr (.inl h)

theorem not_isFinite_of_isInf {x : F32} (h : isInf x = true) : isFinite x = false := (isFinite_false_iff x).mpr (.inr h)

theorem not_isFinite_addOrdered {a b : F32} (h : isInf a = true ∨ isInf b = true) : isFinite (addOrdered a b) = false := by
  unfold addOrdered
  split
  · next ha => exact not_isFinite_of_isInf ha
  · next ha =>
    have hb := h.resolve_left ha
    rw [if_pos hb]
    exact not_isFinite_of_isInf hb

/-- A sum with an operand that is not finite is not finite. -/
theorem not_isFinite_f32Add {d : Nat} {a b : F32} (h : isFinite a = false ∨ isFinite b = false) :
    isFinite (f32Add d a b) = false := by
  cases hn : isNaN (f32Add d a b) with
  | true => exact not_isFinite_of_isNaN hn
  | false =>
    rw [f32Add_of_not_isNaN hn]
    rw [isNaN_f32Add] at hn
    simp only [Bool.or_eq_false_iff] at hn
    obtain ⟨⟨ha, hb⟩, -⟩ := hn
    rw [isFinite_false_iff, isFinite_false_iff, ha, hb] at h
    exact not_isFinite_addOrdered (by simpa using h)

/-- A product whose first factor is not finite is not finite. -/
theorem not_isFinite_f32Mul {d : Nat} {a b : F32} (h : isFinite a = false) : isFinite (f32Mul d a b) = false := by
  cases hn : isNaN (f32Mul d a b) with
  | true => exact not_isFinite_of_isNaN hn
  | false =>
    rcases (isFinite_false_iff a).mp h with ha | ha
    · rw [isNaN_f32Mul_left ha] at hn
      cases hn
    · exact not_isFinite_of_isInf (isInf_f32Mul hn (.inl ha))

theorem isNaN_f32Mul_of_not_isFinite_of_isZero {d : Nat} {a b : F32} (ha : isFinite a = false) (hb : isZero b = true) :
    isNaN (f32Mul d a b) = true := by
  rcases (isFinite_false_iff a).mp ha with ha | ha
  · exact isNaN_f32Mul_left ha
  · exact isNaN_f32Mul_inf_zero ha hb

/-- An output of a tap that is not finite leaves no finite wet sum. -/
theorem not_isFinite_tapPrefix_wet {s : State} {t n : Nat} (ht : t < n) (hy : isFinite (tapOutput s t) = false) :
    isFinite (tapPrefix s n).wet = false := by
  induction n with
  | zero => exact absurd ht (Nat.not_lt_zero t)
  | succ n ih =>
    rw [tapPrefix_wet_succ]
    rcases Nat.lt_succ_iff_lt_or_eq.mp ht with h | rfl
    · exact not_isFinite_f32Add (.inl (ih h))
    · exact not_isFinite_f32Add (.inr (not_isFinite_f32Mul hy))

theorem not_isFinite_wetSum {s : State} (h : s.InRange) {t : Nat} (ht : t < s.vc.toNat)
    (hy : isFinite (tapWord s t) = false) : isFinite (wetSum s) = false := by
  rw [← tapOutput_eq_tapWord h] at hy
  rw [← tapLoop_wet h, tapLoop_eq]
  exact not_isFinite_tapPrefix_wet ht hy

theorem isNaN_wetSum {s : State} (h : s.InRange) {t : Nat} (ht : t < s.vc.toNat) (hy : isNaN (tapWord s t) = true) :
    isNaN (wetSum s) = true := by
  rw [← tapOutput_eq_tapWord h] at hy
  rw [← tapLoop_wet h, tapLoop_eq]
  exact tapPrefix_wet_nan ht hy

theorem isNaN_channelOut {s : State} (x : F32) (h : isNaN (f32Mul s.draw (wetSum s) s.mx) = true) :
    isNaN (channelOut s x) = true :=
  isNaN_f32Add_right h

theorem isNaN_writtenWord {s : State} (l r : F32) (h : isNaN (f32Mul s.draw (tapWord s (s.vc.toNat - 1)) s.fb) = true) :
    isNaN (writtenWord s l r) = true :=
  isNaN_f32Add_right h

/-- Halving an infinity leaves one: `0.5f` is neither a zero nor a NaN. -/
theorem isInf_f32Mul_half {d : Nat} {x : F32} (h : isInf x = true) : isInf (f32Mul d Config.half x) = true := by
  refine isInf_f32Mul ?_ (.inr h)
  have hhalf : isNaN Config.half = false ∧ isInf Config.half = false ∧ isZero Config.half = false := by decide
  obtain ⟨hnan, hinf, hzero⟩ := hhalf
  rw [isNaN_f32Mul, hnan, hinf, hzero, not_isNaN_of_isInf h]
  rfl

/-! ## Signed zeros in the blender (42_process_block.md R158, R164; log entry 20) -/

theorem pack_zero_eq (neg : Bool) : pack neg 0 = if neg then 0x80000000 else 0x00000000 := by cases neg <;> rfl

theorem eq_pack_zero_of_isZero {x : F32} (h : isZero x = true) : x = pack (f32Neg x) 0 := by
  rw [← (isZero_iff x).mp h, pack_self]

theorem eq_zero_of_isZero {x : F32} (h : isZero x = true) (hne : x ≠ 0x80000000) : x = 0x00000000 := by
  rw [eq_pack_zero_of_isZero h, pack_zero_eq] at hne ⊢
  split_ifs at hne ⊢
  · exact absurd rfl hne
  · rfl

theorem isFinite_of_isZero {x : F32} (h : isZero x = true) : isFinite x = true := by
  rw [isFinite_iff, (isZero_iff x).mp h]
  decide

/-- The sum of two zeros is `-0.0` when both are. -/
theorem f32Add_of_isZero {d : Nat} {a b : F32} (ha : isZero a = true) (hb : isZero b = true) :
    f32Add d a b = pack (f32Neg a && f32Neg b) 0 := by
  obtain ⟨-, -, hua⟩ := not_special_of_isZero ha
  obtain ⟨-, -, hub⟩ := not_special_of_isZero hb
  exact f32Add_of_exact_zero (isFinite_of_isZero ha) (isFinite_of_isZero hb) (by rw [hua, hub, add_zero])

theorem f32Add_comm_of_isFinite {d : Nat} {a b : F32} (ha : isFinite a = true) (hb : isFinite b = true) :
    f32Add d a b = f32Add d b a := by
  rw [f32Add_of_not_isNaN (isNaN_f32Add_of_finite ha hb), f32Add_of_not_isNaN (isNaN_f32Add_of_finite hb ha),
    addOrdered_of_finite ha hb, addOrdered_of_finite hb ha, add_comm (units a), Bool.and_comm]

/-- A value that is not a zero comes out of a sum with a zero, an infinity too. -/
theorem f32Add_isZero_left {d : Nat} {z x : F32} (hz : isZero z = true) (hnan : isNaN x = false) (hx : isZero x = false) :
    f32Add d z x = x := by
  cases hfin : isFinite x with
  | true => rw [f32Add_comm_of_isFinite (isFinite_of_isZero hz) hfin, f32Add_zero hfin hx hz]
  | false =>
    have hinf := ((isFinite_false_iff x).mp hfin).resolve_left (by rw [hnan]; decide)
    exact f32Add_inf_right (isFinite_of_isZero hz) hinf

/-- A value that is no NaN times `1.0f` is itself, an infinity too. -/
theorem f32Mul_one_of_not_isNaN {d : Nat} {x : F32} (hnan : isNaN x = false) : f32Mul d x Config.one = x := by
  cases hfin : isFinite x with
  | true => exact f32Mul_one hfin
  | false =>
    have hinf := ((isFinite_false_iff x).mp hfin).resolve_left (by rw [hnan]; decide)
    have hone : isNaN Config.one = false ∧ isInf Config.one = false ∧ isZero Config.one = false ∧
        f32Neg Config.one = false := by decide
    obtain ⟨hn, hi, hz, hs⟩ := hone
    have hmag : mulMag x Config.one = f32Mag x := by rw [mulMag, hinf, (isInf_iff x).mp hinf]; rfl
    have hvalid : isNaN (f32Mul d x Config.one) = false := by simp [isNaN_f32Mul, hnan, hn, hi, hz]
    rw [f32Mul_of_not_isNaN hvalid, hmag, hs, Bool.bne_false, pack_self]

/-- With the mix at `+0.0` and a finite wet sum, the blender adds to its input a zero of the wet sum's sign. -/
theorem blend_zero {d : Nat} {x wet : F32} (hx : isFinite x = true) (hwet : isFinite wet = true) :
    blend d 0x00000000 x wet = f32Add d x (pack (f32Neg wet) 0) := by
  have hzero : isZero 0x00000000 = true ∧ f32Neg 0x00000000 = false := by decide
  rw [blend, f32Sub_one_zero hzero.1, f32Mul_one hx, f32Mul_zero hwet hzero.1, hzero.2, Bool.bne_false]

/-- With the mix at `1.0f` and a finite input, the blender adds to the wet sum a zero of the input's sign. -/
theorem blend_one {d : Nat} {x wet : F32} (hx : isFinite x = true) (hwet : isNaN wet = false) :
    blend d 0x3F800000 x wet = f32Add d (pack (f32Neg x) 0) wet := by
  have hone : isFinite Config.one = true ∧ f32Neg Config.one = false := by decide
  have hzero : isZero 0x00000000 = true ∧ f32Neg 0x00000000 = false := by decide
  have hdry : f32Sub d Config.one Config.one = 0x00000000 := by
    rw [f32Sub_of_exact_zero hone.1 hone.1 (sub_self _), hone.2]
    rfl
  show f32Add d (f32Mul d x (f32Sub d Config.one Config.one)) (f32Mul d wet Config.one) = _
  rw [hdry, f32Mul_zero hx hzero.1, hzero.2, Bool.bne_false, f32Mul_one_of_not_isNaN hwet]

/-! ## No wet sum is `-0.0` (42_process_block.md R155) -/

/-- A whole number of units is not rounded to zero but when it is zero. -/
theorem roundMag_one_ne_zero {n : Nat} (h : n ≠ 0) : roundMag n 1 ≠ 0 := by
  obtain ⟨p, -, hlt, he⟩ := roundMag_between n Nat.one_pos
  have hp : p ≠ 0 := by
    rintro rfl
    have hone : magUnits (0 + 1) = 1 := by decide
    rw [hone] at hlt
    omega
  rw [he, infMag]
  split_ifs <;> omega

theorem addOrdered_ne_negZero {a : F32} (b : F32) (ha : a ≠ 0x80000000) : addOrdered a b ≠ 0x80000000 := by
  intro h
  have hneg : isInf 0x80000000 = false ∧ f32Mag 0x80000000 = 0 ∧ f32Neg 0x80000000 = true := by decide
  obtain ⟨hinf, hmag, hsign⟩ := hneg
  unfold addOrdered at h
  dsimp only at h
  split_ifs at h with hia hib hk
  · exact ha h
  · rw [h, hinf] at hib
    cases hib
  · -- an exact zero is negative only when both operands are negative zeros
    have hn := congrArg f32Neg h
    rw [f32Neg_pack _ (by decide), hsign, Bool.and_eq_true] at hn
    obtain ⟨hna, hnb⟩ := hn
    have hua := units_nonpos_of_neg hna
    have hub := units_nonpos_of_neg hnb
    have hza := (units_eq_zero_iff a).mp (by omega)
    exact ha (f32_ext (hna.trans hsign.symm) (hza.trans hmag.symm))
  · have hm := congrArg f32Mag h
    rw [f32Mag_pack _ (roundMag_lt _ _), hmag] at hm
    exact roundMag_one_ne_zero (Int.natAbs_ne_zero.mpr hk) hm

theorem f32Add_ne_negZero {d : Nat} {a : F32} (b : F32) (ha : a ≠ 0x80000000) : f32Add d a b ≠ 0x80000000 := by
  cases hn : isNaN (f32Add d a b) with
  | true =>
    intro h
    rw [h] at hn
    exact absurd hn (by decide)
  | false =>
    rw [f32Add_of_not_isNaN hn]
    exact addOrdered_ne_negZero b ha

theorem wetSum_ne_negZero (s : State) : wetSum s ≠ 0x80000000 := by
  unfold wetSum
  refine List.foldlRecOn (motive := fun wet : F32 => wet ≠ 0x80000000) _ _ (by decide) fun wet hwet t _ => ?_
  exact f32Add_ne_negZero _ hwet

end Sys2Proof.Machine

namespace Sys2Proof.Proofs

open Sys2Proof.Machine

/-- Settles O40: the outputs, the two writes and the two cursors, each by its own law. -/
theorem sampleStepFollowsItsRule : Obligations.SampleStepFollowsItsRule := by
  intro s l r h
  refine ⟨?_, memRead_sampleStep_dm l r h, fun k j => memRead_sampleStep_wm l r h, ?_, sampleStep_wi l r s,
    sampleStep_frame l r s⟩
  · rw [sampleStep_resp, sampleOutputs_eq_channelOut l r h]
  · rw [sampleStep_wc, nextWriteCursor_toNat]

/-- Settles O48: the written word reads the delay line at the last tap only. -/
theorem onlyTheLastTapFeedsBack : Obligations.OnlyTheLastTapFeedsBack := by
  intro s dm' l r h hdm htap
  have h' : State.InRange { s with dm := dm' } := { h with dm_wf := hdm }
  have hword : Claims.writtenWord { s with dm := dm' } l r = Claims.writtenWord s l r :=
    congrArg (fun last => f32Add s.draw _ (f32Mul s.draw last s.fb)) htap
  rw [memRead_sampleStep_dm l r h, if_pos rfl, ← hword]
  exact (memRead_sampleStep_dm l r h' s.wc.toNat).trans (if_pos rfl)

/-- Settles O49: what is not finite stays so through the tap loop, and times a zero it is a NaN. -/
theorem nonFiniteSamplesSpread : Obligations.NonFiniteSamplesSpread := by
  intro s l r t h ht
  refine ⟨isInf_f32Mul_half, fun hnan => ?_, fun hfin hmx => ?_, fun hnan => ?_, fun hfin hfb => ?_⟩
  · have hwet := isNaN_f32Mul_left (d := s.draw) (b := s.mx) (isNaN_wetSum h ht hnan)
    exact ⟨isNaN_channelOut l hwet, isNaN_channelOut r hwet⟩
  · have hwet := isNaN_f32Mul_of_not_isFinite_of_isZero (d := s.draw) (not_isFinite_wetSum h ht hfin) hmx
    exact ⟨isNaN_channelOut l hwet, isNaN_channelOut r hwet⟩
  · exact isNaN_writtenWord l r (isNaN_f32Mul_left hnan)
  · exact isNaN_writtenWord l r (isNaN_f32Mul_of_not_isFinite_of_isZero hfin hfb)

/-- Settles O50: at either end of the mix the blender adds one signed zero to what passes through. -/
theorem dryAndWetPassThrough : Obligations.DryAndWetPassThrough := by
  have hzero (neg : Bool) : isZero (pack neg 0) = true := by cases neg <;> decide
  have hsign (neg : Bool) : f32Neg (pack neg 0) = neg := f32Neg_pack neg (by decide)
  have hnegZero : (0x80000000 : F32) = pack true 0 := rfl
  refine ⟨fun d x wet hx => ⟨fun hwet hne => ?_, fun hwet he => ?_, fun hwet hne => ?_, fun he => ?_⟩,
    wetSum_ne_negZero⟩
  · rw [blend_zero hx hwet]
    cases hz : isZero x with
    | false => exact f32Add_zero hx hz (hzero _)
    | true =>
      rw [f32Add_of_isZero hz (hzero _), eq_zero_of_isZero hz hne]
      rfl
  · rw [blend_zero hx hwet, he, hnegZero, f32Add_of_isZero (hzero _) (hzero _), hsign, hsign, Bool.true_and, pack_zero_eq]
    rfl
  · rw [blend_one hx hwet]
    cases hz : isZero wet with
    | false => exact f32Add_isZero_left (hzero _) hwet hz
    | true =>
      rw [f32Add_of_isZero (hzero _) hz, eq_zero_of_isZero hz hne, hsign]
      cases f32Neg x <;> rfl
  · rw [he, blend_one hx (by decide), hnegZero, f32Add_of_isZero (hzero _) (hzero _), hsign, hsign, Bool.and_true,
      pack_zero_eq]
    rfl

/-- Settles O51: the outputs of two equal inputs are one term, and the writes take the frame by `mono`. -/
theorem onlyMonoEntersTheDelayLine : Obligations.OnlyMonoEntersTheDelayLine := by
  intro s l r l' r' h
  refine ⟨?_, sampleStep_congr⟩
  rw [sampleStep_resp, sampleOutputs_eq_channelOut l l h]

end Sys2Proof.Proofs

/-!
PROOFS. Runs of sample steps and PROCESS_BLOCK (42_process_block.md R150, R151, R154, R159 to R161, R163): which words a run
leaves alone, the states a block ends and waits in, and how a command that waits takes words sent to it later.
-/

namespace Sys2Proof.Machine

open Sys2Proof.Claims (tapIndex tapWord writtenWord blockStart)

/-! ## What a run of sample steps leaves alone (42_process_block.md R154, R163) -/

/-- A cursor that starts at `i` and has advanced `n` times in a ring of `w` has not reached an index farther than `n` on. -/
theorem cursor_ne_of_lt_offset {w i j n : Nat} (hi : i < w) (hj : j < w) (h : n < (j + w - i) % w) : j ≠ (i + n) % w := by
  rintro rfl
  rcases Nat.lt_or_ge (i + n) w with hn | hn
  · rw [Nat.mod_eq_of_lt hn, show i + n + w - i = n + w by omega, Nat.add_mod_right] at h
    exact absurd (Nat.mod_le n w) (Nat.not_le_of_lt h)
  · have hoff := Nat.mod_lt (i + n) (Nat.zero_lt_of_lt hi)
    have hn' : n < w := h.trans (Nat.mod_lt _ (Nat.zero_lt_of_lt hi))
    rw [Nat.mod_eq_sub_mod hn, Nat.mod_eq_of_lt (show i + n - w < w by omega),
      show i + n - w + w - i = n by omega, Nat.mod_eq_of_lt hn'] at h
    exact Nat.lt_irrefl n h

/-- A run of sample steps writes the delay line at the indices from the write cursor on, one a sample step. -/
theorem memRead_runFrames_dm (fs : List (F32 × F32)) {s : State} (h : s.InRange) {a : Nat} (ha : a < 192000)
    (hoff : fs.length ≤ (a + 192000 - s.wc.toNat) % 192000) : memRead (runFrames fs s).dm a = memRead s.dm a := by
  induction fs using List.reverseRecOn with
  | nil => rfl
  | append_singleton fs f ih =>
    rw [List.length_append, List.length_singleton, Nat.succ_le_iff] at hoff
    rw [runFrames_concat, memRead_sampleStep_dm _ _ (runFrames_inRange fs h), (runFrames_cursors fs h.wc_range h.wi_range).1,
      if_neg (cursor_ne_of_lt_offset h.wc_range ha hoff), ih hoff.le]

/-- A run of sample steps writes each ring at the slots from `WI` on, one a sample step. -/
theorem memRead_runFrames_wm (fs : List (F32 × F32)) {s : State} (h : s.InRange) {k j : Nat} (hk : k < 16)
    (hj : j < s.ringLen) (hoff : fs.length ≤ (j + s.ringLen - s.wi) % s.ringLen) :
    memRead (runFrames fs s).wm (ringIndex k j) = memRead s.wm (ringIndex k j) := by
  induction fs using List.reverseRecOn with
  | nil => rfl
  | append_singleton fs f ih =>
    rw [List.length_append, List.length_singleton, Nat.succ_le_iff] at hoff
    have hne := cursor_ne_of_lt_offset h.wi_range hj hoff
    rw [runFrames_concat, memRead_sampleStep_wm _ _ (runFrames_inRange fs h) hk,
      (runFrames_cursors fs h.wc_range h.wi_range).2, if_neg fun hw => hne hw.2, ih hoff.le]

/-- The index a tap reads after a run of sample steps. -/
theorem tapIndex_runFrames (fs : List (F32 × F32)) {s : State} (h : s.InRange) (t : Nat) :
    tapIndex (runFrames fs s) t =
      (s.wc.toNat + fs.length + 192000 - tapDelay t s.vc.toNat s.bd.toNat) % 192000 := by
  have hd := (tapDelay_range_of_inRange h t).2
  rw [tapIndex_mod (runFrames_inRange fs h), (runFrames_cursors fs h.wc_range h.wi_range).1, runFrames_vc, runFrames_bd]
  omega

theorem runFrames_resp_length (fs : List (F32 × F32)) (s : State) :
    (runFrames fs s).resp.length = s.resp.length + 2 * fs.length := by
  obtain ⟨ws, hresp, hlen⟩ := runFrames_resp fs s
  rw [hresp, List.length_append, hlen]

/-- The word a sample step writes stands until the write cursor comes round again. -/
theorem memRead_runFrames_cons_dm (f : F32 × F32) (fs : List (F32 × F32)) {s : State} (h : s.InRange)
    (hlen : fs.length < 192000) : memRead (runFrames (f :: fs) s).dm s.wc.toNat = writtenWord s f.1 f.2 := by
  have hwc := h.wc_range
  rw [runFrames_cons, memRead_runFrames_dm fs (sampleStep_inRange f.1 f.2 h) hwc,
    memRead_sampleStep_dm f.1 f.2 h, if_pos rfl]
  rw [sampleStep_wc, nextWriteCursor_toNat]
  omega

/-! ## The states a block ends and waits in (42_process_block.md R150, R160, R161; 60_exceptions.md R224) -/

/-- With `ALIVE` at 1, PROCESS_BLOCK latches `BD` and runs its block. -/
theorem exec_processBlock {s : State} (hf : s.faulted = false) (ha : s.alive = true) (nli nri nlo nro : Nat) :
    exec (.processBlock nli nri nlo nro) s =
      .next (runBlock (min (min nli nri) (min nlo nro)) (min (min nli nri) (min nlo nro)) (startBlock s)) :=
  exec_runs hf fun _ => ha

theorem exec_processBlock_next {s t : State} {nli nri nlo nro : Nat} (ha : s.alive = true)
    (e : exec (.processBlock nli nri nlo nro) s = .next t) :
    s.faulted = false ∧
      t = runBlock (min (min nli nri) (min nlo nro)) (min (min nli nri) (min nlo nro)) (startBlock s) := by
  have hf := (exec_next e).1
  cases (exec_processBlock hf ha nli nri nlo nro).symm.trans e
  exact ⟨hf, rfl⟩

theorem startBlock_with_port (s : State) (ws : List Word) : { startBlock s with port := ws } = blockStart s ws := by
  simp only [startBlock, blockStart]

theorem blockStart_resp (s : State) (ws : List Word) : (blockStart s ws).resp = s.resp := by
  simp only [blockStart]

theorem finishBlock_runFrames_blockStart (total : Nat) (fs : List (F32 × F32)) (s : State) (ws : List Word) :
    finishBlock total (runFrames fs (blockStart s ws)) =
      { runFrames fs (blockStart s ws) with busy := none, cp := s.cp + (5 + 2 * total) } := by
  rw [finishBlock, runFrames_cp]
  rfl

/-- A command that waits for room with the words `ws`, compared with the sample step's end, had all of them gone out. -/
theorem waitingOutput_eq_advanceCursors (k : Nat) (ws : List Word) (after : After) (s : State) :
    waitingOutput k ws after s = { advanceCursors (emitAll ws s) with
      wc := s.wc
      wi := s.wi
      resp := s.resp ++ ws.take k
      busy := some (.output (ws.drop k) after) } := rfl

/-- A block that waits for room in a sample step has all of it done but the words without room and the cursors. -/
theorem waitingStep_eq_sampleStep (total left : Nat) {c : Nat} (f : F32 × F32) {u : State} (hc : u.resp.length ≤ c) :
    waitingStep total left c f u = { sampleStep f.1 f.2 u with
      wc := u.wc
      wi := u.wi
      resp := (sampleStep f.1 f.2 u).resp.take c
      busy := some (.output ((sampleStep f.1 f.2 u).resp.drop c) (.sampleStep total left)) } := by
  rw [waitingStep, waitingOutput_eq_advanceCursors, sampleStep_eq, sampleWrites_wc, sampleWrites_wi, sampleWrites_resp,
    sampleStep_resp, List.take_append, List.take_of_length_le hc, List.drop_append, List.drop_of_length_le hc,
    List.nil_append]

/-- A block leaves the memories of the sample steps that ran, whether it ends or waits: no more than it has frames, and
no more than there are whole frames on the port. -/
theorem runBlock_memories (total left : Nat) (s : State) :
    ∃ fs : List (F32 × F32), fs.length ≤ min left (s.port.length / 2) ∧
      (runBlock total left s).dm = (runFrames fs s).dm ∧ (runBlock total left s).wm = (runFrames fs s).wm := by
  obtain ⟨fs, rest, -, ⟨hp, hl, e⟩ | ⟨hp, hl, -, e⟩ | ⟨f, c, hp, hl, -, -, e⟩⟩ := runBlock_cases total left s
  case inr.inr =>
    refine ⟨fs ++ [f], ?_, ?_⟩
    · rw [hp, List.length_append, List.length_append, portOfFrames_length]
      simp only [List.length_cons, List.length_nil]
      omega
    · rw [e, runFrames_port_irrel, runFrames_concat]
      exact ⟨(sampleStep_dm f.1 f.2 (runFrames fs s)).symm, (sampleStep_wm f.1 f.2 (runFrames fs s)).symm⟩
  all_goals
    refine ⟨fs, ?_, ?_⟩
    · rw [hp, List.length_append, portOfFrames_length]
      omega
    · rw [e, runFrames_port_irrel]
      exact ⟨rfl, rfl⟩

theorem runBlock_cursors_of_done {total left : Nat} {s : State} (hw : s.wc.toNat < 192000) (hi : s.wi < s.ringLen)
    (h : (runBlock total left s).busy = none) :
    (runBlock total left s).wc.toNat = (s.wc.toNat + left) % 192000 ∧
      (runBlock total left s).wi = (s.wi + left) % s.ringLen := by
  obtain ⟨fs, rest, -, ⟨-, rfl, e⟩ | ⟨-, -, -, e⟩ | ⟨f, c, -, -, -, -, e⟩⟩ := runBlock_cases total left s
  · rw [e, finishBlock_wc, finishBlock_wi]
    exact runFrames_cursors fs (s := { s with port := rest }) hw hi
  · rw [e] at h
    cases h
  · rw [e] at h
    cases h

/-! ## A command that waits, and words sent to it (42_process_block.md R160) -/

theorem step_resume {s : State} {b : Busy} (hf : s.faulted = false) (hb : s.busy = some b) :
    step s = .next (resumeBusy b s) := by
  rw [step, fetch_resume hf hb]

/-- A block that waits for a frame and finds none waits on. -/
theorem step_starved {s : State} {total left : Nat} (hf : s.faulted = false)
    (hb : s.busy = some (.input total (left + 1))) (hp : s.port.length < 2) : step s = .next s := by
  rw [step_resume hf hb, resumeBusy, runBlock_no_frame total left hp, ← hb]

/-- The command that waits in `t`, sent `ws`, goes on to `v`. A command that is done waits for nothing. -/
def State.GoesOnWith (ws : List Word) (t v : State) : Prop := t.busy ≠ none → step (t.send ws) = .next v

theorem State.GoesOnWith.of_done {ws : List Word} {t : State} (v : State) (h : t.busy = none) : t.GoesOnWith ws v :=
  fun hb => absurd h hb

/-- With no room at all an `emit` waits with every word it has. -/
theorem emitThen_full {out : List Word} {after : After} {next : State → State} {s : State} {c : Nat}
    (hc : s.respCap = some c) (hfull : c ≤ s.resp.length) (hout : out ≠ []) :
    emitThen out after next s = { s with busy := some (.output out after) } := by
  have hnone : c - s.resp.length = 0 := Nat.sub_eq_zero_of_le hfull
  rw [emitThen_waits hc (hnone ▸ List.length_pos_iff.mpr hout), hnone, waitingOutput, List.take_zero, List.append_nil,
    List.drop_zero]

/-- Words sent make no room for a response: with what had room gone out, an `emit` waits at the same word. -/
theorem waitingOutput_goesOnWith (ws out : List Word) (after : After) {s : State} {c : Nat} (hf : s.faulted = false)
    (hc : s.respCap = some c) (h : c - s.resp.length < out.length) :
    (waitingOutput (c - s.resp.length) out after s).GoesOnWith ws
      (waitingOutput (c - s.resp.length) out after (s.send ws)) := by
  intro _
  have hfull : c ≤ (s.resp ++ out.take (c - s.resp.length)).length := by
    rw [List.length_append, List.length_take]
    omega
  have hleft : out.drop (c - s.resp.length) ≠ [] := by
    rw [ne_eq, List.drop_eq_nil_iff, Nat.not_le]
    exact h
  rw [step_resume (s := (waitingOutput (c - s.resp.length) out after s).send ws) hf rfl]
  exact congrArg _ (emitThen_full (s := (waitingOutput (c - s.resp.length) out after s).send ws) hc hfull hleft)

theorem emitThen_goesOnWith {ws out : List Word} {after : After} {next : State → State} {s : State}
    (hf : s.faulted = false) (hnext : (next (emitAll out s)).GoesOnWith ws (next ((emitAll out s).send ws))) :
    (emitThen out after next s).GoesOnWith ws (emitThen out after next (s.send ws)) := by
  rcases room_or_full s out.length with h | ⟨c, hc, h⟩
  · rw [emitThen_runs h, emitThen_runs (s := s.send ws) h]
    exact hnext
  · rw [emitThen_waits hc h, emitThen_waits (s := s.send ws) hc h]
    exact waitingOutput_goesOnWith ws out after hf hc h

theorem runBlock_goesOnWith (total left : Nat) (ws : List Word) {s : State} (hf : s.faulted = false) :
    (runBlock total left s).GoesOnWith ws (runBlock total left (s.send ws)) := by
  induction left generalizing s with
  | zero => exact .of_done _ rfl
  | succ left ih =>
    rcases exists_frames s.port with ⟨_ | ⟨f, fs⟩, rest, hp, hl⟩
    · intro _
      have hlen : s.port.length < 2 := by rw [hp]; exact hl
      rw [runBlock_no_frame total left hlen, ← runBlock_busy_irrel total (left + 1) (s.send ws)]
      exact step_resume (s := State.send { s with busy := some (.input total (left + 1)) } ws) hf rfl
    · have hp' : (s.send ws).port = f.1 :: f.2 :: (portOfFrames fs ++ rest ++ ws) := by rw [send_port, hp]; rfl
      rw [runBlock_step total left hp, runBlock_step total left hp']
      exact emitThen_goesOnWith (s := sampleWrites f.1 f.2 { s with port := portOfFrames fs ++ rest }) hf (ih hf)

theorem goOn_goesOnWith (after : After) (ws : List Word) {s : State} (hf : s.faulted = false) :
    (goOn after s).GoesOnWith ws (goOn after (s.send ws)) := by
  cases after with
  | command length => exact .of_done _ rfl
  | sampleStep total left => exact runBlock_goesOnWith total left ws (s := advanceCursors s) hf

theorem resumeBusy_goesOnWith (b : Busy) (ws : List Word) {s : State} (hf : s.faulted = false) :
    (resumeBusy b s).GoesOnWith ws (resumeBusy b (s.send ws)) := by
  cases b with
  | input total left => exact runBlock_goesOnWith total left ws hf
  | output out after => exact emitThen_goesOnWith hf (goOn_goesOnWith after ws (s := emitAll out s) hf)

/-- Words a command takes that are there are the same ones when more follow. -/
theorem send_with_drop {s : State} {k : Nat} (ws : List Word) (hk : k ≤ s.port.length) :
    { s.send ws with port := (s.send ws).port.drop k } = State.send { s with port := s.port.drop k } ws := by
  rw [send_port, List.drop_append_of_le_length hk]
  rfl

theorem respond_goesOnWith {k : Nat} (out ws : List Word) {s : State} (hf : s.faulted = false) (hb : s.busy = none)
    (hk : k ≤ s.port.length) : (respond k out s).GoesOnWith ws (respond k out (s.send ws)) := by
  rw [respond, respond, send_with_drop ws hk]
  exact emitThen_goesOnWith (s := { s with port := s.port.drop k }) hf (.of_done _ hb)

theorem commandEffect_goesOnWith {i : Instr} (ws : List Word) {s : State} (hf : s.faulted = false) (hb : s.busy = none)
    (hk : i.length ≤ s.port.length) : (commandEffect i s).GoesOnWith ws (commandEffect i (s.send ws)) := by
  cases i with
  | create | destroy | reset | setSampleRate | setDelayTime | setFeedback | setMix | setVoiceCount => exact .of_done _ hb
  | getSampleRate | getDelayTime | getFeedback | getMix | getVoiceCount | getWriteCursor | getWaveformSize
  | getWaveformIndex | getVoiceWaveform | readVoiceRing => exact respond_goesOnWith _ ws hf hb hk
  | processBlock nli nri nlo nro =>
    have hstart : startBlock (s.send ws) = (startBlock s).send ws :=
      congrArg (fun t : State => { t with bd := BitVec.ofNat 14 (baseDelay s.draw s.dt s.sr) }) (send_with_drop ws hk)
    rw [commandEffect, commandEffect, hstart]
    exact runBlock_goesOnWith _ _ ws (s := startBlock s) hf

theorem length_le_of_decode {ws rest : List Word} {i : Instr} (h : decode ws = .ok (i, rest)) : i.length ≤ ws.length := by
  obtain ⟨hi, rfl⟩ := (decode_eq_ok_iff ws rest i).mp h
  rw [List.length_append, (framing i hi).1]
  exact Nat.le_add_right ..

theorem decode_append {ws rest : List Word} {i : Instr} (more : List Word) (h : decode ws = .ok (i, rest)) :
    decode (ws ++ more) = .ok (i, rest ++ more) := by
  obtain ⟨hi, rfl⟩ := (decode_eq_ok_iff ws rest i).mp h
  exact (decode_eq_ok_iff _ _ i).mpr ⟨hi, List.append_assoc ..⟩

end Sys2Proof.Machine

namespace Sys2Proof.Proofs

open Sys2Proof.Machine

/-- Settles O41: the block completes, or stops at the first frame whose outputs have no room. -/
theorem processBlockRunsItsFrames : Obligations.ProcessBlockRunsItsFrames := by
  intro s nli nri nlo nro hf
  refine ⟨fun ha fs rest _ hp hroom => ?_, exec_noInstance hf rfl⟩
  rw [exec_processBlock hf ha]
  generalize min (min nli nri) (min nlo nro) = n
  refine ⟨fun hn => ⟨?_, ?_⟩, fun l r rest' c hn hrest hc hle hfull => ?_⟩
  · rw [← hn, runBlock_complete fs.length fs rest (startBlock s) hp hroom, startBlock_with_port,
      finishBlock_runFrames_blockStart]
  · exact runFrames_resp_length fs (Claims.blockStart s rest)
  · have hfits := hroom c hc
    have hresp : (runFrames fs (Claims.blockStart s rest')).resp.length ≤ c := by
      rw [runFrames_resp_length, blockStart_resp]
      omega
    obtain ⟨left, rfl⟩ := Nat.exists_eq_add_of_lt hn
    rw [Nat.add_right_comm, Nat.add_sub_cancel_left, Nat.add_right_comm, Nat.add_assoc,
      runBlock_full _ left fs (l, r) rest' (startBlock s) c (hrest ▸ hp) hroom hc (by rw [startBlock_resp]; omega),
      startBlock_with_port, waitingStep_eq_sampleStep _ _ _ hresp]

/-- Settles O42: a block of no frames is its latch and its five words. -/
theorem emptyBlockOnlyLatches : Obligations.EmptyBlockOnlyLatches := by
  intro s nli nri nlo nro hf ha hb hzero
  have hn : min (min nli nri) (min nlo nro) = 0 := by omega
  rw [exec_processBlock hf ha, hn, runBlock, finishBlock, startBlock, hb]

/-- Settles O43: as many sample steps have run as the block has frames. -/
theorem cursorsAdvanceByTheFrames : Obligations.CursorsAdvanceByTheFrames := by
  intro s t nli nri nlo nro h ha e hdone
  obtain ⟨-, rfl⟩ := exec_processBlock_next ha e
  exact runBlock_cursors_of_done (s := startBlock s) h.wc_range h.wi_range hdone

/-- Settles O44: a block writes no register but the cursors, and the memories as its sample steps do. -/
theorem processBlockFrame : Obligations.ProcessBlockFrame := by
  intro s t nli nri nlo nro h ha e
  obtain ⟨-, rfl⟩ := exec_processBlock_next ha e
  generalize min (min nli nri) (min nlo nro) = n
  have hframe := runBlock_frame n n (startBlock s)
  have hstart := startBlock_inRange h
  obtain ⟨fs, hlen, hdm, hwm⟩ := runBlock_memories n n (startBlock s)
  rw [startBlock_port, List.length_drop] at hlen
  refine ⟨hframe.sr, hframe.dt, hframe.fb, hframe.mx, hframe.vc, hframe.alive, hframe.faulted, hframe.faultInfo,
    hframe.ringLen, ?_, fun a ha hoff => ?_, fun k j hk hj hoff => ?_⟩
  · rw [hframe.bd, startBlock_bd_toNat]
  · rw [hdm]
    exact memRead_runFrames_dm fs hstart ha (hlen.trans hoff)
  · rw [hwm]
    exact memRead_runFrames_wm fs hstart hk hj (hlen.trans hoff)

/-- Settles O45: the block has run the frames that are there, and a step that finds no frame leaves it as it is. -/
theorem starvedBlockWaits : Obligations.StarvedBlockWaits := by
  intro s nli nri nlo nro fs rest hf ha _ hp hrest hn hroom
  rw [exec_processBlock hf ha]
  generalize min (min nli nri) (min nlo nro) = n at *
  obtain ⟨left, rfl⟩ := Nat.exists_eq_add_of_lt hn
  rw [Nat.add_assoc, Nat.add_sub_cancel_left]
  refine ⟨_, congrArg _ (runBlock_starved _ left fs rest (startBlock s) hp hrest hroom), rfl, ?_⟩
  refine step_starved (left := left) ?_ rfl ?_
  · exact (runFrames_faulted ..).trans hf
  · show (runFrames fs _).port.length < 2
    rw [runFrames_port]
    exact hrest

/-- Settles O46: a command in progress goes on with the words sent, and one that begins decodes to the same. -/
theorem waitingBlockResumesUnchanged : Obligations.WaitingBlockResumesUnchanged := by
  intro s u ws e hbusy
  obtain ⟨hf, ⟨b, hb, rfl⟩ | ⟨hb, rfl⟩ | ⟨hb, rfl⟩ | ⟨hb, -, rfl⟩ | ⟨hb, i, rest, hd, he⟩⟩ := step_cases e
  · rw [step_resume (s := s.send ws) hf hb]
    exact resumeBusy_goesOnWith b ws hf hbusy
  · exact absurd hb hbusy
  · exact absurd hb hbusy
  · exact absurd hb hbusy
  · rw [step_run (s := s.send ws) hf hb (decode_append ws hd)]
    obtain ⟨-, ⟨ha, rfl⟩ | ⟨-, -, rfl⟩⟩ := exec_next he
    · rw [exec_runs (s := s.send ws) hf ha]
      exact commandEffect_goesOnWith ws hf hb (length_le_of_decode hd) hbusy
    · exact absurd hb hbusy

/-- Settles O47: the index a tap reads is the write cursor of the sample step `d` back, and no later one writes it. -/
theorem tapsReadTheWordWrittenEarlier : Obligations.TapsReadTheWordWrittenEarlier := by
  intro s fs t h _
  have hwc := h.wc_range
  obtain ⟨hd1, hd2⟩ := tapDelay_range_of_inRange h t
  have hindex := tapIndex_runFrames fs h t
  generalize tapDelay t s.vc.toNat s.bd.toNat = d at *
  refine ⟨fun hlt => ?_, fun f hle hf => ?_⟩
  · rw [Claims.tapWord, hindex]
    exact memRead_runFrames_dm fs h (Nat.mod_lt _ (by decide)) (by omega)
  · generalize hk : fs.length - d = k at *
    obtain ⟨hlt, hget⟩ := List.getElem?_eq_some_iff.mp hf
    have hsplit : runFrames fs s = runFrames (f :: fs.drop (k + 1)) (runFrames (fs.take k) s) := by
      rw [← runFrames_append, ← hget, List.getElem_cons_drop, List.take_append_drop]
    have hcursor : (runFrames (fs.take k) s).wc.toNat = (s.wc.toNat + fs.length + 192000 - d) % 192000 := by
      rw [(runFrames_cursors _ h.wc_range h.wi_range).1, List.length_take]
      omega
    rw [Claims.tapWord, hindex, ← hcursor, hsplit]
    refine memRead_runFrames_cons_dm f _ (runFrames_inRange _ h) ?_
    rw [List.length_drop]
    omega

end Sys2Proof.Proofs

/-!
PROOFS. Waveform capture (43_waveform_capture.md R180 to R186): the words a capture read answers, and which word stands in
each slot of a ring after a run of sample steps.
-/

namespace Sys2Proof.Machine

open Sys2Proof.Claims (Answers tapWord pending)

/-! ## `W` is fixed (43_waveform_capture.md R180; log entry 1) -/

@[simp] theorem goOn_ringLen (after : After) (s : State) : (goOn after s).ringLen = s.ringLen := by
  cases after with
  | command length => rfl
  | sampleStep total left => exact runBlock_ringLen total left (advanceCursors s)

@[simp] theorem resumeBusy_ringLen (b : Busy) (s : State) : (resumeBusy b s).ringLen = s.ringLen := by
  cases b with
  | input total left => exact runBlock_ringLen total left s
  | output ws after =>
    rw [resumeBusy]
    obtain ⟨-, e⟩ | ⟨c, -, -, e⟩ := emitThen_cases ws after (goOn after) s
    · rw [e, goOn_ringLen, emitAll_ringLen]
    · rw [e, waitingOutput_ringLen]

theorem exec_ringLen {i : Instr} {s t : State} (e : exec i s = .next t) : t.ringLen = s.ringLen := by
  by_cases hi : i = .destroy
  · subst hi
    obtain ⟨-, ⟨-, rfl⟩ | ⟨-, -, rfl⟩⟩ := exec_next e <;> rfl
  · obtain ⟨-, -, -, -, -, -, -, -, hlen, -⟩ := Proofs.commandsWriteOnlyTheirRegisters i s t e hi
    exact hlen

theorem step_ringLen {s t : State} (e : step s = .next t) : t.ringLen = s.ringLen := by
  obtain ⟨-, ⟨b, -, rfl⟩ | ⟨-, rfl⟩ | ⟨-, rfl⟩ | ⟨-, -, rfl⟩ | ⟨-, i, rest, -, he⟩⟩ := step_cases e
  · exact resumeBusy_ringLen b s
  · rfl
  · exact skipIllegal_ringLen s
  · exact raiseFault_ringLen _ s
  · exact exec_ringLen he

/-! ## The words of a capture read (43_waveform_capture.md R182 to R184) -/

/-- GET_WAVEFORM_SIZE answers whatever `ALIVE` is, so this does not ask for `ALIVE` at 1, as `answers_of_effect` does. -/
theorem answers_of_exec_respond {i : Instr} {k : Nat} {ws : List Word} {s : State}
    (e : exec i s = .next (respond k ws s)) : Answers i k ws s := by
  rw [Answers, e]
  exact ⟨fun hroom => congrArg _ (emitThen_runs (s := { s with port := s.port.drop k }) hroom),
    fun c hc hfull => congrArg _ (emitThen_waits (s := { s with port := s.port.drop k }) hc hfull)⟩

theorem ringView_eq (s : State) (k : Nat) (slot : Nat → Nat) :
    ringView s k slot = if k < s.vc.toNat then (List.range s.ringLen).map fun i => memRead s.wm (ringIndex k (slot i))
      else List.replicate s.ringLen 0 := by
  split
  · next hk => simp only [ringView, Nat.not_le_of_lt hk, if_false, wmRead]
  · next hk => simp [ringView, Nat.le_of_not_lt hk]

@[simp] theorem ringView_length (s : State) (k : Nat) (slot : Nat → Nat) : (ringView s k slot).length = s.ringLen := by
  simp [ringView]

/-- Reading from `WI` on, one wrap at the end, is rotating the ring in slot order. -/
theorem ringView_rotated (s : State) (k : Nat) :
    (ringView s k fun i => (s.wi + i) % s.ringLen) = (ringView s k fun j => j).rotate s.wi := by
  refine List.ext_getElem (by simp) fun i _ _ => ?_
  rw [List.getElem_rotate]
  simp [ringView, Nat.add_comm]

/-- All the words of an answer are on the response port or wait for room, in order. -/
theorem respond_words (k : Nat) (ws : List Word) {s : State} (hb : s.busy = none) :
    (respond k ws s).resp.drop s.resp.length ++ pending (respond k ws s) = ws := by
  obtain ⟨-, e⟩ | ⟨c, -, -, e⟩ := respond_cases k ws s
  · rw [e, List.drop_left, pending, hb, List.append_nil]
  · rw [e, waitingOutput_resp, List.drop_left, pending, waitingOutput_busy, List.take_append_drop]

/-- With `ALIVE` at 1 no command raises the fault: the next state is the command's effect. -/
theorem exec_next_of_alive {i : Instr} {s t : State} (ha : s.alive = true) (e : exec i s = .next t) :
    t = commandEffect i s := by
  obtain ⟨-, ⟨-, ht⟩ | ⟨-, hdead, -⟩⟩ := exec_next e
  · exact ht
  · rw [ha] at hdead
    cases hdead

/-! ## The slots of a ring after a run of sample steps (43_waveform_capture.md R185, R186) -/

theorem memRead_runFrames_wm_inactive (fs : List (F32 × F32)) {s : State} (h : s.InRange) {k : Nat} (j : Nat)
    (hvc : s.vc.toNat ≤ k) (hk : k < 16) :
    memRead (runFrames fs s).wm (ringIndex k j) = memRead s.wm (ringIndex k j) := by
  induction fs using List.reverseRecOn with
  | nil => rfl
  | append_singleton fs f ih =>
    rw [runFrames_concat, memRead_sampleStep_wm _ _ (runFrames_inRange fs h) hk, runFrames_vc,
      if_neg fun hw => Nat.not_lt_of_le hvc hw.1, ih]

/-- From the slot after `i`, slot `i` of a ring of `w` is the last one to be reached. -/
theorem offset_from_next {w i : Nat} (hi : i < w) : (i + w - (i + 1) % w) % w = w - 1 := by
  obtain hlt | rfl : i + 1 < w ∨ w = i + 1 := by omega
  · rw [Nat.mod_eq_of_lt hlt, show i + w - (i + 1) = w - 1 by omega, Nat.mod_eq_of_lt (by omega)]
  · rw [Nat.mod_self, Nat.sub_zero, Nat.add_mod_right, Nat.mod_eq_of_lt hi, Nat.add_sub_cancel]

/-- The word a sample step records in a ring stands until `WI` comes round again. -/
theorem memRead_runFrames_cons_wm (f : F32 × F32) (fs : List (F32 × F32)) {s : State} (h : s.InRange) {k : Nat}
    (hk : k < s.vc.toNat) (hlen : fs.length < s.ringLen) :
    memRead (runFrames (f :: fs) s).wm (ringIndex k s.wi) = tapWord s k := by
  have hk16 := hk.trans_le h.vc_range.2
  rw [runFrames_cons, memRead_runFrames_wm fs (sampleStep_inRange f.1 f.2 h) hk16, memRead_sampleStep_wm f.1 f.2 h hk16,
    if_pos ⟨hk, rfl⟩]
  · rw [sampleStep_ringLen]
    exact h.wi_range
  · rw [sampleStep_wi, sampleStep_ringLen, offset_from_next h.wi_range]
    exact Nat.le_sub_one_of_lt hlen

/-- The slot a tap's output went to is `WI` of its sample step; it still holds the output if fewer than `W` have followed. -/
theorem memRead_runFrames_wm_recorded (fs : List (F32 × F32)) {s : State} (h : s.InRange) {k n : Nat}
    (hk : k < s.vc.toNat) (hn : n < fs.length) (hlast : fs.length - n ≤ s.ringLen) :
    memRead (runFrames fs s).wm (ringIndex k ((s.wi + n) % s.ringLen)) = tapWord (runFrames (fs.take n) s) k := by
  have hsplit : runFrames fs s = runFrames (fs[n] :: fs.drop (n + 1)) (runFrames (fs.take n) s) := by
    rw [← runFrames_append, List.getElem_cons_drop, List.take_append_drop]
  have hwi : (runFrames (fs.take n) s).wi = (s.wi + n) % s.ringLen := by
    rw [(runFrames_cursors _ h.wc_range h.wi_range).2, List.length_take_of_le hn.le]
  rw [hsplit, ← hwi]
  refine memRead_runFrames_cons_wm _ _ (runFrames_inRange _ h) ?_ ?_
  · rwa [runFrames_vc]
  · rw [runFrames_ringLen, List.length_drop]
    omega

end Sys2Proof.Machine

namespace Sys2Proof.Proofs

open Sys2Proof.Machine

/-- Settles O53: no step writes `W`, and both commands answer their number in one word. -/
theorem waveformSizeAndIndexAreReported : Obligations.WaveformSizeAndIndexAreReported :=
  ⟨fun _ _ => step_ringLen, fun _ hf =>
    ⟨⟨_, answers_of_exec_respond (exec_runs hf nofun), Nat.mod_eq_of_lt⟩,
      fun ha => ⟨_, answers_of_effect hf ha rfl, Nat.mod_eq_of_lt⟩,
      exec_noInstance hf rfl⟩⟩

/-- Settles O54: either command's effect is to answer its view of the ring. -/
theorem captureReadsAnswerTheRing : Obligations.CaptureReadsAnswerTheRing := fun s k hf =>
  ⟨fun ha => ⟨answers_of_effect hf ha (congrArg (respond 2 · s) (ringView_eq s k _)),
    answers_of_effect hf ha (congrArg (respond 2 · s) (ringView_eq s k _))⟩,
    fun ha => ⟨exec_noInstance hf rfl ha, exec_noInstance hf rfl ha⟩⟩

/-- Settles O55: the answers are the two views, and the rotated one is the raw one rotated by `WI`. -/
theorem rotatedViewIsTheRawViewCutAtTheIndex : Obligations.RotatedViewIsTheRawViewCutAtTheIndex := by
  intro s t u k h ha hb et eu
  obtain rfl := exec_next_of_alive ha et
  obtain rfl := exec_next_of_alive ha eu
  have hwi : s.wi ≤ (ringView s k fun j => j).length := by
    rw [ringView_length]
    exact h.wi_range.le
  rw [commandEffect, commandEffect, respond_words _ _ hb, respond_words _ _ hb, ringView_rotated]
  exact List.rotate_eq_drop_append_take hwi

/-- Settles O56: a block writes the rings of the active voices alone, and the other commands write none. -/
theorem inactiveRingsKeepTheirContents : Obligations.InactiveRingsKeepTheirContents := by
  intro s t i h e hcreate hdestroy hreset k j hvc hk
  by_cases hblock : ∃ a b c d, i = .processBlock a b c d
  · obtain ⟨a, b, c, d, rfl⟩ := hblock
    obtain ⟨-, ⟨-, rfl⟩ | ⟨-, -, rfl⟩⟩ := exec_next e
    · obtain ⟨fs, -, -, hwm⟩ := runBlock_memories (blockFrames a b c d) (blockFrames a b c d) (startBlock s)
      rw [commandEffect, hwm]
      exact memRead_runFrames_wm_inactive fs (startBlock_inRange h) j hvc hk
    · rfl
  · obtain ⟨-, -, -, hwm⟩ := exec_keeps_delayLine e hdestroy hcreate hreset fun a b c d hi => hblock ⟨a, b, c, d, hi⟩
    exact hwm _

/-- Settles O57: the rotated view of the ring begins at the slot written `W` sample steps ago. -/
theorem rotatedViewShowsTheLastOutputs : Obligations.RotatedViewShowsTheLastOutputs := by
  intro s fs k h hf ha hk hlen
  obtain ⟨hanswers, -⟩ := captureReadsAnswerTheRing (runFrames fs s) k ((runFrames_faulted ..).trans hf)
  have hview := (hanswers ((runFrames_alive ..).trans ha)).1
  rw [runFrames_vc, if_pos hk, runFrames_ringLen, (runFrames_cursors fs h.wc_range h.wi_range).2] at hview
  convert hview using 1
  refine List.map_congr_left fun i hi => ?_
  rw [List.mem_range] at hi
  have hslot : ((s.wi + fs.length) % s.ringLen + i) % s.ringLen =
      (s.wi + (fs.length - s.ringLen + i)) % s.ringLen := by
    rw [Nat.mod_add_mod, ← Nat.add_mod_right (s.wi + (fs.length - s.ringLen + i))]
    congr 1
    omega
  rw [hslot]
  exact (memRead_runFrames_wm_recorded fs h hk (by omega) (by omega)).symm

end Sys2Proof.Proofs

/-!
PROOFS. The lifecycle and the host (44_lifecycle_and_host.md R200 to R209; 60_exceptions.md R224): CREATE and DESTROY, the
null handles and buffers of the adaptor, the state a stalled block is on its way to, and the words the host takes from a
block, all frames sent first or one by one.
-/

namespace Sys2Proof.Machine

open Sys2Proof.Claims (unstalled)

/-! ## CREATE and the adaptor (R200, R203, R204) -/

theorem exec_create_next {sr : F32} {s t : State} (e : exec (.create sr) s = .next t) :
    s.faulted = false ∧ t = complete 2 (freshInstance sr s) := by
  obtain ⟨hf, ⟨-, ht⟩ | ⟨hn, -⟩⟩ := exec_next e
  · exact ⟨hf, ht⟩
  · cases hn

/-- `process` with a null handle or a null buffer sends no command and returns nothing. -/
theorem process_of_null {h lo ro : Bool} {li ri : Option (List F32)} (alive : Bool) (count : Nat)
    (hnull : h = false ∨ li = none ∨ ri = none ∨ lo = false ∨ ro = false) :
    adaptorWords alive (.process h li ri lo ro count) = [] ∧
      adaptorReturn (.process h li ri lo ro count) [] = .nothing := by
  rcases li with _ | li
  case none => cases h <;> exact ⟨rfl, rfl⟩
  rcases ri with _ | ri
  case none => cases h <;> exact ⟨rfl, rfl⟩
  rcases lo with _ | _
  case false => cases h <;> exact ⟨rfl, rfl⟩
  rcases ro with _ | _
  case false => cases h <;> exact ⟨rfl, rfl⟩
  obtain rfl : h = false := by simpa using hnull
  exact ⟨rfl, rfl⟩

/-! ## The block without a stall (R209 (c), 60_exceptions.md R224) -/

/-- The state with a host that takes every response word as it comes. -/
def State.uncapped (s : State) : State := { s with respCap := none }

/-- `s` waits for no room on the response port. -/
def State.NotStalled (s : State) : Prop := ∀ ws after, s.busy ≠ some (.output ws after)

theorem hasRoom_uncapped (s : State) (k : Nat) : s.uncapped.hasRoom k := hasRoom_of_none rfl k

theorem notStalled_or_stalled (s : State) : s.NotStalled ∨ ∃ ws after, s.busy = some (.output ws after) := by
  rw [or_iff_not_imp_right]
  exact fun h ws after hb => h ⟨ws, after, hb⟩

theorem unstalled_of_notStalled {s : State} (h : s.NotStalled) : unstalled s = s.uncapped := by
  unfold unstalled
  split
  · next hb => exact absurd hb (h _ _)
  all_goals rfl

theorem resumeBusy_output_runs {ws : List Word} {after : After} {s : State} (h : s.hasRoom ws.length) :
    resumeBusy (.output ws after) s = goOn after (emitAll ws s) :=
  emitThen_runs h

theorem unstalled_of_stalled {s : State} {ws : List Word} {after : After} (hb : s.busy = some (.output ws after)) :
    unstalled s = goOn after (emitAll ws s.uncapped) := by
  rw [← resumeBusy_output_runs (hasRoom_uncapped s _)]
  unfold unstalled
  split
  · next hb' => cases hb.symm.trans hb'; rfl
  · next hb' => cases hb.symm.trans hb'
  · next hb' => cases hb.symm.trans hb'

/-- What follows the words that waited sets what waits by itself. -/
theorem goOn_busy_irrel (after : After) (s : State) (b : Option Busy) : goOn after { s with busy := b } = goOn after s := by
  cases after with
  | command length => rfl
  | sampleStep total left => exact runBlock_busy_irrel total left (advanceCursors s) b

/-- An `emit` that waits is on its way to the state of one that does not, if what follows it is. -/
theorem unstalled_emitThen {ws : List Word} {after : After} {s : State}
    (hnext : unstalled (goOn after (emitAll ws s)) = goOn after (emitAll ws s).uncapped) :
    unstalled (emitThen ws after (goOn after) s) = emitThen ws after (goOn after) s.uncapped := by
  rw [emitThen_runs (hasRoom_uncapped s _)]
  obtain ⟨-, e⟩ | ⟨c, -, -, e⟩ := emitThen_cases ws after (goOn after) s
  · rw [e]
    exact hnext
  · rw [e, unstalled_of_stalled rfl]
    refine Eq.trans ?_ (goOn_busy_irrel after (emitAll ws s.uncapped) (waitingOutput (c - s.resp.length) ws after s).busy)
    simp only [emitAll, waitingOutput, State.uncapped, List.append_assoc, List.take_append_drop]

theorem unstalled_runBlock (total left : Nat) (s : State) :
    unstalled (runBlock total left s) = runBlock total left s.uncapped := by
  induction left generalizing s with
  | zero => rfl
  | succ left ih =>
    obtain ⟨_ | ⟨f, fs⟩, rest, hp, hl⟩ := exists_frames s.port
    · have hlen : s.port.length < 2 := by rw [hp]; exact hl
      rw [runBlock_no_frame total left hlen, runBlock_no_frame total left (s := s.uncapped) hlen]
      rfl
    · rw [runBlock_step total left hp, runBlock_step total left (s := s.uncapped) hp]
      exact unstalled_emitThen (after := .sampleStep total left) (ih _)

theorem unstalled_goOn (after : After) (s : State) : unstalled (goOn after s) = goOn after s.uncapped := by
  cases after with
  | command length => rfl
  | sampleStep total left => exact unstalled_runBlock total left (advanceCursors s)

theorem unstalled_resumeBusy (b : Busy) (s : State) : unstalled (resumeBusy b s) = resumeBusy b s.uncapped := by
  cases b with
  | input total left => exact unstalled_runBlock total left s
  | output ws after => exact unstalled_emitThen (unstalled_goOn after (emitAll ws s))

/-- A step of a command that waits for room changes nothing but how far it has got. -/
theorem unstalled_resumeBusy_of_stalled {s : State} {ws : List Word} {after : After}
    (hb : s.busy = some (.output ws after)) : unstalled (resumeBusy (.output ws after) s) = unstalled s := by
  rw [unstalled_resumeBusy, unstalled_of_stalled hb, resumeBusy_output_runs (hasRoom_uncapped s _)]

theorem unstalled_of_idle {s : State} (h : s.busy = none) : unstalled s = s.uncapped :=
  unstalled_of_notStalled fun _ _ hb => nomatch h.symm.trans hb

/-- A command that answers, started in an idle block, leaves nothing waiting when its words have gone out. -/
theorem respond_eq_goOn (k : Nat) (ws : List Word) {s : State} (hb : s.busy = none) :
    respond k ws s = emitThen ws (.command k) (goOn (.command k)) { s with port := s.port.drop k } := by
  obtain ⟨hr, e⟩ | ⟨c, hc, h, e⟩ := respond_cases k ws s
  · rw [e, emitThen_runs (s := { s with port := s.port.drop k }) hr, goOn, emitAll, hb]
  · exact e.trans (emitThen_waits (s := { s with port := s.port.drop k }) hc h).symm

theorem unstalled_respond (k : Nat) (ws : List Word) {s : State} (hb : s.busy = none) :
    unstalled (respond k ws s) = respond k ws s.uncapped := by
  rw [respond_eq_goOn k ws hb, respond_eq_goOn k ws (s := s.uncapped) hb]
  exact unstalled_emitThen (unstalled_goOn _ _)

theorem unstalled_commandEffect (i : Instr) {s : State} (hb : s.busy = none) :
    unstalled (commandEffect i s) = commandEffect i s.uncapped := by
  cases i with
  | create | destroy | reset | setSampleRate | setDelayTime | setFeedback | setMix | setVoiceCount =>
    exact unstalled_of_idle hb
  | getSampleRate | getDelayTime | getFeedback | getMix | getVoiceCount | getWriteCursor | getWaveformSize
  | getWaveformIndex | getVoiceWaveform | readVoiceRing => exact unstalled_respond _ _ hb
  | processBlock => exact unstalled_runBlock _ _ (startBlock s)

theorem exec_uncapped {i : Instr} {s t : State} (hb : s.busy = none) (e : exec i s = .next t) :
    exec i s.uncapped = .next (unstalled t) := by
  obtain ⟨hf, ⟨ha, rfl⟩ | ⟨hn, ha, rfl⟩⟩ := exec_next e
  · rw [exec_runs (s := s.uncapped) hf ha, unstalled_commandEffect i hb]
  · rw [exec_raises (s := s.uncapped) hf hn ha]
    exact congrArg _ (unstalled_of_idle (s := raiseFault _ s) hb).symm

theorem busy_of_fetch_ne_resume {s : State} (hf : s.faulted = false) (h : ∀ b, fetch s ≠ .resume b) : s.busy = none := by
  cases hb : s.busy with
  | none => rfl
  | some b => exact absurd (fetch_resume hf hb) (h b)

/-- Without a capacity a step leads where the step with one is on its way to. -/
theorem step_uncapped {s t : State} (e : step s = .next t) : step s.uncapped = .next (unstalled t) := by
  have hfetch : fetch s.uncapped = fetch s := rfl
  have hf := (step_cases e).1
  unfold step at e ⊢
  rw [hfetch]
  generalize hnext : fetch s = f at e ⊢
  cases f with
  | stuck => cases e
  | resume b =>
    cases e
    exact congrArg _ (unstalled_resumeBusy b s).symm
  | wait | illegal | noInstance =>
    have hb := busy_of_fetch_ne_resume hf (by rw [hnext]; nofun)
    have hb' : t.busy = none := by cases e; exact hb
    rw [unstalled_of_idle hb']
    cases e
    rfl
  | run i => exact exec_uncapped (busy_of_fetch_ne_resume hf (by rw [hnext]; nofun)) e

/-! Words taken before the block goes on are the ones that would be taken after it. -/

theorem emitAll_drain (ws : List Word) {s : State} {k : Nat} (hk : k ≤ s.resp.length) :
    emitAll ws (s.drain k) = (emitAll ws s).drain k := by
  simp only [emitAll, State.drain, List.drop_append_of_le_length hk]

theorem le_emitAll_resp_length (ws : List Word) {s : State} {k : Nat} (hk : k ≤ s.resp.length) :
    k ≤ (emitAll ws s).resp.length := by
  rw [emitAll_resp, List.length_append]
  exact Nat.le_add_right_of_le hk

theorem emitThen_drain {ws : List Word} {after : After} {next : State → State} {s : State} {k : Nat}
    (hc : s.respCap = none) (hk : k ≤ s.resp.length)
    (hnext : next ((emitAll ws s).drain k) = (next (emitAll ws s)).drain k) :
    emitThen ws after next (s.drain k) = (emitThen ws after next s).drain k := by
  rw [emitThen_runs (hasRoom_of_none hc _), emitThen_runs (s := s.drain k) (hasRoom_of_none (s := s.drain k) hc _),
    emitAll_drain ws hk, hnext]

theorem runBlock_drain (total left : Nat) {s : State} {k : Nat} (hc : s.respCap = none) (hk : k ≤ s.resp.length) :
    runBlock total left (s.drain k) = (runBlock total left s).drain k := by
  induction left generalizing s with
  | zero => rfl
  | succ left ih =>
    obtain ⟨_ | ⟨f, fs⟩, rest, hp, hl⟩ := exists_frames s.port
    · have hlen : s.port.length < 2 := by rw [hp]; exact hl
      rw [runBlock_no_frame total left hlen, runBlock_no_frame total left (s := s.drain k) hlen]
      rfl
    · rw [runBlock_step total left hp, runBlock_step total left (s := s.drain k) hp]
      exact emitThen_drain (s := sampleWrites f.1 f.2 { s with port := portOfFrames fs ++ rest }) hc hk
        (ih (s := advanceCursors _) hc (le_emitAll_resp_length _ hk))

theorem goOn_drain (after : After) {s : State} {k : Nat} (hc : s.respCap = none) (hk : k ≤ s.resp.length) :
    goOn after (s.drain k) = (goOn after s).drain k := by
  cases after with
  | command length => rfl
  | sampleStep total left => exact runBlock_drain total left (s := advanceCursors s) hc hk

theorem unstalled_drain {s : State} {k : Nat} (hk : k ≤ s.resp.length) : unstalled (s.drain k) = (unstalled s).drain k := by
  obtain hs | ⟨ws, after, hb⟩ := notStalled_or_stalled s
  · rw [unstalled_of_notStalled hs, unstalled_of_notStalled (s := s.drain k) hs]
    rfl
  · rw [unstalled_of_stalled hb, unstalled_of_stalled (s := s.drain k) hb,
      ← goOn_drain after rfl (le_emitAll_resp_length ws (s := s.uncapped) hk), ← emitAll_drain ws (s := s.uncapped) hk]
    rfl

/-! ## The outputs of a run of sample steps (42_process_block.md R150) -/

/-- The response words of a run of sample steps, in order. -/
def frameOutputs : List (F32 × F32) → State → List Word
  | [], _ => []
  | f :: fs, s => sampleOutputs f.1 f.2 s ++ frameOutputs fs (sampleStep f.1 f.2 s)

theorem frameOutputs_length (fs : List (F32 × F32)) (s : State) : (frameOutputs fs s).length = 2 * fs.length := by
  induction fs generalizing s with
  | nil => rfl
  | cons f fs ih =>
    rw [frameOutputs, List.length_append, ih, sampleOutputs_length, List.length_cons]
    omega

theorem runFrames_resp_eq (fs : List (F32 × F32)) (s : State) : (runFrames fs s).resp = s.resp ++ frameOutputs fs s := by
  induction fs generalizing s with
  | nil => exact (List.append_nil _).symm
  | cons f fs ih => rw [runFrames_cons, ih, sampleStep_resp, frameOutputs, List.append_assoc]

/-- The outputs do not depend on what is on the ports, on what waits and on `cp`. -/
theorem frameOutputs_with_ports (fs : List (F32 × F32)) (s : State) (p r : List Word) (c : Option Nat) (b : Option Busy)
    (n : Nat) : frameOutputs fs { s with port := p, resp := r, respCap := c, busy := b, cp := n } = frameOutputs fs s := by
  induction fs generalizing s r with
  | nil => rfl
  | cons f fs ih => exact congrArg (sampleOutputs f.1 f.2 s ++ ·) (ih (sampleStep f.1 f.2 s) _)

/-! ## A block the host takes words from (R209 (c)) -/

/-- The block is not stuck, the capacity of its response port is `cap`, and words that wait for room are there. -/
structure State.Serving (cap : Option Nat) (s : State) : Prop where
  running : s.faulted = false
  respCap : s.respCap = cap
  waits : ∀ ws after, s.busy = some (.output ws after) → ws ≠ []

/-- Moreover words wait for room behind others only, as they do once the block has gone on as far as it can. -/
structure State.ServingFull (cap : Option Nat) (s : State) : Prop extends s.Serving cap where
  behind : ∀ ws after, s.busy = some (.output ws after) → s.resp ≠ []

theorem State.Serving.drain {cap : Option Nat} {s : State} (h : s.Serving cap) (k : Nat) : (s.drain k).Serving cap := { h with }

section

variable {cap : Option Nat} (hcap : ∀ c, cap = some c → 1 ≤ c)
include hcap

theorem emitThen_servingFull {ws : List Word} {after : After} {next : State → State} {s : State} (hf : s.faulted = false)
    (hc : s.respCap = cap) (hnext : (next (emitAll ws s)).ServingFull cap) : (emitThen ws after next s).ServingFull cap := by
  obtain ⟨-, e⟩ | ⟨c, hc', hfull, e⟩ := emitThen_cases ws after next s
  · rwa [e]
  · rw [e]
    have hpos := hcap c (hc.symm.trans hc')
    refine ⟨⟨hf, hc, ?_⟩, ?_⟩
    · rintro _ _ ⟨⟩
      rw [ne_eq, List.drop_eq_nil_iff]
      omega
    · rintro _ _ -
      rw [← List.length_pos_iff, waitingOutput_resp, List.length_append, List.length_take]
      omega

theorem runBlock_servingFull (total left : Nat) {s : State} (hf : s.faulted = false) (hc : s.respCap = cap) :
    (runBlock total left s).ServingFull cap := by
  induction left generalizing s with
  | zero => exact ⟨⟨hf, hc, nofun⟩, nofun⟩
  | succ left ih =>
    obtain ⟨_ | ⟨f, fs⟩, rest, hp, hl⟩ := exists_frames s.port
    · have hlen : s.port.length < 2 := by rw [hp]; exact hl
      rw [runBlock_no_frame total left hlen]
      exact ⟨⟨hf, hc, nofun⟩, nofun⟩
    · rw [runBlock_step total left hp]
      exact emitThen_servingFull hcap hf hc (ih hf hc)

theorem goOn_servingFull (after : After) {s : State} (hf : s.faulted = false) (hc : s.respCap = cap) :
    (goOn after s).ServingFull cap := by
  cases after with
  | command length => exact ⟨⟨hf, hc, nofun⟩, nofun⟩
  | sampleStep total left => exact runBlock_servingFull hcap total left (s := advanceCursors s) hf hc

theorem resumeBusy_servingFull (b : Busy) {s : State} (hf : s.faulted = false) (hc : s.respCap = cap) :
    (resumeBusy b s).ServingFull cap := by
  cases b with
  | input total left => exact runBlock_servingFull hcap total left hf hc
  | output ws after => exact emitThen_servingFull hcap hf hc (goOn_servingFull hcap after (s := emitAll ws s) hf hc)

end

/-! ## The words the host takes (R206) -/

theorem takeWord_of_resp {s : State} {w : Word} {rest : List Word} (h : s.resp = w :: rest) :
    takeWord s = (some w, s.drain 1) := by
  rw [takeWord, h]

/-- A word the block has to go on for is the one it has then. -/
theorem takeWord_of_step {s t : State} (h : s.resp = []) (e : step s = .next t) (ht : t.resp ≠ []) :
    takeWord s = takeWord t := by
  obtain ⟨w, rest, hcons⟩ := List.exists_cons_of_ne_nil ht
  simp only [takeWord, h, afterStep, e, hcons, List.head?_cons]

theorem takeWords_succ {n : Nat} {s t : State} {w : Word} (e : takeWord s = (some w, t)) :
    takeWords (n + 1) s = (w :: (takeWords n t).1, (takeWords n t).2) := by
  simp only [takeWords, e]

theorem takeWords_of_step {n : Nat} {s t : State} (hn : 0 < n) (h : s.resp = []) (e : step s = .next t) (ht : t.resp ≠ []) :
    takeWords n s = takeWords n t := by
  obtain ⟨n, rfl⟩ := Nat.exists_eq_succ_of_ne_zero hn.ne'
  rw [takeWords, takeWords, takeWord_of_step h e ht]

theorem resp_prefix_unstalled (s : State) : s.resp <+: (unstalled s).resp := by
  obtain hs | ⟨ws, after, hb⟩ := notStalled_or_stalled s
  · rw [unstalled_of_notStalled hs]
    exact List.prefix_rfl
  · rw [unstalled_of_stalled hb]
    exact (List.prefix_append s.resp ws).trans (goOn_portsAdvance after (emitAll ws s.uncapped)).2.2

/-- A block with nothing on its way has nothing waiting. -/
theorem State.Serving.notStalled_of_unstalled_resp {cap : Option Nat} {s : State} (h : s.Serving cap)
    (hr : (unstalled s).resp = []) : s.NotStalled := by
  intro ws after hb
  rw [unstalled_of_stalled hb] at hr
  have hprefix := (goOn_portsAdvance after (emitAll ws s.uncapped)).2.2
  rw [hr, List.prefix_nil, emitAll_resp, List.append_eq_nil_iff] at hprefix
  exact h.waits ws after hb hprefix.2

theorem State.ServingFull.resp_ne_nil {cap : Option Nat} {s : State} (h : s.ServingFull cap)
    (hr : (unstalled s).resp ≠ []) : s.resp ≠ [] := by
  intro hnil
  rw [unstalled_of_notStalled fun ws after hb => h.behind ws after hb hnil] at hr
  exact hr hnil

/-- Words on the response port are the first of those on their way. -/
theorem resp_cons_of_unstalled {s : State} {w : Word} {rest : List Word} (hr : (unstalled s).resp = w :: rest)
    (hne : s.resp ≠ []) : ∃ rest', s.resp = w :: rest' := by
  have hprefix := resp_prefix_unstalled s
  rw [hr, List.prefix_cons_iff] at hprefix
  obtain hnil | ⟨rest', hcons, -⟩ := hprefix
  · exact absurd hnil hne
  · exact ⟨rest', hcons⟩

/-- While words are on their way the host gets the next one. -/
theorem takeWord_serving {cap : Option Nat} (hcap : ∀ c, cap = some c → 1 ≤ c) {s : State} {w : Word} {rest : List Word}
    (h : s.Serving cap) (hr : (unstalled s).resp = w :: rest) :
    ∃ t, takeWord s = (some w, t.drain 1) ∧ t.Serving cap ∧ unstalled t = unstalled s ∧ 1 ≤ t.resp.length := by
  by_cases hnil : s.resp = []
  · obtain hs | ⟨ws, after, hb⟩ := notStalled_or_stalled s
    · rw [unstalled_of_notStalled hs] at hr
      cases hnil.symm.trans hr
    · have hfull := resumeBusy_servingFull hcap (.output ws after) h.running h.respCap
      have hu := unstalled_resumeBusy_of_stalled hb
      have hne := hfull.resp_ne_nil (by rw [hu, hr]; nofun)
      obtain ⟨rest', ht⟩ := resp_cons_of_unstalled (hu ▸ hr) hne
      have htake := (takeWord_of_step hnil (step_resume h.running hb) hne).trans (takeWord_of_resp ht)
      exact ⟨_, htake, hfull.toServing, hu, List.length_pos_iff.mpr hne⟩
  · obtain ⟨rest', ht⟩ := resp_cons_of_unstalled hr hnil
    exact ⟨s, takeWord_of_resp ht, h, rfl, List.length_pos_iff.mpr hnil⟩

/-- The host takes the words that are on their way, and leaves the state they were on their way to. -/
theorem takeWords_serving {cap : Option Nat} (hcap : ∀ c, cap = some c → 1 ≤ c) {s : State} {ws : List Word}
    (h : s.Serving cap) (hr : (unstalled s).resp = ws) :
    takeWords ws.length s = (ws, { unstalled s with resp := [], respCap := cap }) := by
  induction ws generalizing s with
  | nil =>
    have hs := h.notStalled_of_unstalled_resp hr
    rw [unstalled_of_notStalled hs] at hr ⊢
    rw [List.length_nil, takeWords, ← hr, ← h.respCap]
    rfl
  | cons w ws ih =>
    obtain ⟨t, e, ht, hu, hlen⟩ := takeWord_serving hcap h hr
    have hdrain := unstalled_drain hlen
    have hrest := ih (ht.drain 1) (by rw [hdrain, hu, drain_resp, hr]; rfl)
    rw [List.length_cons, takeWords_succ e, hrest, hdrain, hu]
    rfl

/-- A block without words on its port ends, or waits for a frame. -/
theorem runBlock_no_words (total left : Nat) {s : State} (hp : s.port = []) :
    ∃ b n, runBlock total left s = { s with busy := b, cp := n } ∧ (0 < left → b = some (.input total left)) := by
  cases left with
  | zero => exact ⟨_, _, rfl, nofun⟩
  | succ left => exact ⟨_, s.cp, runBlock_no_frame total left (hp ▸ Nat.two_pos), fun _ => rfl⟩

/-- Between two frames both ports are empty, and the block waits for the next one while it has frames to do. -/
structure State.BetweenFrames (total left : Nat) (s : State) : Prop where
  running : s.faulted = false
  holds : ∀ c, s.respCap = some c → 1 ≤ c
  port : s.port = []
  resp : s.resp = []
  busy : 0 < left → s.busy = some (.input total left)

/-- From a block between two frames, sent some frames, the host takes their outputs; the block is then where it would be with
no capacity. -/
theorem takeWords_frames {total left : Nat} {fs : List (F32 × F32)} {s : State} (h : s.BetweenFrames total (fs.length + left))
    (hpos : 0 < fs.length) :
    takeWords (2 * fs.length) (s.send (portOfFrames fs)) = (frameOutputs fs s,
      { runBlock total left (runFrames fs { s.uncapped with port := [] }) with resp := [], respCap := s.respCap }) := by
  have hstep := step_resume (s := s.send (portOfFrames fs)) h.running (h.busy (Nat.add_pos_left hpos left))
  have hfull := runBlock_servingFull h.holds total (fs.length + left) (s := s.send (portOfFrames fs)) h.running rfl
  have hport : (s.send (portOfFrames fs)).port = portOfFrames fs ++ [] := by
    rw [send_port, h.port, List.nil_append, List.append_nil]
  have hu : unstalled (runBlock total (fs.length + left) (s.send (portOfFrames fs))) =
      runBlock total left (runFrames fs { s.uncapped with port := [] }) :=
    (unstalled_runBlock ..).trans
      (runBlock_frames total left fs [] (s.send (portOfFrames fs)).uncapped hport (hasRoom_uncapped _ _))
  have hout : (unstalled (runBlock total (fs.length + left) (s.send (portOfFrames fs)))).resp = frameOutputs fs s := by
    obtain ⟨b, n, e, -⟩ := runBlock_no_words total left (s := runFrames fs { s.uncapped with port := [] }) (runFrames_port ..)
    rw [hu, e, runFrames_resp_eq]
    exact congrArg₂ (· ++ ·) h.resp (frameOutputs_with_ports fs s [] s.resp none s.busy s.cp)
  have hne := hfull.resp_ne_nil (by rw [hout, ← List.length_pos_iff, frameOutputs_length]; omega)
  rw [takeWords_of_step (s := s.send (portOfFrames fs)) (by omega) h.resp hstep hne, ← hu, ← frameOutputs_length fs s]
  exact takeWords_serving h.holds hfull.toServing hout

/-- One frame sent and its two words taken leave the block between two frames. -/
theorem takeWords_one_frame {total left : Nat} (f : F32 × F32) {s : State} (h : s.BetweenFrames total (left + 1)) :
    ∃ t, takeWords 2 (s.send [f.1, f.2]) = (sampleOutputs f.1 f.2 s, t) ∧ t.BetweenFrames total left ∧
      ∀ fs, frameOutputs fs t = frameOutputs fs (sampleStep f.1 f.2 s) := by
  obtain ⟨b, n, e, hb⟩ := runBlock_no_words total left (s := runFrames [f] { s.uncapped with port := [] }) rfl
  have hwords := takeWords_frames (fs := [f]) (Nat.add_comm left 1 ▸ h) Nat.one_pos
  rw [e] at hwords
  exact ⟨_, hwords, ⟨h.running, h.holds, rfl, rfl, hb⟩,
    fun fs => frameOutputs_with_ports fs (sampleStep f.1 f.2 s) [] [] s.respCap b n⟩

/-- One frame in place: its two response words are written over it. -/
theorem processInPlace_step {n i : Nat} {buf : List (F32 × F32)} {s t : State} {f : F32 × F32} {lout rout : Word}
    (hi : buf[i]? = some f) (e : takeWords 2 (s.send [f.1, f.2]) = ([lout, rout], t)) :
    processInPlace (n + 1) i buf s = processInPlace n (i + 1) (buf.set i (lout, rout)) t := by
  rw [processInPlace, hi]
  simp only [e]

/-- In-place processing leaves the outputs of the frames still to do, after the frames done. -/
theorem processInPlace_outputs {total : Nat} (fs done : List (F32 × F32)) {s : State} (h : s.BetweenFrames total fs.length) :
    portOfFrames (processInPlace fs.length done.length (done ++ fs) s).1 = portOfFrames done ++ frameOutputs fs s := by
  induction fs generalizing done s with
  | nil => rw [List.append_nil, frameOutputs, List.append_nil]; rfl
  | cons f fs ih =>
    obtain ⟨t, hwords, ht, houtputs⟩ := takeWords_one_frame f h
    have hi : (done ++ f :: fs)[done.length]? = some f := by simp
    have hset (o : F32 × F32) : (done ++ f :: fs).set done.length o = (done ++ [o]) ++ fs := by simp
    have hrest (o : F32 × F32) := ih (done ++ [o]) ht
    simp only [List.length_append, List.length_singleton] at hrest
    rw [List.length_cons, processInPlace_step hi hwords, hset, hrest, portOfFrames_append, houtputs, List.append_assoc]
    rfl

end Sys2Proof.Machine

namespace Sys2Proof.Proofs

open Sys2Proof.Machine

/-- Settles O20: the effect of CREATE is the statement's state, and its memories hold no entry. -/
theorem createInitialises : Obligations.CreateInitialises := fun s sr hf =>
  ⟨commandEffect (.create sr) s, exec_runs hf nofun, rfl, memRead_nil, memRead_nil⟩

/-- Settles O21: CREATE writes every field the two states may differ in but `BD`. -/
theorem createDiscardsEarlierState : Obligations.CreateDiscardsEarlierState := by
  intro s s' t t' sr hport hresp hcp hinfo hbusy hring hcap hdraw e e'
  obtain ⟨hf, rfl⟩ := exec_create_next e
  obtain ⟨hf', rfl⟩ := exec_create_next e'
  simp only [complete, freshInstance, hf, hf', hport, hresp, hcp, hinfo, hbusy, hring, hcap, hdraw]

/-- Settles O22: the command leaves its effect when `ALIVE` is 1 and raises the fault when it is 0. -/
theorem destroyReleasesTheInstance : Obligations.DestroyReleasesTheInstance := fun s hf =>
  ⟨fun ha => ⟨commandEffect .destroy s, exec_runs hf fun _ => ha, rfl, rfl, rfl, rfl, hf, rfl, rfl, rfl, rfl⟩,
    exec_noInstance hf rfl⟩

/-- Settles O58, call by call. -/
theorem nullHandlesSendNothing : Obligations.NullHandlesSendNothing := by
  refine ⟨fun alive v n li ri lo ro out count k sli sri loLen roLen => ?_, fun alive h li ri lo ro count k => ?_⟩
  · simp only [List.forall_mem_cons]
    exact ⟨⟨rfl, rfl⟩, ⟨rfl, rfl⟩, ⟨rfl, rfl⟩, ⟨rfl, rfl⟩, ⟨rfl, rfl⟩, ⟨rfl, rfl⟩, process_of_null alive count (.inl rfl),
      ⟨rfl, rfl⟩, ⟨rfl, rfl⟩, ⟨rfl, rfl⟩, nofun⟩
  · refine ⟨⟨rfl, rfl⟩, rfl, fun hbuf => process_of_null alive count (.inr hbuf), ?_⟩
    cases h <;> exact ⟨rfl, rfl⟩

/-- Settles O60: a step, capped or not, leads to the same state once the words that wait have gone out; words are taken
alike; and a command that waits emits what has room. -/
theorem backPressureOnlyDelays : Obligations.BackPressureOnlyDelays := by
  refine ⟨fun s t e => ⟨?_, fun hs => ?_⟩, fun s k => unstalled_drain, fun s ws after hf hb => ?_⟩
  · rintro ⟨ws, after, hb⟩
    obtain rfl := Host.Outcome.next.inj ((step_resume (step_cases e).1 hb).symm.trans e)
    exact unstalled_resumeBusy_of_stalled hb
  · rw [unstalled_of_notStalled hs]
    exact step_uncapped e
  · rw [step_resume hf hb]
    refine ⟨fun c hc h => congrArg _ (emitThen_waits hc h), fun k hr ha => ?_, fun total left hr ha => ?_⟩
    all_goals
      rw [resumeBusy_output_runs hr, ha]
      rfl

/-- Settles O59: both ways the host is left with the outputs of the run of sample steps, whatever the capacity. -/
theorem inPlaceEqualsSeparateBuffers : Obligations.InPlaceEqualsSeparateBuffers := by
  intro s total fs hf hp hr hb hpos hcap
  have h : s.BetweenFrames total fs.length := ⟨hf, hcap, hp, hr, fun _ => hb⟩
  calc portOfFrames (processInPlace fs.length 0 fs s).1
    _ = frameOutputs fs s := processInPlace_outputs fs [] h
    _ = (takeWords (2 * fs.length) (s.send (portOfFrames fs))).1 := by rw [takeWords_frames (left := 0) h hpos]

end Sys2Proof.Proofs

/-!
PROOFS. Exceptions (60_exceptions.md): nothing but the check of `ALIVE` raises the fault (R220, R222, R223), a block without
a fault has a next state (R224), and a wait is a step to the same state (R234).
-/

namespace Sys2Proof

open Sys2Proof.Claims (legalWords)

/-! ## The words behind a legal word (60_exceptions.md R225) -/

theorem mem_legalWords_iff (w : Word) : w ∈ legalWords ↔ ∃ op, w = commandWord op := by
  simp only [← legal_iff_mem_legalWords, decodeWord_eq_ok_iff]

/-- Behind a legal word its operands are there or they are not. -/
theorem decode_commandWord (op : Opcode) (rest : List Word) :
    (∃ i ops, decode (commandWord op :: rest) = .ok (i, ops) ∧ i.opcode = op) ∨
      decode (commandWord op :: rest) = .error (.operandsMissing op) := by
  have hw : decodeWord (commandWord op) = .ok op := (decodeWord_eq_ok_iff _ op).mpr rfl
  cases hops : decodeOperands op rest with
  | some r => exact .inl ⟨r.1, r.2, by simp only [decode, hw, hops], (decodeOperands_eq_some hops).1.symm⟩
  | none => exact .inr (by simp only [decode, hw, hops])

end Sys2Proof

namespace Sys2Proof.Machine

open Sys2Proof.Claims (noInstanceState)

/-! ## What leaves `FAULTED` alone (60_exceptions.md R220, R223) -/

theorem emitThen_faulted {ws : List Word} {after : After} {next : State → State}
    (hnext : ∀ u : State, (next u).faulted = u.faulted) (s : State) : (emitThen ws after next s).faulted = s.faulted := by
  obtain ⟨-, e⟩ | ⟨c, -, -, e⟩ := emitThen_cases ws after next s
  · rw [e, hnext, emitAll_faulted]
  · rw [e, waitingOutput_faulted]

theorem goOn_faulted (after : After) (s : State) : (goOn after s).faulted = s.faulted := by
  cases after with
  | command length => rfl
  | sampleStep total left => exact (runBlock_frame total left (advanceCursors s)).faulted

theorem resumeBusy_faulted (b : Busy) (s : State) : (resumeBusy b s).faulted = s.faulted := by
  cases b with
  | input total left => exact (runBlock_frame total left s).faulted
  | output ws after => exact emitThen_faulted (goOn_faulted after) s

theorem commandEffect_faulted (i : Instr) (s : State) : (commandEffect i s).faulted = s.faulted := by
  cases i with
  | create | destroy | reset | setSampleRate | setDelayTime | setFeedback | setMix | setVoiceCount => rfl
  | getSampleRate | getDelayTime | getFeedback | getMix | getVoiceCount | getWriteCursor | getWaveformSize
  | getWaveformIndex | getVoiceWaveform | readVoiceRing => exact respond_faulted _ _ s
  | processBlock => exact (runBlock_frame _ _ (startBlock s)).faulted

/-- Of all a step can do, the raised fault alone sets `FAULTED` (60_exceptions.md R221). -/
theorem eq_noInstanceState_of_faulted {s t : State} (e : step s = .next t) (ht : t.faulted = true) :
    t = noInstanceState s := by
  obtain ⟨hf, hcases⟩ := step_cases e
  have hset (h : t.faulted = s.faulted) : t = noInstanceState s := absurd (h.symm.trans ht) (by simp [hf])
  obtain ⟨b, -, rfl⟩ | ⟨-, rfl⟩ | ⟨-, rfl⟩ | ⟨-, -, rfl⟩ | ⟨-, i, rest, -, he⟩ := hcases
  · exact hset (resumeBusy_faulted b s)
  · exact hset rfl
  · exact hset (skipIllegal_faulted s)
  · rfl
  · obtain ⟨-, ⟨-, rfl⟩ | ⟨-, -, rfl⟩⟩ := exec_next he
    · exact hset (commandEffect_faulted i s)
    · rfl

/-! ## The next state (60_exceptions.md R221, R224) -/

theorem step_stuck {s : State} (hf : s.faulted = true) : step s = .fault .stuckAfterFault := by
  rw [step, fetch_stuck hf]

theorem faulted_of_fetch_stuck {s : State} (h : fetch s = .stuck) : s.faulted = true := by
  unfold fetch at h
  split at h
  · assumption
  · split at h
    · cases h
    · split at h
      -- operand words are missing
      case h_5 => split at h <;> cases h
      all_goals cases h

theorem exec_answers (i : Instr) {s : State} (hf : s.faulted = false) : ∃ t, exec i s = .next t := by
  by_cases ha : needsInstance i.opcode = true → s.alive = true
  · exact ⟨_, exec_runs hf ha⟩
  · obtain ⟨hn, hdead⟩ := Classical.not_imp.mp ha
    exact ⟨_, exec_raises hf hn (Bool.eq_false_of_not_eq_true hdead)⟩

theorem step_answers {s : State} (hf : s.faulted = false) : ∃ t, step s = .next t := by
  unfold step
  cases hfetch : fetch s with
  | stuck => exact absurd (faulted_of_fetch_stuck hfetch) (by simp [hf])
  | resume | wait | illegal | noInstance => exact ⟨_, rfl⟩
  | run i => exact exec_answers i hf

/-! ## The waits (60_exceptions.md R224, R234) -/

theorem step_wait {s : State} (h : fetch s = .wait) : step s = .next s := by
  rw [step, h]

/-- Operand words are missing and the check of `ALIVE`, made before them, passes (60_exceptions.md R225). -/
theorem step_operandsMissing {s : State} {op : Opcode} (hf : s.faulted = false) (hb : s.busy = none)
    (hd : decode s.port = .error (.operandsMissing op)) (ha : needsInstance op = true → s.alive = true) :
    step s = .next s := by
  refine step_wait ?_
  rw [fetch_missing hf hb hd, if_neg]
  simpa using ha

/-- A full response port takes no word, so the command waits on with all of its words. -/
theorem step_noRoom {s : State} {ws : List Word} {after : After} (hf : s.faulted = false)
    (hb : s.busy = some (.output ws after)) (hws : ws ≠ []) (hroom : ¬ s.hasRoom 1) : step s = .next s := by
  obtain ⟨c, hc, hfull⟩ := (room_or_full s 1).resolve_left hroom
  have hlen := List.length_pos_iff.mpr hws
  rw [step_resume hf hb, resumeBusy, emitThen_waits hc (by omega), Nat.lt_one_iff.mp hfull, waitingOutput, List.take_zero,
    List.append_nil, List.drop_zero, ← hb]

/-! ## The check of `ALIVE` (60_exceptions.md R222, R225) -/

/-- The command words `1` and `0x40` are those of CREATE and GET_WAVEFORM_SIZE. -/
theorem needsInstance_eq_false_iff (op : Opcode) :
    needsInstance op = false ↔ commandWord op = 0x00000001 ∨ commandWord op = 0x00000040 := by
  cases op <;> decide

theorem step_noInstance {s : State} {op : Opcode} {rest : List Word} (hf : s.faulted = false) (hb : s.busy = none)
    (ha : s.alive = false) (hp : s.port = commandWord op :: rest) (hn : needsInstance op = true) :
    step s = .next (noInstanceState s) := by
  obtain ⟨i, ops, hd, rfl⟩ | hd := decode_commandWord op rest
  · rw [step_run hf hb (hp ▸ hd)]
    exact exec_noInstance hf hn ha
  · rw [step, fetch_missing hf hb (hp ▸ hd), hn, ha]
    rfl

/-- CREATE and GET_WAVEFORM_SIZE run, or wait for their operand. -/
theorem step_needsNoInstance {s : State} {op : Opcode} {rest : List Word} (hf : s.faulted = false) (hb : s.busy = none)
    (hp : s.port = commandWord op :: rest) (hn : needsInstance op = false) :
    ∃ t, step s = .next t ∧ t.faulted = false := by
  obtain ⟨i, ops, hd, rfl⟩ | hd := decode_commandWord op rest
  · have hrun : exec i s = .next (commandEffect i s) := exec_runs hf (by simp [hn])
    exact ⟨_, (step_run hf hb (hp ▸ hd)).trans hrun, (commandEffect_faulted i s).trans hf⟩
  · exact ⟨s, step_operandsMissing hf hb (hp ▸ hd) (by simp [hn]), hf⟩

end Sys2Proof.Machine

namespace Sys2Proof.Proofs

open Sys2Proof.Machine

/-- Settles O13: the legal words are the command words, and the check of `ALIVE` is made whether the operands are there or
not. -/
theorem commandsWithoutInstanceFault : Obligations.CommandsWithoutInstanceFault := by
  intro s w rest hf hb ha hp hw
  obtain ⟨op, rfl⟩ := (mem_legalWords_iff w).mp hw
  rw [← needsInstance_eq_false_iff]
  refine ⟨fun h1 h40 => step_noInstance hf hb ha hp ?_, step_needsNoInstance hf hb hp⟩
  rw [← Bool.not_eq_false, needsInstance_eq_false_iff]
  exact not_or.mpr ⟨h1, h40⟩

/-- Settles O14: a step that sets `FAULTED` raised the fault, and a stuck block gives neither a step nor a command. -/
theorem faultIsRecordedAndFinal : Obligations.FaultIsRecordedAndFinal :=
  ⟨fun _ _ => eq_noInstanceState_of_faulted, fun _ hf => ⟨step_stuck hf, fun _ => exec_stuck hf⟩⟩

/-- Settles O15: a command runs or raises the fault, and `fetch` answers nothing else without a next state. -/
theorem onlyFaultedStops : Obligations.OnlyFaultedStops := fun _ hf => ⟨step_answers hf, fun i => exec_answers i hf⟩

/-- Settles O16, wait by wait. -/
theorem waitingChangesNothing : Obligations.WaitingChangesNothing := by
  rintro s hf (⟨hb, hp⟩ | ⟨hb, op, hd, ha⟩ | ⟨total, left, hb, hleft, hp⟩ | ⟨ws, after, hb, hws, hroom⟩)
  · exact step_wait (fetch_wait hf hb (congrArg decode hp))
  · refine step_operandsMissing hf hb hd fun hn => ha.resolve_right ?_
    rintro rfl
    cases hn
  · obtain ⟨left, rfl⟩ := Nat.exists_eq_succ_of_ne_zero hleft.ne'
    exact step_starved hf hb hp
  · exact step_noRoom hf hb hws hroom

end Sys2Proof.Proofs

/-!
PROOFS. Power-on and reset (70_reset_and_hazards.md R240, R242): a power-on state waits for its first command word, the
model's reset state is one of them, and CREATE compared with RESET.
-/

namespace Sys2Proof.Machine

/-! ## Power-on (10_state.md R38, 70_reset_and_hazards.md R240) -/

/-- An idle block with nothing on its command port waits for a command word. -/
theorem step_portEmpty {s : State} (hf : s.faulted = false) (hb : s.busy = none) (hp : s.port = []) : step s = .next s :=
  step_wait (fetch_wait hf hb (congrArg decode hp))

/-- The model's choices for the registers and memories R38 leaves unspecified are in range (10_state.md R39). -/
theorem reset_inRange : State.reset.InRange where
  ringLen_pos := (by decide : 1 ≤ Config.testRingLen)
  dt_range := inRange_zero inRange_delayTimeMax
  fb_range := inRange_zero inRange_one
  mx_range := inRange_zero inRange_one
  vc_range := (by decide : 1 ≤ (1 : BitVec 5).toNat ∧ (1 : BitVec 5).toNat ≤ 16)
  bd_range := (by decide : 1 ≤ (1 : BitVec 14).toNat ∧ (1 : BitVec 14).toNat ≤ 11999)
  wc_range := (by decide : (0 : BitVec 18).toNat < 192000)
  wi_range := (by decide : 0 < Config.testRingLen)
  dm_wf := wf_nil _
  wm_wf := wf_nil _

/-- With no fault, no command that waits and no bound on the response port, the ranges are all the invariant asks. -/
theorem reset_inv : State.reset.Inv where
  toInRange := reset_inRange
  fault_code := rfl
  fault_position := nofun
  fault_released := nofun
  busy_legal := nofun
  resp_room := nofun

end Sys2Proof.Machine

namespace Sys2Proof.Proofs

open Sys2Proof.Machine

/-- Settles O1: the command port is empty and no command waits. -/
theorem powerOnIsIdle : Obligations.PowerOnIsIdle := fun _ h =>
  ⟨h.not_alive, h.not_faulted, h.cp_zero, step_portEmpty h.not_faulted h.idle h.port_empty⟩

/-- Settles O2: what R38 gives holds by definition, and the chosen values keep the invariant. -/
theorem resetIsAPowerOnState : Obligations.ResetIsAPowerOnState where
  not_alive := rfl
  not_faulted := rfl
  cp_zero := rfl
  port_empty := rfl
  resp_empty := rfl
  idle := rfl
  inv := reset_inv

/-- Settles O23: with an instance there both commands leave their effect, and the two effects write the same memories and
cursors. -/
theorem createIsResetWithDefaults : Obligations.CreateIsResetWithDefaults := by
  intro s c r sr ha hcreate hreset
  rw [exec_next_of_alive ha hcreate, exec_next_of_alive ha hreset]
  rfl

end Sys2Proof.Proofs

/-!
PROOFS. Waveform capture beside the audio (43_waveform_capture.md, opening paragraph): two blocks that differ in the rings
and their index alone differ in nothing else after any part of PROCESS_BLOCK.
-/

namespace Sys2Proof.Machine

/-! ## States that differ in the rings and their index alone -/

/-- `t'` is `t` but for the rings and their index. -/
def State.SameButRings (t t' : State) : Prop := ∃ (wm : Mem) (wi : Nat), t' = { t with wm := wm, wi := wi }

theorem State.SameButRings.eq {t t' : State} (h : t.SameButRings t') : t' = { t with wm := t'.wm, wi := t'.wi } := by
  obtain ⟨wm, wi, rfl⟩ := h
  rfl

theorem State.SameButRings.port {t t' : State} (h : t.SameButRings t') : t'.port = t.port := by
  obtain ⟨wm, wi, rfl⟩ := h
  rfl

theorem State.SameButRings.withPort {t t' : State} (h : t.SameButRings t') (p : List Word) :
    State.SameButRings { t with port := p } { t' with port := p } := by
  obtain ⟨wm, wi, rfl⟩ := h
  exact ⟨wm, wi, rfl⟩

theorem State.SameButRings.withBusy {t t' : State} (h : t.SameButRings t') (b : Option Busy) :
    State.SameButRings { t with busy := b } { t' with busy := b } := by
  obtain ⟨wm, wi, rfl⟩ := h
  exact ⟨wm, wi, rfl⟩

/-- The tap loop records in the rings and reads the delay line alone, so of what it carries only the rings can differ
(42_process_block.md R154 to R156). -/
theorem tapPrefix_rings (s : State) (wm : Mem) (wi n : Nat) :
    ∃ m, tapPrefix { s with wm := wm, wi := wi } n = { tapPrefix s n with wm := m } := by
  induction n with
  | zero => exact ⟨wm, rfl⟩
  | succ n ih =>
    obtain ⟨m, e⟩ := ih
    refine ⟨wmWrite m n wi (tapOutput s n), ?_⟩
    rw [tapPrefix_succ, tapPrefix_succ, e]
    rfl

theorem sampleOutputs_sameButRings (l r : F32) {s s' : State} (h : s.SameButRings s') :
    sampleOutputs l r s' = sampleOutputs l r s := by
  obtain ⟨wm, wi, rfl⟩ := h
  obtain ⟨m, e⟩ := tapPrefix_rings s wm wi s.vc.toNat
  rw [sampleOutputs, tapLoop_eq, e]
  rfl

theorem sampleWrites_sameButRings (l r : F32) {s s' : State} (h : s.SameButRings s') :
    (sampleWrites l r s).SameButRings (sampleWrites l r s') := by
  obtain ⟨wm, wi, rfl⟩ := h
  obtain ⟨m, e⟩ := tapPrefix_rings s wm wi s.vc.toNat
  refine ⟨m, wi, ?_⟩
  rw [sampleWrites, tapLoop_eq, e]
  rfl

theorem advanceCursors_sameButRings {s s' : State} (h : s.SameButRings s') :
    (advanceCursors s).SameButRings (advanceCursors s') := by
  obtain ⟨wm, wi, rfl⟩ := h
  exact ⟨wm, (wi + 1) % s.ringLen, rfl⟩

/-- Room on the response port does not depend on the rings, so both go on or both wait. -/
theorem emitThen_sameButRings {ws : List Word} {after : After} {next : State → State}
    (hnext : ∀ {u u' : State}, u.SameButRings u' → (next u).SameButRings (next u')) {s s' : State}
    (h : s.SameButRings s') : (emitThen ws after next s).SameButRings (emitThen ws after next s') := by
  obtain ⟨wm, wi, rfl⟩ := h
  rcases room_or_full s ws.length with hroom | ⟨c, hc, hfull⟩
  · rw [emitThen_runs hroom, emitThen_runs (s := { s with wm := wm, wi := wi }) hroom]
    exact hnext ⟨wm, wi, rfl⟩
  · rw [emitThen_waits hc hfull, emitThen_waits (s := { s with wm := wm, wi := wi }) hc hfull]
    exact ⟨wm, wi, rfl⟩

/-- Both blocks find the same frames on the command port and do the same sample steps. -/
theorem runBlock_sameButRings (total left : Nat) {s s' : State} (h : s.SameButRings s') :
    (runBlock total left s).SameButRings (runBlock total left s') := by
  induction left generalizing s s' with
  | zero =>
    obtain ⟨wm, wi, rfl⟩ := h
    exact ⟨wm, wi, rfl⟩
  | succ left ih =>
    obtain ⟨_ | ⟨f, fs⟩, rest, hp, hl⟩ := exists_frames s.port
    · have hlen : s.port.length < 2 := hp ▸ hl
      rw [runBlock_no_frame total left hlen, runBlock_no_frame total left (h.port ▸ hlen)]
      exact h.withBusy _
    · have hframe := h.withPort (portOfFrames fs ++ rest)
      rw [runBlock_step total left (rest := portOfFrames fs ++ rest) hp,
        runBlock_step total left (rest := portOfFrames fs ++ rest) (h.port.trans hp),
        sampleOutputs_sameButRings f.1 f.2 hframe]
      exact emitThen_sameButRings (fun hu => ih (advanceCursors_sameButRings hu))
        (sampleWrites_sameButRings f.1 f.2 hframe)

end Sys2Proof.Machine

namespace Sys2Proof.Proofs

open Sys2Proof.Machine

/-- Settles O52: both blocks run, or both raise the fault, and neither outcome carries the rings into another field. -/
theorem captureDoesNotAffectAudio : Obligations.CaptureDoesNotAffectAudio := by
  intro s t t' wm wi nli nri nlo nro e e'
  obtain ⟨hf, ⟨ha, rfl⟩ | ⟨hn, ha, rfl⟩⟩ := exec_next e
  · cases e'.symm.trans (exec_runs hf ha)
    have hstart : (startBlock s).SameButRings (startBlock { s with wm := wm, wi := wi }) := ⟨wm, wi, rfl⟩
    exact (runBlock_sameButRings _ _ hstart).eq
  · cases e'.symm.trans (exec_raises hf hn ha)
    rfl

end Sys2Proof.Proofs
